-- ==== Sys2Proof/Word.lean ====
section
/-! DEFINITION. The data types of the codec: bytes, register words, pixels, tiles and the two kinds of
8-byte block part (spec files 00_scope.md rule R7, 20_memory.md rules R44 and R46, 30_encoding.md rules R66 and R79). -/

namespace Sys2Proof

/-- One byte of IN or OUT, one pixel channel (R25, R26, R44). -/
abbrev Byte := BitVec 8

/-- A 16-bit RGB565 endpoint colour (R66, R67). -/
abbrev Half := BitVec 16

/-- A register of the register block; every register is 32 bits wide (R21). -/
abbrev Word := BitVec 32

/-- A pixel `(R, G, B, A)`, each channel a number in 0..255 (R7, R44). -/
structure Pixel where
  r : Byte
  g : Byte
  b : Byte
  a : Byte
deriving DecidableEq, Repr

/-- The sixteen pixels of a 4 by 4 tile, pixel `k = 4*ty + tx` at position `k` (R11, R46). -/
abbrev Tile := Vector Pixel 16

/-- The sixteen alpha values of a tile, in tile order (R140). -/
abbrev Alphas := Vector Byte 16

/-- The fields of a colour block: two endpoints and the word of sixteen 2-bit indices (R66). -/
structure ColorBlock where
  c0 : Half
  c1 : Half
  cw : BitVec 32
deriving DecidableEq, Repr

/-- The fields of a BC3 alpha block: two endpoints and the word of sixteen 3-bit indices (R79). -/
structure AlphaBlock where
  a0 : Byte
  a1 : Byte
  iw : BitVec 48
deriving DecidableEq, Repr

end Sys2Proof
end

