-- ==== Sys2Proof/Syntax.lean ====
section
/-! DEFINITION. What the BTC executes and what the host may do: the nine commands (30_encoding.md rule R62), the
fields of a command word (R60), the error causes (60_exceptions.md rule R200), the registers (10_state.md rule R21),
the host moves and the turns of a run (70_reset_and_hazards.md rule R240). -/

namespace Sys2Proof

/-- TextureFormat (R61). -/
inductive Format where
  | bc1
  | bc2
  | bc3
deriving DecidableEq, Repr

/-- The three operations the BTC implements (R62). -/
inductive Operation where
  | size
  | enc
  | dec
deriving DecidableEq, Repr

/-- The nine commands, one constructor per row of the opcode table (R62, R85). No row has an operand in the word:
the operands are the latched registers and the bytes of IN (R60). -/
inductive Instr where
  | sizeBc1
  | sizeBc2
  | sizeBc3
  | encBc1
  | encBc2
  | encBc3
  | decBc1
  | decBc2
  | decBc3
deriving DecidableEq, Repr

/-- The fields of a command word, format C (R60). -/
structure CommandWord where
  op : Byte
  fmt : Byte
  zero : Half
deriving DecidableEq, Repr

/-- The causes of an error end (R200). -/
inductive ErrorCode where
  | eOp
  | eFormat
  | eDim
  | ePixlen
  | eDatalen
deriving DecidableEq, Repr

/-- The six registers (R21). -/
inductive Reg where
  | cmd
  | width
  | height
  | srcLen
  | status
  | result
deriving DecidableEq, Repr

/-- The moves of the host (R240). A register access names an offset in the register block and a size in bytes; the
last two constructors are accesses no host interface offers (I12), kept so that the model refuses them by name. -/
inductive HostMove where
  | writeReg (offset bytes : Nat) (v : Word)
  | readReg (offset bytes : Nat)
  | writeIn (a : Nat) (b : Byte)
  | readOut (a : Nat)
  | reset
  | readIn (a : Nat)
  | writeOut (a : Nat) (b : Byte)
deriving DecidableEq, Repr

/-- One turn of a run (R240): a move of the host, or the BTC's own step, which either takes one block that is not
done yet (R107) or runs the command to its end (R103, R108). -/
inductive Turn where
  | host (m : HostMove)
  | btcBlock (n : Nat)
  | btcRun
deriving DecidableEq, Repr

/-- What a read of the host returned (R239): a register or a byte of OUT. -/
inductive Observed where
  | word (v : Word)
  | byte (b : Byte)
deriving DecidableEq, Repr

end Sys2Proof
end

