-- ==== Sys2Proof/Decode.lean ====
section
/-! DEFINITION. The command word (30_encoding.md rules R60 to R64 and R85): its decoder, total on all 32-bit words and
rejecting by the error the word ends with, and its encoder. And the register offsets (10_state.md rules R21, R35). -/

namespace Sys2Proof

/-- The operation of a command (R62). -/
def Instr.op : Instr → Operation
  | .sizeBc1 => .size
  | .sizeBc2 => .size
  | .sizeBc3 => .size
  | .encBc1 => .enc
  | .encBc2 => .enc
  | .encBc3 => .enc
  | .decBc1 => .dec
  | .decBc2 => .dec
  | .decBc3 => .dec

/-- The format of a command (R62). -/
def Instr.format : Instr → Format
  | .sizeBc1 => .bc1
  | .sizeBc2 => .bc2
  | .sizeBc3 => .bc3
  | .encBc1 => .bc1
  | .encBc2 => .bc2
  | .encBc3 => .bc3
  | .decBc1 => .bc1
  | .decBc2 => .bc2
  | .decBc3 => .bc3

/-- The command of an operation and a format (R62). -/
def commandOf : Operation → Format → Instr
  | .size, .bc1 => .sizeBc1
  | .size, .bc2 => .sizeBc2
  | .size, .bc3 => .sizeBc3
  | .enc, .bc1 => .encBc1
  | .enc, .bc2 => .encBc2
  | .enc, .bc3 => .encBc3
  | .dec, .bc1 => .decBc1
  | .dec, .bc2 => .decBc2
  | .dec, .bc3 => .decBc3

/-- The fields of a 32-bit word: OP in 7:0, FMT in 15:8, ZERO in 31:16 (R60, R63). -/
def fieldsOf (w : Word) : CommandWord :=
  { op := w.extractLsb' 0 8, fmt := w.extractLsb' 8 8, zero := w.extractLsb' 16 16 }

/-- The word that holds given fields (R60). -/
def wordOf (f : CommandWord) : Word :=
  f.zero ++ f.fmt ++ f.op

/-- OP to operation: 2, 3 and 4; 0 and 1 (the stream operations) and 5..255 are none (R62). -/
def operationOf (op : Byte) : Option Operation :=
  if op = 2 then some .size
  else if op = 3 then some .enc
  else if op = 4 then some .dec
  else none

/-- FMT to format: 0, 1 and 2; 3..255 are no format id (R61). -/
def formatOf (fmt : Byte) : Option Format :=
  if fmt = 0 then some .bc1
  else if fmt = 1 then some .bc2
  else if fmt = 2 then some .bc3
  else none

/-- Operation to OP (R62). -/
def opField : Operation → Byte
  | .size => 2
  | .enc => 3
  | .dec => 4

/-- Format to FMT (R61). -/
def fmtField : Format → Byte
  | .bc1 => 0
  | .bc2 => 1
  | .bc3 => 2

/-- The command a word stands for, or the error it ends with: `E_OP` when ZERO is not 0 or OP is not 2, 3 or 4, else
`E_FORMAT` when FMT is not 0, 1 or 2 (R64, R85; checks 1 and 2 of R102). -/
def decode (w : Word) : Except ErrorCode Instr :=
  let f := fieldsOf w
  if f.zero ≠ 0 then .error .eOp
  else
    match operationOf f.op with
    | none => .error .eOp
    | some op =>
      match formatOf f.fmt with
      | none => .error .eFormat
      | some fmt => .ok (commandOf op fmt)

/-- The fields of a command's word (R60, R62). -/
def encodeFields (i : Instr) : CommandWord :=
  { op := opField i.op, fmt := fmtField i.format, zero := 0 }

/-- The command word of a command (R62). -/
def encode (i : Instr) : Word :=
  wordOf (encodeFields i)

/-- The offset of a register in the register block (R21). -/
def Reg.offset : Reg → Nat
  | .cmd => 0x00
  | .width => 0x04
  | .height => 0x08
  | .srcLen => 0x0C
  | .status => 0x10
  | .result => 0x14

/-- The access of the register at an offset, aligned and 32 bits wide, or none (R21, R35). -/
def Reg.ofAccess (offset bytes : Nat) : Option Reg :=
  if bytes = 4 then
    [Reg.cmd, .width, .height, .srcLen, .status, .result].find? (fun r => r.offset == offset)
  else none

/-- The decoder on an opcode-table word of `nbits` bits; every bit above `nbits` is 0. A command word is one 32-bit
number written whole to CMD, so it has no byte order of its own (R40). -/
def decodeTableWord (nbits w : Nat) : Option Instr :=
  match decode (BitVec.ofNat 32 (w % 2 ^ nbits)) with
  | .ok i => some i
  | .error _ => none

end Sys2Proof
end

