-- ==== Sys2Proof/Config.lean ====
section
/-! DEFINITION. The parameters of the BTC (00_scope.md rule R6): they are arguments of the model and never change
while it runs (10_state.md rule R20), so they are no part of State. And the free values: what the spec gives no
architected value to (93_implementation_defined.md entries I3, I4 and I13). -/

namespace Sys2Proof

/-- The channel weights of the error metric (R126; parameter I2). -/
structure Weights where
  r : Nat
  g : Nat
  b : Nat
deriving DecidableEq, Repr

/-- The endpoint-selection strategy (R127; parameter I1): a pair of total functions. -/
structure Quantizer where
  /-- `ColorQ(P, bc1)`, a colour block. -/
  colorQ : Tile → Bool → ColorBlock
  /-- `AlphaQ(A[0..15])`, a BC3 alpha block. -/
  alphaQ : Alphas → AlphaBlock

/-- The parameters of one BTC (R6). -/
structure Config where
  /-- `LEN_MAX`, the largest buffer length in bytes (parameter I5). -/
  lenMax : Nat
  weights : Weights
  /-- The strategy for each choice of weights (parameter I1): Q-index and Q-flat of R127 speak of `Dist` and so of the
  weights. -/
  quantizer : Weights → Quantizer

/-- FREE VALUE (log entry 1). The byte an ENC or DEC command leaves at an address of OUT whose value depends on an
undefined byte of IN (R42, I4): a function without a body of the command's draw number and the address. -/
opaque Config.freeByte : Nat → Nat → Byte

/-- The strategy the BTC encodes with: the one for its own weights (R6, R126, R127). -/
def Config.strategy (c : Config) : Quantizer := c.quantizer c.weights

/-- FREE VALUE (log entry 5). A channel of a tile-buffer pixel that is made from an undefined byte of IN (R30, R42, I13):
a function without a body of the command's draw number and the channel's place. -/
opaque Config.freeScratch : Nat → Nat → Byte

/-- FREE VALUE (log entry 2). What a host read of OUT returns where no architected value exists (R26, R235, I3):
a function without a body of the read's draw number and the address. -/
opaque Config.freeRead : Nat → Nat → Byte

end Sys2Proof
end

