-- ==== Sys2Proof/Machine/Bytes.lean ====
section
/-! DEFINITION. Byte order and packed fields: every multi-byte field of a block is little-endian (20_memory.md rule
R40, 00_scope.md rule R7), and sixteen fields of one width share a word, pixel `k` at multiple `k` of the width
(30_encoding.md rules R69, R76, R79). -/

namespace Sys2Proof.Machine

open Sys2Proof

/-- `LEn(b0..b(n-1))`: the byte at the lowest address is the least significant (R7, R40). -/
def leNat : List Byte → Nat
  | [] => 0
  | b :: bs => b.toNat + 256 * leNat bs

/-- The `n` bytes of a number, least significant first (R40, R133, R136, R142). -/
def leBytes : Nat → Nat → List Byte
  | 0, _ => []
  | n + 1, v => BitVec.ofNat 8 v :: leBytes n (v / 256)

/-- The sixteen tile indices, ascending (R9: `for k in 0..15`). -/
def tileIndices : List (Fin 16) := List.finRange 16

/-- Field `k` of a word of sixteen fields of `w` bits: the bits `w*k + w - 1 : w*k` (R69, R76, R79). -/
def fieldAt {n : Nat} (w : Nat) (word : BitVec n) (k : Fin 16) : BitVec w :=
  word.extractLsb' (w * k.val) w

/-- The sum over `k` of `f k * (2^w)^k` (R133, R136, R142). -/
def packFields {w : Nat} (f : Fin 16 → BitVec w) : Nat :=
  (tileIndices.map fun k => (f k).toNat * (2 ^ w) ^ k.val).sum

end Sys2Proof.Machine
end

