-- ==== Sys2Proof/Machine/BlockFormat.lean ====
section
/-! DEFINITION. The block formats (30_encoding.md): RGB565, the layouts of the colour block and of the two alpha
blocks, and the palettes their endpoints stand for. -/

namespace Sys2Proof.Machine

open Sys2Proof

/-- `expand5(n) = n*8 + n div 4` (R68). -/
def expand5 (n : Nat) : Nat := n * 8 + n / 4

/-- `expand6(n) = n*4 + n div 16` (R68). -/
def expand6 (n : Nat) : Nat := n * 4 + n / 16

/-- `Unpack565(c)` as an opaque pixel: red in bits 15:11, green in 10:5, blue in 4:0 (R67, R68, R71). -/
def unpack565 (c : Half) : Pixel where
  r := BitVec.ofNat 8 (expand5 (c.extractLsb' 11 5).toNat)
  g := BitVec.ofNat 8 (expand6 (c.extractLsb' 5 6).toNat)
  b := BitVec.ofNat 8 (expand5 (c.extractLsb' 0 5).toNat)
  a := 255

/-- `(u*x + v*y) div d` on two 8-bit values, the truncating interpolation of R71, R72 and R80. -/
def mix (u v d : Nat) (x y : Byte) : Byte :=
  BitVec.ofNat 8 ((u * x.toNat + v * y.toNat) / d)

/-- The interpolation of two colours, channel by channel; the result is opaque (R71, R72). -/
def mixColor (u v d : Nat) (p q : Pixel) : Pixel where
  r := mix u v d p.r q.r
  g := mix u v d p.g q.g
  b := mix u v d p.b q.b
  a := 255

/-- The block is read in 3-colour mode: it is a BC1 block with `c0 ≤ c1` (R70). -/
def threeColor (c0 c1 : Half) (bc1 : Bool) : Bool := bc1 && decide (c0 ≤ c1)

/-- `ColorPalette(c0, c1, bc1)` (R71, R72, R73). -/
def colorPalette (c0 c1 : Half) (bc1 : Bool) : Vector Pixel 4 :=
  let e0 := unpack565 c0
  let e1 := unpack565 c1
  if threeColor c0 c1 bc1 then
    #v[e0, e1, mixColor 1 1 2 e0 e1, { r := 0, g := 0, b := 0, a := 0 }]
  else
    #v[e0, e1, mixColor 2 1 3 e0 e1, mixColor 1 2 3 e0 e1]

/-- The palette entry a 2-bit index names (R69, R74). -/
def colorAt (pal : Vector Pixel 4) (i : BitVec 2) : Pixel := pal[i.toNat]'i.isLt

/-- `AlphaPalette(a0, a1)`: the 8-value mode when `a0 > a1`, else the 6-value mode with 0 and 255 (R80). -/
def alphaPalette (a0 a1 : Byte) : Vector Byte 8 :=
  if a1 < a0 then
    #v[a0, a1, mix 6 1 7 a0 a1, mix 5 2 7 a0 a1, mix 4 3 7 a0 a1, mix 3 4 7 a0 a1, mix 2 5 7 a0 a1, mix 1 6 7 a0 a1]
  else
    #v[a0, a1, mix 4 1 5 a0 a1, mix 3 2 5 a0 a1, mix 2 3 5 a0 a1, mix 1 4 5 a0 a1, 0, 255]

/-- The palette entry a 3-bit index names (R80). -/
def alphaAt (ap : Vector Byte 8) (i : BitVec 3) : Byte := ap[i.toNat]'i.isLt

/-- The fields of a colour block read from its first 8 bytes (R66). -/
def colorBlockOfBytes (bs : List Byte) : ColorBlock where
  c0 := BitVec.ofNat 16 (leNat (bs.take 2))
  c1 := BitVec.ofNat 16 (leNat ((bs.drop 2).take 2))
  cw := BitVec.ofNat 32 (leNat ((bs.drop 4).take 4))

/-- The 8 bytes of a colour block (R66, R133). -/
def colorBlockBytes (b : ColorBlock) : List Byte :=
  leBytes 2 b.c0.toNat ++ leBytes 2 b.c1.toNat ++ leBytes 4 b.cw.toNat

/-- The index of pixel `k`: bits `2k+1 : 2k` of the index word (R69). -/
def colorIndex (b : ColorBlock) (k : Fin 16) : BitVec 2 := fieldAt 2 b.cw k

/-- The alpha word of a BC2 block read from its first 8 bytes (R76). -/
def alpha4OfBytes (bs : List Byte) : BitVec 64 := BitVec.ofNat 64 (leNat (bs.take 8))

/-- The 8 bytes of a BC2 alpha word (R76, R136). -/
def alpha4Bytes (aw : BitVec 64) : List Byte := leBytes 8 aw.toNat

/-- The 4-bit alpha of pixel `k`: bits `4k+3 : 4k` (R76). -/
def alpha4At (aw : BitVec 64) (k : Fin 16) : BitVec 4 := fieldAt 4 aw k

/-- The fields of a BC3 alpha block read from its first 8 bytes (R79). -/
def alphaBlockOfBytes (bs : List Byte) : AlphaBlock where
  a0 := BitVec.ofNat 8 (leNat (bs.take 1))
  a1 := BitVec.ofNat 8 (leNat ((bs.drop 1).take 1))
  iw := BitVec.ofNat 48 (leNat ((bs.drop 2).take 6))

/-- The 8 bytes of a BC3 alpha block (R79, R142). -/
def alphaBlockBytes (b : AlphaBlock) : List Byte :=
  [b.a0, b.a1] ++ leBytes 6 b.iw.toNat

/-- The index of pixel `k`: bits `3k+2 : 3k` of the index word (R79). -/
def alphaIndex (b : AlphaBlock) (k : Fin 16) : BitVec 3 := fieldAt 3 b.iw k

end Sys2Proof.Machine
end

