-- ==== Sys2Proof/Machine/Decoder.lean ====
section
/-! DEFINITION. The block decoder (42_decode.md rules R160 to R166): endpoint extraction, interpolation, index
unpacking. It is total: every bit pattern is a block (30_encoding.md rule R82). -/

namespace Sys2Proof.Machine

open Sys2Proof

/-- The pixel `k` of a colour block: `ColorPalette(c0, c1, bc1)[ci[k]]` (R74). -/
def colorPixel (b : ColorBlock) (bc1 : Bool) (k : Fin 16) : Pixel :=
  colorAt (colorPalette b.c0 b.c1 bc1) (colorIndex b k)

/-- The alpha of pixel `k` of a BC2 alpha word: `17 * a4[k]` (R76). -/
def alpha4Value (aw : BitVec 64) (k : Fin 16) : Byte := BitVec.ofNat 8 (17 * (alpha4At aw k).toNat)

/-- The alpha of pixel `k` of a BC3 alpha block: `ap[ai[k]]` (R80). -/
def alphaValue (b : AlphaBlock) (k : Fin 16) : Byte := alphaAt (alphaPalette b.a0 b.a1) (alphaIndex b k)

/-- `DecBC1` (R161). -/
def decBc1 (bs : List Byte) : Tile :=
  let blk := colorBlockOfBytes bs
  Vector.ofFn fun k => colorPixel blk true k

/-- `DecBC2` (R162): colour from bytes 8..15 in 4-colour mode, alpha from bytes 0..7. -/
def decBc2 (bs : List Byte) : Tile :=
  let blk := colorBlockOfBytes (bs.drop 8)
  let aw := alpha4OfBytes bs
  Vector.ofFn fun k => { colorPixel blk false k with a := alpha4Value aw k }

/-- `DecBC3` (R163): colour from bytes 8..15 in 4-colour mode, alpha from bytes 0..7. -/
def decBc3 (bs : List Byte) : Tile :=
  let blk := colorBlockOfBytes (bs.drop 8)
  let ab := alphaBlockOfBytes bs
  Vector.ofFn fun k => { colorPixel blk false k with a := alphaValue ab k }

/-- `DecBlock(fmt, bytes)` (R166). -/
def decBlock : Format → List Byte → Tile
  | .bc1 => decBc1
  | .bc2 => decBc2
  | .bc3 => decBc3

/-- The bytes of a colour part at offset `o` of its block that pixel `k` is made from: the four endpoint bytes and the
byte of its row (R66, R69). -/
def colorReads (o : Nat) (k : Fin 16) : List Nat := [o, o + 1, o + 2, o + 3, o + 4 + k.val / 4]

/-- The bytes of a block that pixel `k` is made from (R69, R76, R79): the others do not affect it (I4). -/
def pixelReads : Format → Fin 16 → List Nat
  | .bc1, k => colorReads 0 k
  | .bc2, k => k.val / 2 :: colorReads 8 k
  | .bc3, k => [0, 1, 2 + 3 * k.val / 8, 2 + (3 * k.val + 2) / 8] ++ colorReads 8 k

end Sys2Proof.Machine
end

