-- ==== Sys2Proof/Machine/Encoder.lean ====
section
/-! DEFINITION. The block encoder (41_encode.md): quantisation, the error metric, the reference colour and alpha
searches, which are the default strategy, BC2 alpha, and one block. -/

namespace Sys2Proof.Machine

open Sys2Proof

/-- `q5(v) = (v*31 + 127) div 255` (R122). -/
def q5 (v : Byte) : Nat := (v.toNat * 31 + 127) / 255

/-- `q6(v) = (v*63 + 127) div 255` (R122). -/
def q6 (v : Byte) : Nat := (v.toNat * 63 + 127) / 255

/-- `Pack565(R, G, B)` (R123). -/
def pack565 (p : Pixel) : Half := BitVec.ofNat 16 (q5 p.r * 2048 + q6 p.g * 32 + q5 p.b)

/-- A pixel is transparent exactly when its A byte is 0 (R124). -/
def transparent (p : Pixel) : Bool := p.a == 0

/-- `punch`: the format is BC1 and some pixel of the tile is transparent (R124). -/
def punch (P : Tile) (bc1 : Bool) : Bool := bc1 && tileIndices.any fun k => transparent P[k]

/-- The set `O` of pixels that take part in the colour search, ascending (R125). -/
def searchSet (P : Tile) (bc1 : Bool) : List (Fin 16) :=
  if punch P bc1 then tileIndices.filter fun k => !transparent P[k] else tileIndices

/-- The square of the difference of two channel values (R7, R126). -/
def sqDiff (x y : Byte) : Nat := ((x.toNat - y.toNat) + (y.toNat - x.toNat)) ^ 2

/-- `Dist(p, q)`, the weighted squared error; alpha takes no part (R126). -/
def dist (w : Weights) (p q : Pixel) : Nat :=
  w.r * sqDiff p.r q.r + w.g * sqDiff p.g q.g + w.b * sqDiff p.b q.b

/-- The first element of a non-empty list whose cost is least, in the order of the list (R9 `argmin`). -/
def firstLeast {α : Type} (cost : α → Nat) (best : α) : List α → α
  | [] => best
  | x :: xs => if cost x < cost best then firstLeast cost x xs else firstLeast cost best xs

/-- `Orient(e0, e1, punch)` (R129). -/
def orient (e0 e1 : Half) (pun : Bool) : Half × Half :=
  let hi := if e0 ≤ e1 then e1 else e0
  let lo := if e0 ≤ e1 then e0 else e1
  if pun then (lo, hi) else (hi, lo)

/-- The allowed indices after index 0: `{0, 1, 2}` in 3-colour mode, else `{0, 1, 2, 3}` (R130). -/
def laterIndices (c0 c1 : Half) (bc1 : Bool) : List (BitVec 2) :=
  if threeColor c0 c1 bc1 then [1, 2] else [1, 2, 3]

/-- The smallest allowed index whose palette entry is nearest to a pixel (R130). -/
def nearestIndex (w : Weights) (pal : Vector Pixel 4) (later : List (BitVec 2)) (p : Pixel) : BitVec 2 :=
  firstLeast (fun n => dist w p (colorAt pal n)) 0 later

/-- `Fit`, the indices: 3 outside `O`, else the smallest allowed index of least `Dist` (R130). -/
def fitIndex (w : Weights) (P : Tile) (bc1 : Bool) (c0 c1 : Half) (k : Fin 16) : BitVec 2 :=
  if punch P bc1 && transparent P[k] then 3
  else nearestIndex w (colorPalette c0 c1 bc1) (laterIndices c0 c1 bc1) P[k]

/-- A candidate of the colour search with its error (R128). -/
structure ColorFit where
  err : Nat
  block : ColorBlock
deriving DecidableEq, Repr

/-- `PackColorBlock(c0, c1, ci)`, the fields of the packed block (R133). -/
def packColorBlock (c0 c1 : Half) (ci : Fin 16 → BitVec 2) : ColorBlock where
  c0 := c0
  c1 := c1
  cw := BitVec.ofNat 32 (packFields ci)

/-- `Fit(P, c0, c1, bc1)`: the best indices, packed, and their error `E` over `O` (R130, R131). -/
def colorFit (w : Weights) (P : Tile) (bc1 : Bool) (c0 c1 : Half) : ColorFit where
  err := ((searchSet P bc1).map fun k =>
    dist w P[k] (colorAt (colorPalette c0 c1 bc1) (fitIndex w P bc1 c0 c1 k))).sum
  block := packColorBlock c0 c1 (fitIndex w P bc1 c0 c1)

/-- The pairs `(i, j)` with `j ≥ i` of a list of tile indices, in the order of the search (R128). -/
def searchPairs (O : List (Fin 16)) : List (Fin 16 × Fin 16) :=
  O.flatMap fun i => (O.filter fun j => decide (i ≤ j)).map fun j => (i, j)

/-- The candidates of the colour search, in its order (R128). -/
def colorCandidates (w : Weights) (P : Tile) (bc1 : Bool) : List ColorFit :=
  (searchPairs (searchSet P bc1)).map fun ij =>
    let e := orient (pack565 P[ij.1]) (pack565 P[ij.2]) (punch P bc1)
    colorFit w P bc1 e.1 e.2

/-- `EncColorBlock(P, bc1)`, the reference colour search (R128); an empty `O` gives endpoints 0 and every index 3
(R132). -/
def encColorBlock (w : Weights) (P : Tile) (bc1 : Bool) : ColorBlock :=
  match colorCandidates w P bc1 with
  | [] => { c0 := 0, c1 := 0, cw := 0xFFFFFFFF }
  | f :: fs => (firstLeast (·.err) f fs).block

/-- `a4[k] = (A + 8) div 17` (R135). -/
def quantAlpha4 (a : Byte) : BitVec 4 := BitVec.ofNat 4 ((a.toNat + 8) / 17)

/-- `EncAlpha4(P)`, the alpha word (R135, R136). -/
def encAlpha4 (P : Tile) : BitVec 64 := BitVec.ofNat 64 (packFields fun k => quantAlpha4 P[k].a)

/-- The alpha values of a tile (R140). -/
def alphasOf (P : Tile) : Alphas := Vector.ofFn fun k => P[k].a

/-- The index of one alpha: the smallest of the eight whose squared difference is least (R141). -/
def fitAlphaIndex (ap : Vector Byte 8) (a : Byte) : BitVec 3 :=
  firstLeast (fun n => sqDiff a (alphaAt ap n)) 0 [1, 2, 3, 4, 5, 6, 7]

/-- A candidate of the alpha search with its error (R140). -/
structure AlphaFit where
  err : Nat
  block : AlphaBlock
deriving DecidableEq, Repr

/-- `PackAlpha3(a0, a1, ai)`, the fields of the packed block (R142). -/
def packAlphaBlock (a0 a1 : Byte) (ai : Fin 16 → BitVec 3) : AlphaBlock where
  a0 := a0
  a1 := a1
  iw := BitVec.ofNat 48 (packFields ai)

/-- `FitAlpha(A, ap)` for the palette of one ordered pair: the best indices, packed, and their error (R140, R141). -/
def alphaFit (A : Alphas) (a0 a1 : Byte) : AlphaFit where
  err := (tileIndices.map fun k =>
    sqDiff A[k] (alphaAt (alphaPalette a0 a1) (fitAlphaIndex (alphaPalette a0 a1) A[k]))).sum
  block := packAlphaBlock a0 a1 fun k => fitAlphaIndex (alphaPalette a0 a1) A[k]

/-- The 256 candidates of the alpha search: all ordered pairs of the tile's own alphas, in its order (R140). -/
def alphaCandidates (A : Alphas) : List AlphaFit :=
  tileIndices.flatMap fun i => tileIndices.map fun j => alphaFit A A[i] A[j]

/-- `EncAlpha3`, the reference alpha search (R140). The search starts from its first candidate, the pair (0, 0), which
comes by again at the head of the list and changes nothing. -/
def encAlpha3 (A : Alphas) : AlphaBlock :=
  (firstLeast (·.err) (alphaFit A A[0] A[0]) (alphaCandidates A)).block

/-- The reference strategy under given weights (R127, R128, R140). -/
def referenceQuantizer (w : Weights) : Quantizer where
  colorQ := encColorBlock w
  alphaQ := encAlpha3

/-- `EncBlock(fmt, P)`: the 8 or 16 bytes of one block, the alpha part at the lower addresses (R147), chosen by the
strategy of the BTC under its weights (R6). -/
def encBlock (c : Config) (fmt : Format) (P : Tile) : List Byte :=
  match fmt with
  | .bc1 => colorBlockBytes (c.strategy.colorQ P true)
  | .bc2 => alpha4Bytes (encAlpha4 P) ++ colorBlockBytes (c.strategy.colorQ P false)
  | .bc3 => alphaBlockBytes (c.strategy.alphaQ (alphasOf P)) ++ colorBlockBytes (c.strategy.colorQ P false)

/-- The default weights (2, 4, 1) (R6, R126). -/
def defaultWeights : Weights := { r := 2, g := 4, b := 1 }

/-- The parameters the machine `step` runs with: the spec's defaults (R6; log entry 4). -/
def btcConfig : Config where
  lenMax := 2 ^ 32 - 1
  weights := defaultWeights
  quantizer := referenceQuantizer

end Sys2Proof.Machine
end

