-- ==== Sys2Proof/Machine/State.lean ====
section
/-! DEFINITION. The state of the BTC (10_state.md) with the turns of the run it is in (70_reset_and_hazards.md rule
R240), the reasons a step can stop, and the state after reset (10_state.md rule R34). -/

namespace Sys2Proof.Machine

open Sys2Proof

/-- IN or OUT: the defined bytes with their addresses, addresses strictly rising. An address that is not listed is
undefined: it holds no value (R25, R26, R42). -/
abbrev Memory := List Host.Cell

/-- The operand latches (R27). Between commands their contents are open (I13): that they keep what the last command
latched is the model's choice (DESIGN CHOICE, log entry 16). -/
structure Latches where
  cmd : Word
  width : Word
  height : Word
  srcLen : Word
deriving DecidableEq, Repr

/-- The tile buffer (R30): the sixteen pixels worked on, and the block the search settled on. Scratch: no rule reads
it across blocks and no host access shows it. Its contents between blocks and between commands are open (I13); what this
field holds then is the model's choice (DESIGN CHOICE, log entry 5). -/
structure TileBuffer where
  pixels : Tile
  best : List Byte
deriving DecidableEq, Repr

/-- The whole state. The fields from `turns` on are the model's own, not the BTC's. -/
structure State where
  /-- CMD, offset 0x00 (R21, R22). -/
  cmd : Word
  /-- WIDTH, offset 0x04 (R21, R23). -/
  width : Word
  /-- HEIGHT, offset 0x08 (R21, R23). -/
  height : Word
  /-- SRC_LEN, offset 0x0C (R21, R23). -/
  srcLen : Word
  /-- STATUS, offset 0x10: BUSY, DONE, ERR, ECODE (R24). -/
  status : Word
  /-- RESULT, offset 0x14 (R28). -/
  result : Word
  /-- IN, the input memory (R25). -/
  inMem : Memory
  /-- OUT, the output memory (R26). -/
  outMem : Memory
  /-- The operand latches (R27). -/
  lat : Latches
  /-- The block cursor: how many blocks the command has finished (R29). -/
  blk : Nat
  /-- The block numbers the running command has done, rising (R107). -/
  doneBlocks : List Nat
  /-- The tile buffer (R30). -/
  tile : TileBuffer
  /-- The turns still to come, host moves and steps of the BTC (R240); the model's own (log entry 3). -/
  turns : List Turn
  /-- What the host's reads returned, oldest first (R239); the model's own. -/
  reads : List Observed
  /-- The draw counter of the free values; the model's own (log entry 1). -/
  draws : Nat
deriving DecidableEq, Repr

/-- Why the machine stops with a fault. No command ever does (R202): its errors are values in STATUS. -/
inductive Fault where
  /-- Raised by a host write of IN or read of OUT at an address at or above `LEN_MAX`, which does not exist (R25, R26,
  I12). Safe: the model stops where the spec gives no meaning. -/
  | noSuchAddress (a : Nat)
deriving DecidableEq, Repr

/-- Why the machine refuses a step. -/
inductive Refusal where
  /-- Raised by an instruction that has no meaning yet; no arm of this model does. Safe. -/
  | notModelled (mnemonic : String)
  /-- Raised by a register access at another offset, size or alignment than rule R35 allows (I12). Safe: outside the
  spec. -/
  | registerAccess (offset bytes : Nat)
  /-- Raised by a host read of IN (R240, I12). Safe: outside the spec. -/
  | hostReadIn (a : Nat)
  /-- Raised by a host write of OUT (R240, I12). Safe: outside the spec. -/
  | hostWriteOut (a : Nat)
deriving DecidableEq, Repr

/-- The state after reset (R34, R230): the six registers, the latches and the cursor 0, every byte of IN and OUT
undefined. The tile buffer's value is irrelevant (R30); zeros are the model's choice (log entry 5). No turn is
waiting, nothing has been read, no free value has been drawn. -/
def State.reset : State where
  cmd := 0
  width := 0
  height := 0
  srcLen := 0
  status := 0
  result := 0
  inMem := []
  outMem := []
  lat := { cmd := 0, width := 0, height := 0, srcLen := 0 }
  blk := 0
  doneBlocks := []
  tile := { pixels := Vector.ofFn fun _ => { r := 0, g := 0, b := 0, a := 0 }, best := [] }
  turns := []
  reads := []
  draws := 0

end Sys2Proof.Machine
end

