-- ==== Sys2Proof/Machine/Operands.lean ====
section
/-! DEFINITION. The operands of a command and the checks made on them (40_size.md rules R100 to R102), and the block
grid (20_memory.md rule R47). -/

namespace Sys2Proof.Machine

open Sys2Proof

/-- `ceil4(n) = (n + 3) div 4` (R7, R47, R100). -/
def ceil4 (n : Nat) : Nat := (n + 3) / 4

/-- Bytes per block (R100). -/
def bpb : Format → Nat
  | .bc1 => 8
  | .bc2 => 16
  | .bc3 => 16

/-- The block count `N = BW * BH` (R47, R100). -/
def blockCount (w h : Nat) : Nat := ceil4 w * ceil4 h

/-- The compressed size `CSize` (R100), exact. -/
def cSize (fmt : Format) (w h : Nat) : Nat := blockCount w h * bpb fmt

/-- The pixel size `PSize` (R100), exact. -/
def pSize (w h : Nat) : Nat := w * h * 4

/-- `W`, the latched width as a two's-complement number (R63, R101). -/
def Latches.signedWidth (l : Latches) : Int := l.width.toInt

/-- `H`, the latched height as a two's-complement number (R63, R101). -/
def Latches.signedHeight (l : Latches) : Int := l.height.toInt

/-- `W` as a count of pixels; used only where `W` is not negative (R102). -/
def Latches.imageWidth (l : Latches) : Nat := l.signedWidth.toNat

/-- `H` as a count of pixels; used only where `H` is not negative (R102). -/
def Latches.imageHeight (l : Latches) : Nat := l.signedHeight.toNat

/-- `L`, the latched length, unsigned (R63, R101). -/
def Latches.length (l : Latches) : Nat := l.srcLen.toNat

/-- The block count of the running command (R47). -/
def Latches.blocks (l : Latches) : Nat := blockCount l.imageWidth l.imageHeight

/-- Check 3: a negative dimension, or a size the command needs that exceeds `LEN_MAX` (R102). -/
def badDimensions (c : Config) (op : Operation) (fmt : Format) (l : Latches) : Bool :=
  decide (l.signedWidth < 0) || decide (l.signedHeight < 0)
    || decide (c.lenMax < cSize fmt l.imageWidth l.imageHeight)
    || (decide (op ≠ .size) && decide (c.lenMax < pSize l.imageWidth l.imageHeight))

/-- Checks 3 and 4 of a command, the first that fails (R102, R205). Checks 1 and 2 are the decoder's: a word that
decodes passes them. -/
def checkOperands (c : Config) (op : Operation) (fmt : Format) (l : Latches) : Option ErrorCode :=
  if badDimensions c op fmt l then some .eDim
  else
    match op with
    | .size => none
    | .enc => if l.length = pSize l.imageWidth l.imageHeight then none else some .ePixlen
    | .dec => if l.length = cSize fmt l.imageWidth l.imageHeight then none else some .eDatalen

end Sys2Proof.Machine
end

