-- ==== Sys2Proof/Machine/Flags.lean ====
section
/-! DEFINITION. The STATUS register (10_state.md rule R24) and the error codes (60_exceptions.md rule R200). -/

namespace Sys2Proof.Machine

open Sys2Proof

/-- The number of an error cause in ECODE (R200). -/
def ecodeOf : ErrorCode → Byte
  | .eOp => 1
  | .eFormat => 2
  | .eDim => 3
  | .ePixlen => 4
  | .eDatalen => 5

/-- A STATUS word from its fields: BUSY bit 0, DONE bit 1, ERR bit 2, ECODE bits 15:8, all other bits 0 (R24). -/
def statusWord (busy done err : Bool) (ecode : Byte) : Word :=
  0#16 ++ ecode ++ 0#5 ++ BitVec.ofBool err ++ BitVec.ofBool done ++ BitVec.ofBool busy

/-- STATUS of an idle BTC after reset (R24, R34). -/
def statusIdle : Word := statusWord false false false 0

/-- STATUS from the start of a command until its end (R22, R24). -/
def statusBusy : Word := statusWord true false false 0

/-- STATUS after a successful end (R203). -/
def statusDone : Word := statusWord false true false 0

/-- STATUS after an error end (R204). -/
def statusError (e : ErrorCode) : Word := statusWord false true true (ecodeOf e)

/-- STATUS.BUSY (R24). -/
def State.busy (s : State) : Bool := s.status.getLsbD 0

/-- STATUS.DONE (R24). -/
def State.done (s : State) : Bool := s.status.getLsbD 1

/-- STATUS.ERR (R24). -/
def State.err (s : State) : Bool := s.status.getLsbD 2

/-- STATUS.ECODE (R24). -/
def State.ecode (s : State) : Byte := s.status.extractLsb' 8 8

end Sys2Proof.Machine
end

