-- ==== Sys2Proof/Machine/Ops.lean ====
section
/-! DEFINITION. The named operations over memories and registers: reading and writing a byte memory (10_state.md rules
R25, R26, 20_memory.md rules R42, R51), starting a command (10_state.md rule R22), its successful end
(60_exceptions.md rule R203), its error end (60_exceptions.md rule R204, which stands where a processor takes an
exception; the return from it is starting the next command, rule R209), and reset (70_reset_and_hazards.md rule R230). -/

namespace Sys2Proof.Machine

open Sys2Proof

/-- The byte at an address, or none where it is undefined (R42). -/
def Memory.read (a : Nat) : Memory → Option Byte
  | [] => none
  | (x, b) :: m => if x = a then some b else Memory.read a m

/-- A write of one byte: the byte becomes defined with the value (R25, R51). -/
def Memory.write (a : Nat) (v : Byte) : Memory → Memory
  | [] => [(a, v)]
  | (x, b) :: m =>
    if a < x then (a, v) :: (x, b) :: m
    else if a = x then (a, v) :: m
    else (x, b) :: Memory.write a v m

/-- Writes in the order listed. -/
def Memory.writeAll (m : Memory) (cells : List Host.Cell) : Memory :=
  cells.foldl (fun m c => Memory.write c.1 c.2 m) m

/-- The canonical form: addresses strictly rising. An unlisted address holds no value, so no listed byte equals what
an unlisted one reads as. -/
def Memory.wf : Memory → Bool
  | [] => true
  | [_] => true
  | (x, _) :: (y, b) :: m => decide (x < y) && Memory.wf ((y, b) :: m)

/-- Bytes at consecutive addresses, lowest first (R9 `MemWrite`). -/
def cellsAt (a : Nat) : List Byte → List Host.Cell
  | [] => []
  | b :: bs => (a, b) :: cellsAt (a + 1) bs

/-- The start action of a write of `v` to CMD (R22), one indivisible action: the operands are latched (R27), BUSY is
set and the other fields of STATUS cleared, RESULT is 0, every byte of OUT becomes undefined and the cursor is 0. It
is also the "return" from an error end (R209). The draw counter moves on, so that no two commands share a free
value (log entry 1). -/
def startCommand (v : Word) (s : State) : State :=
  { s with
    cmd := v
    lat := { cmd := v, width := s.width, height := s.height, srcLen := s.srcLen }
    status := statusBusy
    result := 0
    outMem := []
    blk := 0
    doneBlocks := []
    draws := s.draws + 1 }

/-- The successful end of a command (R203): RESULT, and BUSY 0, DONE 1, ERR 0, ECODE 0. The set of done blocks exists
only while a command runs (R107). What the latches, the tile buffer and the cursor hold from here to the next start is
open (R27, R30, I13); that they keep what they held is the model's choice (DESIGN CHOICE, log entries 16, 5 and 7). -/
def finish (result : Nat) (s : State) : State :=
  { s with status := statusDone, result := BitVec.ofNat 32 result, doneBlocks := [] }

/-- The error end `raise E_x` (R204): RESULT 0, BUSY 0, DONE 1, ERR 1, ECODE the code of the cause; OUT stays as the
start of the command left it; no operand register and no byte of IN changes. That the latches, the tile buffer and the
cursor keep what they held until the next start (R27, R30, I13) is the model's choice (DESIGN CHOICE, log entries 16, 5
and 7). -/
def raiseError (e : ErrorCode) (s : State) : State :=
  { s with status := statusError e, result := 0, doneBlocks := [] }

/-- Reset (R230, R231): every piece of state of the BTC takes its reset value, a running command is abandoned. The run's
remaining turns, what was read and the draw counter are not the BTC's and stay. -/
def resetBtc (s : State) : State :=
  { State.reset with turns := s.turns, reads := s.reads, draws := s.draws }

/-- The value of a register (R21, R35). -/
def readRegister (r : Reg) (s : State) : Word :=
  match r with
  | .cmd => s.cmd
  | .width => s.width
  | .height => s.height
  | .srcLen => s.srcLen
  | .status => s.status
  | .result => s.result

/-- A host write of a register (R240): ignored while BUSY (R234); of STATUS and RESULT always ignored (R24, R28, R35);
of CMD it starts a command (R22); of WIDTH, HEIGHT and SRC_LEN it replaces the value (R23). -/
def writeRegister (r : Reg) (v : Word) (s : State) : State :=
  if s.busy then s
  else
    match r with
    | .cmd => startCommand v s
    | .width => { s with width := v }
    | .height => { s with height := v }
    | .srcLen => { s with srcLen := v }
    | .status => s
    | .result => s

/-- A host write of a byte of IN: ignored while BUSY (R25, R234). -/
def writeInput (a : Nat) (b : Byte) (s : State) : State :=
  if s.busy then s else { s with inMem := Memory.write a b s.inMem }

/-- A read returns a value to the host (R239). -/
def observe (o : Observed) (s : State) : State :=
  { s with reads := s.reads ++ [o] }

/-- The byte of OUT a host read has an architected value for: BUSY is 0 and the byte is defined (R26, R235, R240). -/
def outputByte (a : Nat) (s : State) : Option Byte :=
  if s.busy then none else Memory.read a s.outMem

/-- A host read of a byte of OUT (R240). Where the byte has no architected value the read returns a free value (I3, log
entry 2), and the draw counter moves on. -/
def readOutput (a : Nat) (s : State) : State :=
  match outputByte a s with
  | some b => observe (.byte b) s
  | none => { observe (.byte (Config.freeRead s.draws a)) s with draws := s.draws + 1 }

end Sys2Proof.Machine
end

