-- ==== Sys2Proof/Machine/Blocks.lean ====
section
/-! DEFINITION. The work on one block of a running command: gathering a tile with edge clamping and writing its block
(20_memory.md rules R45, R46, R49; 40_size.md rule R105), reading a block and scattering its tile with clipping
(20_memory.md rules R49, R50; 40_size.md rule R106), and the block steps (40_size.md rule R107). -/

namespace Sys2Proof.Machine

open Sys2Proof

/-- The four bytes of a pixel, in the order R, G, B, A (R44). -/
def pixelBytes (p : Pixel) : List Byte := [p.r, p.g, p.b, p.a]

/-- The pixel at an address, where its four bytes are defined (R42, R44). -/
def readPixel (a : Nat) (m : Memory) : Option Pixel :=
  match Memory.read a m, Memory.read (a + 1) m, Memory.read (a + 2) m, Memory.read (a + 3) m with
  | some r, some g, some b, some al => some { r := r, g := g, b := b, a := al }
  | _, _, _, _ => none

/-- The address of pixel `(x, y)` of an image of width `w` (R44). -/
def pixelAddr (w x y : Nat) : Nat := 4 * (y * w + x)

/-- The image column of tile pixel `k` of block `n` (R47, R50). -/
def blockX (l : Latches) (n : Nat) (k : Fin 16) : Nat := 4 * (n % ceil4 l.imageWidth) + k.val % 4

/-- The image row of tile pixel `k` of block `n` (R47, R50). -/
def blockY (l : Latches) (n : Nat) (k : Fin 16) : Nat := 4 * (n / ceil4 l.imageWidth) + k.val / 4

/-- The address of tile pixel `k` of block `n` in a PixelBuffer, each coordinate clamped to the image (R45, R46). -/
def clampedAddr (l : Latches) (n : Nat) (k : Fin 16) : Nat :=
  pixelAddr l.imageWidth (min (blockX l n k) (l.imageWidth - 1)) (min (blockY l n k) (l.imageHeight - 1))

/-- `Tile(n)` (R46, R105), where every byte it is made from is defined (R42). -/
def gatherTile (l : Latches) (m : Memory) (n : Nat) : Option Tile :=
  let pixel := fun k => readPixel (clampedAddr l n k) m
  if tileIndices.all fun k => (pixel k).isSome then
    some (Vector.ofFn fun k => (pixel k).getD { r := 0, g := 0, b := 0, a := 0 })
  else none

/-- Free bytes for `len` addresses from `a` on (log entry 1). -/
def freeBytes (draw a len : Nat) : List Byte :=
  (List.range len).map fun i => Config.freeByte draw (a + i)

/-- A tile-buffer pixel made from an undefined byte: free channels (R30, R42, I13; DESIGN CHOICE, log entry 5). -/
def freePixel (draw n : Nat) (k : Fin 16) : Pixel :=
  let channel := fun i => Config.freeScratch draw (4 * (16 * n + k.val) + i)
  { r := channel 0, g := channel 1, b := channel 2, a := channel 3 }

/-- What ENC leaves in the tile buffer for block `n` (R30): each gathered pixel, free where it has an undefined byte (log
entry 5). -/
def encScratch (s : State) (n : Nat) : Tile :=
  Vector.ofFn fun k => (readPixel (clampedAddr s.lat n k) s.inMem).getD (freePixel s.draws n k)

/-- The bytes ENC writes for block `n`: `EncBlock(fmt, Tile(n))` (R105), or free bytes when the tile holds an undefined
byte (R42, I4). -/
def encBytes (c : Config) (fmt : Format) (s : State) (n : Nat) : List Byte :=
  match gatherTile s.lat s.inMem n with
  | some P => encBlock c fmt P
  | none => freeBytes s.draws (n * bpb fmt) (bpb fmt)

/-- The cells of OUT that ENC writes for block `n` (R49). -/
def encCells (c : Config) (fmt : Format) (s : State) (n : Nat) : List Host.Cell :=
  cellsAt (n * bpb fmt) (encBytes c fmt s n)

/-- The bytes of block `n` of IN (R49). An undefined byte is given as 0; only pixels that are not made from it use the
result (`pixelDefined`). -/
def blockIn (fmt : Format) (m : Memory) (n : Nat) : List Byte :=
  (List.range (bpb fmt)).map fun i => (Memory.read (n * bpb fmt + i) m).getD 0

/-- Every byte that pixel `k` of block `n` is made from is defined (R42, I4). -/
def pixelDefined (fmt : Format) (m : Memory) (n : Nat) (k : Fin 16) : Bool :=
  (pixelReads fmt k).all fun i => (Memory.read (n * bpb fmt + i) m).isSome

/-- What DEC leaves in the tile buffer for block `n` (R30): each decoded pixel, clipped ones included, free where it is
made from an undefined byte (log entry 5). -/
def decScratch (fmt : Format) (s : State) (n : Nat) : Tile :=
  let Q := decBlock fmt (blockIn fmt s.inMem n)
  Vector.ofFn fun k => if pixelDefined fmt s.inMem n k then Q[k] else freePixel s.draws n k

/-- The address of pixel `k` of block `n` in the decoded image, or none where it is clipped (R50). -/
def scatterAddr (l : Latches) (n : Nat) (k : Fin 16) : Option Nat :=
  if blockX l n k < l.imageWidth ∧ blockY l n k < l.imageHeight then
    some (pixelAddr l.imageWidth (blockX l n k) (blockY l n k))
  else none

/-- The cells of OUT that DEC writes for block `n`: its pixels inside the image (R50, R106), free bytes for a pixel made
from an undefined byte (R42, I4). -/
def decCells (fmt : Format) (s : State) (n : Nat) : List Host.Cell :=
  let Q := decBlock fmt (blockIn fmt s.inMem n)
  tileIndices.flatMap fun k =>
    match scatterAddr s.lat n k with
    | none => []
    | some a => cellsAt a (if pixelDefined fmt s.inMem n k then pixelBytes Q[k] else freeBytes s.draws a 4)

/-- A block number joins the set of done blocks, kept rising (R107). -/
def insertBlock (n : Nat) : List Nat → List Nat
  | [] => [n]
  | m :: ms => if n < m then n :: m :: ms else if n = m then m :: ms else m :: insertBlock n ms

/-- The work on block `n` is finished: its cells are in OUT and the cursor counts it (R29, R107). -/
def advance (n : Nat) (cells : List Host.Cell) (tile : TileBuffer) (s : State) : State :=
  { s with
    outMem := Memory.writeAll s.outMem cells
    blk := s.blk + 1
    doneBlocks := insertBlock n s.doneBlocks
    tile := tile }

/-- The body of rule R105 for block `n`. What it leaves in the tile buffer, the tile and the block the search settled
on, is the model's choice (I13; DESIGN CHOICE, log entry 5). -/
def encOne (c : Config) (fmt : Format) (s : State) (n : Nat) : State :=
  advance n (encCells c fmt s n)
    { pixels := encScratch s n, best := encBytes c fmt s n } s

/-- The body of rule R106 for block `n`. What it leaves in the tile buffer is the model's choice (I13; DESIGN CHOICE, log
entry 5): the decoded pixels, free where an input byte is undefined, and the `best` an earlier ENC left. -/
def decOne (fmt : Format) (s : State) (n : Nat) : State :=
  advance n (decCells fmt s n) { s.tile with pixels := decScratch fmt s n } s

/-- The block numbers not done yet, in the reference order (R107). -/
def remaining (s : State) : List Nat :=
  (List.range s.lat.blocks).filter fun n => !s.doneBlocks.contains n

/-- Every remaining block in the reference order (R103, R107). -/
def runBlocks (body : State → Nat → State) (s : State) : State :=
  (remaining s).foldl body s

/-- One block step: block `n` is done if it is a block of the command and not done yet, and the command ends with
success once the cursor is at the block count (R107). A number that cannot be picked does nothing. -/
def blockStep (body : State → Nat → State) (result n : Nat) (s : State) : State :=
  let t := if n < s.lat.blocks ∧ n ∉ s.doneBlocks then body s n else s
  if t.lat.blocks ≤ t.blk then finish result t else t

end Sys2Proof.Machine
end

