-- ==== Sys2Proof/Machine/Commands.lean ====
section
/-! DEFINITION. The execution of a started command, shared by the nine commands (40_size.md rules R103 to R107): the
checks, the body, the end. -/

namespace Sys2Proof.Machine

open Sys2Proof

/-- The checks, and the rest of the command only if they pass (R102, R103, R202, R204). -/
def checked (c : Config) (op : Operation) (fmt : Format) (body : State → State) (s : State) : State :=
  match checkOperands c op fmt s.lat with
  | some e => raiseError e s
  | none => body s

/-- The RESULT of a command that passes its checks: the compressed size for SIZE and ENC, the pixel size for DEC (R28,
R103). -/
def resultOf (op : Operation) (fmt : Format) (l : Latches) : Nat :=
  match op with
  | .size => cSize fmt l.imageWidth l.imageHeight
  | .enc => cSize fmt l.imageWidth l.imageHeight
  | .dec => pSize l.imageWidth l.imageHeight

/-- SIZE (R104): neither IN nor OUT is touched. -/
def sizeCommand (c : Config) (fmt : Format) (s : State) : State :=
  checked c .size fmt (fun s => finish (resultOf .size fmt s.lat) s) s

/-- ENC (R105): every block, then the successful end. -/
def encCommand (c : Config) (fmt : Format) (s : State) : State :=
  checked c .enc fmt (fun s => finish (resultOf .enc fmt s.lat) (runBlocks (encOne c fmt) s)) s

/-- DEC (R106): every block, then the successful end. -/
def decCommand (c : Config) (fmt : Format) (s : State) : State :=
  checked c .dec fmt (fun s => finish (resultOf .dec fmt s.lat) (runBlocks (decOne fmt) s)) s

/-- The command of any word under any parameters (R103): what the nine meanings are at the parameters of the BTC. -/
def command (c : Config) (i : Instr) (s : State) : State :=
  match i.op with
  | .size => sizeCommand c i.format s
  | .enc => encCommand c i.format s
  | .dec => decCommand c i.format s

/-- ENC one block at a time (R107). -/
def encBlockStep (c : Config) (fmt : Format) (n : Nat) (s : State) : State :=
  checked c .enc fmt (fun s => blockStep (encOne c fmt) (resultOf .enc fmt s.lat) n s) s

/-- DEC one block at a time (R107). -/
def decBlockStep (c : Config) (fmt : Format) (n : Nat) (s : State) : State :=
  checked c .dec fmt (fun s => blockStep (decOne fmt) (resultOf .dec fmt s.lat) n s) s

end Sys2Proof.Machine
end

