-- ==== Sys2Proof/Machine/Dec.lean ====
section
/-! DEFINITION. The three DEC commands (42_decode.md rules R180 to R182): what the BTC does with a started command. -/

namespace Sys2Proof.Machine

open Sys2Proof

/-- `DEC.BC1` (R180). -/
def execDecBc1 (s : State) : Host.Outcome State Fault Refusal :=
  .next (decCommand btcConfig .bc1 s)

/-- `DEC.BC2` (R181). -/
def execDecBc2 (s : State) : Host.Outcome State Fault Refusal :=
  .next (decCommand btcConfig .bc2 s)

/-- `DEC.BC3` (R182). -/
def execDecBc3 (s : State) : Host.Outcome State Fault Refusal :=
  .next (decCommand btcConfig .bc3 s)

end Sys2Proof.Machine
end

