-- ==== Sys2Proof/Machine/Enc.lean ====
section
/-! DEFINITION. The three ENC commands (41_encode.md rules R150 to R152): what the BTC does with a started command. -/

namespace Sys2Proof.Machine

open Sys2Proof

/-- `ENC.BC1` (R150). -/
def execEncBc1 (s : State) : Host.Outcome State Fault Refusal :=
  .next (encCommand btcConfig .bc1 s)

/-- `ENC.BC2` (R151). -/
def execEncBc2 (s : State) : Host.Outcome State Fault Refusal :=
  .next (encCommand btcConfig .bc2 s)

/-- `ENC.BC3` (R152). -/
def execEncBc3 (s : State) : Host.Outcome State Fault Refusal :=
  .next (encCommand btcConfig .bc3 s)

end Sys2Proof.Machine
end

