-- ==== Sys2Proof/Machine/Size.lean ====
section
/-! DEFINITION. The three SIZE commands (40_size.md rules R110 to R112): what the BTC does with a started command. -/

namespace Sys2Proof.Machine

open Sys2Proof

/-- `SIZE.BC1` (R110). -/
def execSizeBc1 (s : State) : Host.Outcome State Fault Refusal :=
  .next (sizeCommand btcConfig .bc1 s)

/-- `SIZE.BC2` (R111). -/
def execSizeBc2 (s : State) : Host.Outcome State Fault Refusal :=
  .next (sizeCommand btcConfig .bc2 s)

/-- `SIZE.BC3` (R112). -/
def execSizeBc3 (s : State) : Host.Outcome State Fault Refusal :=
  .next (sizeCommand btcConfig .bc3 s)

end Sys2Proof.Machine
end

