-- ==== Sys2Proof/Machine/Dispatch.lean ====
section
/-! DEFINITION. The dispatch: one arm per command of the opcode table (30_encoding.md rules R62, R85). -/

namespace Sys2Proof.Machine

open Sys2Proof

def exec (i : Instr) (s : State) : Host.Outcome State Fault Refusal :=
  match i with
  | .sizeBc1 => Sys2Proof.Machine.execSizeBc1 s
  | .sizeBc2 => Sys2Proof.Machine.execSizeBc2 s
  | .sizeBc3 => Sys2Proof.Machine.execSizeBc3 s
  | .encBc1 => Sys2Proof.Machine.execEncBc1 s
  | .encBc2 => Sys2Proof.Machine.execEncBc2 s
  | .encBc3 => Sys2Proof.Machine.execEncBc3 s
  | .decBc1 => Sys2Proof.Machine.execDecBc1 s
  | .decBc2 => Sys2Proof.Machine.execDecBc2 s
  | .decBc3 => Sys2Proof.Machine.execDecBc3 s

end Sys2Proof.Machine
end

