-- ==== Sys2Proof/Machine/Run.lean ====
section
/-! DEFINITION. The turns of a run: the host's moves and the BTC's own step (70_reset_and_hazards.md rules R234, R235,
R240; 40_size.md rules R103, R107). -/

namespace Sys2Proof.Machine

open Sys2Proof

/-- A move of the host (R240). The accesses no host interface offers are refused by name, and an address at or above
`LEN_MAX` does not exist (I12). -/
def hostMove (c : Config) (m : HostMove) (s : State) : Host.Outcome State Fault Refusal :=
  match m with
  | .writeReg offset bytes v =>
    match Reg.ofAccess offset bytes with
    | some r => .next (writeRegister r v s)
    | none => .refused (.registerAccess offset bytes)
  | .readReg offset bytes =>
    match Reg.ofAccess offset bytes with
    | some r => .next (observe (.word (readRegister r s)) s)
    | none => .refused (.registerAccess offset bytes)
  | .writeIn a b => if a < c.lenMax then .next (writeInput a b s) else .fault (.noSuchAddress a)
  | .readOut a => if a < c.lenMax then .next (readOutput a s) else .fault (.noSuchAddress a)
  | .reset => .next (resetBtc s)
  | .readIn a => .refused (.hostReadIn a)
  | .writeOut a _ => .refused (.hostWriteOut a)

/-- What runs a decoded command: `exec` for the machine of this model, `command c` for one with parameters `c`. -/
abbrev Runner := Instr → State → Host.Outcome State Fault Refusal

/-- The BTC's own step as one step (R103, R108): the latched command word decodes to a command, which runs to its end,
or the command ends with the error of check 1 or 2 (R102). -/
def runCommand (run : Runner) (s : State) : Host.Outcome State Fault Refusal :=
  match decode s.lat.cmd with
  | .error e => .next (raiseError e s)
  | .ok i => run i s

/-- The BTC's own step on one block (R107): ENC and DEC take block `n`; any other word has no blocks and runs to its
end. -/
def runBlock (c : Config) (run : Runner) (n : Nat) (s : State) : Host.Outcome State Fault Refusal :=
  match decode s.lat.cmd with
  | .error e => .next (raiseError e s)
  | .ok i =>
    match i.op with
    | .size => run i s
    | .enc => .next (encBlockStep c i.format n s)
    | .dec => .next (decBlockStep c i.format n s)

/-- One turn (R240). The BTC's own step is allowed only while BUSY; an idle BTC waits (R214). -/
def takeTurn (c : Config) (run : Runner) (t : Turn) (s : State) : Host.Outcome State Fault Refusal :=
  match t with
  | .host m => hostMove c m s
  | .btcBlock n => if s.busy then runBlock c run n s else .next s
  | .btcRun => if s.busy then runCommand run s else .next s

/-- The next turn of the run, or, when none is waiting, the BTC's own step while BUSY and nothing while idle (R214,
R238, R240). -/
def nextTurn (c : Config) (run : Runner) (s : State) : Host.Outcome State Fault Refusal :=
  match s.turns with
  | [] => takeTurn c run .btcRun s
  | t :: ts => takeTurn c run t { s with turns := ts }

/-- One step of a BTC with any parameters (R6, R20: they are arguments of the model). -/
def stepWith (c : Config) (s : State) : Host.Outcome State Fault Refusal :=
  nextTurn c (fun i s => .next (command c i s)) s

end Sys2Proof.Machine
end

