-- ==== Sys2Proof/Machine/Step.lean ====
section
/-! DEFINITION. The step, and placing a command where the step takes its next one: the BTC fetches nothing, a command
is the value written to CMD (20_memory.md rule R57, 10_state.md rule R22; log entry 6). -/

namespace Sys2Proof.Machine

open Sys2Proof

/-- One step of the machine: one turn of the run, under the default parameters (log entry 4). -/
def step (s : State) : Host.Outcome State Fault Refusal :=
  nextTurn btcConfig exec s

/-- The state in which the next step runs the command of word `w`: the start action of a write of that word to CMD has
just happened (R22) and no host move comes before the BTC's own step. -/
def State.withFetchWord (s : State) (nbits w : Nat) : State :=
  startCommand (BitVec.ofNat 32 (w % 2 ^ nbits)) { s with turns := [] }

end Sys2Proof.Machine
end

