-- ==== Sys2Proof/WellFormed.lean ====
section
/-! DEFINITION. The checks on what is written down: parameters (00_scope.md rule R6), command words (30_encoding.md rule
R64), commands, and host moves (10_state.md rule R35, 93_implementation_defined.md entry I12). -/

namespace Sys2Proof

/-- The weights are positive and `W_G` is the largest, strictly (R6, R126; log entry 9). -/
def Weights.wellFormed (w : Weights) : Bool :=
  decide (0 < w.r) && decide (0 < w.b) && decide (w.r < w.g) && decide (w.b < w.g)

/-- `LEN_MAX` is in 16..2^32-1 (R6) and the weights are legal. That the strategy meets the contract of R127
under these weights is a proposition over all tiles, `LegalConfig`, not a check. -/
def Config.wellFormed (c : Config) : Bool :=
  decide (16 ≤ c.lenMax) && decide (c.lenMax < 2 ^ 32) && c.weights.wellFormed

/-- A command word is legal when ZERO is 0, OP is 2, 3 or 4 and FMT is 0, 1 or 2 (R64). -/
def CommandWord.wellFormed (f : CommandWord) : Bool :=
  decide (f.zero = 0) && (operationOf f.op).isSome && (formatOf f.fmt).isSome

/-- A command is well formed when its word is legal: no command has an operand in the word, so all nine are. -/
def Instr.wellFormed (i : Instr) : Bool :=
  (encodeFields i).wellFormed

/-- The moves the host interface offers (R35, R240): the six registers by aligned 32-bit accesses, IN written and OUT
read below `LEN_MAX`, and reset. -/
def HostMove.wellFormed (c : Config) : HostMove → Bool
  | .writeReg offset bytes _ => (Reg.ofAccess offset bytes).isSome
  | .readReg offset bytes => (Reg.ofAccess offset bytes).isSome
  | .writeIn a _ => decide (a < c.lenMax)
  | .readOut a => decide (a < c.lenMax)
  | .reset => true
  | .readIn _ => false
  | .writeOut _ _ => false

end Sys2Proof
end

