-- ==== Sys2Proof/Machine/Contract.lean ====
section
/-! DEFINITION. The quantiser contract (41_encode.md rule R127): what the machine may assume of an endpoint-selection
strategy. `Q-det` needs no clause: a strategy is a function of its arguments. -/

namespace Sys2Proof.Machine

open Sys2Proof

/-- `ColErr(B, P)`: the error of a colour block on the pixels of `O`, against the decoded colours (R126). -/
def colErr (w : Weights) (B : ColorBlock) (P : Tile) (bc1 : Bool) : Nat :=
  ((searchSet P bc1).map fun k => dist w P[k] (colorPixel B bc1 k)).sum

/-- `AlphaErr` of a BC3 alpha block on sixteen alphas (R127, R141). -/
def alphaErr (B : AlphaBlock) (A : Alphas) : Nat :=
  (tileIndices.map fun k => sqDiff A[k] (alphaValue B k)).sum

/-- The flat block `F_i`: `c0 = c1 = Pack565(P[i])` with best indices (R127). -/
def flatColor (w : Weights) (P : Tile) (bc1 : Bool) (i : Fin 16) : ColorBlock :=
  (colorFit w P bc1 (pack565 P[i]) (pack565 P[i])).block

/-- The flat alpha block: `a0 = a1 = A[i]` with best indices (R127). -/
def flatAlpha (A : Alphas) (i : Fin 16) : AlphaBlock := (alphaFit A A[i] A[i]).block

/-- Q-mode (R127): a tile with a transparent pixel gets `c0 ≤ c1` and index 3 exactly at its transparent pixels; in a tile
without one no pixel decodes as transparent. -/
def QMode (q : Quantizer) : Prop :=
  ∀ P : Tile,
    (punch P true = true →
      (q.colorQ P true).c0 ≤ (q.colorQ P true).c1 ∧
        ∀ k : Fin 16, colorIndex (q.colorQ P true) k = 3 ↔ transparent P[k] = true) ∧
    (punch P true = false →
      (q.colorQ P true).c1 < (q.colorQ P true).c0 ∨ ∀ k : Fin 16, colorIndex (q.colorQ P true) k ≠ 3)

/-- Q-index for colour (R127): the index of every pixel of `O` minimises `Dist` among the indices the mode allows. -/
def QIndexColor (w : Weights) (q : Quantizer) : Prop :=
  ∀ (P : Tile) (bc1 : Bool) (k : Fin 16) (n : BitVec 2), k ∈ searchSet P bc1 →
    (threeColor (q.colorQ P bc1).c0 (q.colorQ P bc1).c1 bc1 = true → n ≠ 3) →
    dist w P[k] (colorPixel (q.colorQ P bc1) bc1 k) ≤
      dist w P[k] (colorAt (colorPalette (q.colorQ P bc1).c0 (q.colorQ P bc1).c1 bc1) n)

/-- Q-index for alpha (R127): every index minimises the squared difference among all eight. -/
def QIndexAlpha (q : Quantizer) : Prop :=
  ∀ (A : Alphas) (k : Fin 16) (n : BitVec 3),
    sqDiff A[k] (alphaValue (q.alphaQ A) k) ≤
      sqDiff A[k] (alphaAt (alphaPalette (q.alphaQ A).a0 (q.alphaQ A).a1) n)

/-- Q-flat for colour (R127): never worse than painting the tile with one of its own pixels. -/
def QFlatColor (w : Weights) (q : Quantizer) : Prop :=
  ∀ (P : Tile) (bc1 : Bool) (i : Fin 16), i ∈ searchSet P bc1 →
    colErr w (q.colorQ P bc1) P bc1 ≤ colErr w (flatColor w P bc1 i) P bc1

/-- Q-flat for alpha (R127). -/
def QFlatAlpha (q : Quantizer) : Prop :=
  ∀ (A : Alphas) (i : Fin 16), alphaErr (q.alphaQ A) A ≤ alphaErr (flatAlpha A i) A

/-- The contract of R127 under given weights. -/
structure QuantizerContract (w : Weights) (q : Quantizer) : Prop where
  mode : QMode q
  indexColor : QIndexColor w q
  indexAlpha : QIndexAlpha q
  flatColor : QFlatColor w q
  flatAlpha : QFlatAlpha q

/-- The parameters R6 allows: `LEN_MAX` and the weights in their ranges, and a strategy that meets the contract of R127
under these weights. -/
structure LegalConfig (c : Config) : Prop where
  wellFormed : c.wellFormed = true
  contract : QuantizerContract c.weights c.strategy

end Sys2Proof.Machine
end

