-- ==== Sys2Proof/Safety.lean ====
section
/-! DEFINITION. What counts as a good state of the BTC, in the terms the statements use: the legal STATUS words
(10_state.md rule R24), canonical memories within `LEN_MAX`, what the registers and latches owe each other while a
command runs, and which bytes of OUT are defined (10_state.md rule R26, 60_exceptions.md rules R203, R204). -/

namespace Sys2Proof.Machine

open Sys2Proof

/-- The legal STATUS words (R24): the four combinations of (BUSY, DONE, ERR), ECODE not 0 exactly when ERR, a code of
R200, and the reserved bits 0. -/
def State.StatusLegal (s : State) : Prop :=
  (s.busy, s.done, s.err) ∈
      [(false, false, false), (true, false, false), (false, true, false), (false, true, true)] ∧
    (s.ecode ≠ 0 ↔ s.err = true) ∧ s.ecode.toNat ≤ 5 ∧
    s.status.extractLsb' 3 5 = 0 ∧ s.status.extractLsb' 16 16 = 0

/-- Every listed address exists (R25, R26, R53). -/
def Memory.Below (n : Nat) (m : Memory) : Prop := ∀ cell ∈ m, cell.1 < n

/-- The addresses of OUT that the work on block `n` writes (R49, R50, R59). -/
def outAddrs (op : Operation) (fmt : Format) (l : Latches) (n : Nat) : List Nat :=
  match op with
  | .size => []
  | .enc => (List.range (bpb fmt)).map fun i => n * bpb fmt + i
  | .dec => tileIndices.flatMap fun k =>
      match scatterAddr l n k with
      | none => []
      | some a => (List.range 4).map fun i => a + i

/-- The bytes of OUT that the spec calls defined (R26): while a command runs, what its finished blocks wrote; after a
successful ENC or DEC, which is the one whose word CMD still holds (R22), the bytes below RESULT; else none. -/
def State.ShouldBeDefined (s : State) (a : Nat) : Prop :=
  (s.busy = true ∧
    ∃ i, decode s.lat.cmd = .ok i ∧ ∃ n ∈ s.doneBlocks, a ∈ outAddrs i.op i.format s.lat n) ∨
  (s.done = true ∧ s.err = false ∧
    ∃ i, decode s.cmd = .ok i ∧ i.op ≠ .size ∧ a < s.result.toNat)

/-- The memories are canonical and hold no address at or above `LEN_MAX` (R25, R26, R53). -/
structure State.MemoryOk (c : Config) (s : State) : Prop where
  inCanonical : Memory.wf s.inMem = true
  outCanonical : Memory.wf s.outMem = true
  inBelow : Memory.Below c.lenMax s.inMem
  outBelow : Memory.Below c.lenMax s.outMem

/-- What holds of the block cursor (R29, R107): outside a command no block counts as done; inside one the done blocks are
distinct blocks of it, the cursor counts them, and there are some only if the command is an ENC or DEC that has passed
its checks and is not finished. -/
structure State.ProgressOk (c : Config) (s : State) : Prop where
  idleNone : s.busy = false → s.doneBlocks = []
  rising : s.doneBlocks.Pairwise (· < ·)
  counted : s.busy = true → s.blk = s.doneBlocks.length
  inside : ∀ n ∈ s.doneBlocks, n < s.lat.blocks
  checked : s.doneBlocks ≠ [] →
    s.blk < s.lat.blocks ∧
      ∃ i, decode s.lat.cmd = .ok i ∧ i.op ≠ .size ∧ checkOperands c i.op i.format s.lat = none

/-- The invariant of the machine. -/
structure State.Inv (c : Config) (s : State) : Prop where
  status : s.StatusLegal
  memory : s.MemoryOk c
  progress : s.ProgressOk c
  /-- While a command runs the latches hold what the registers hold, since writes are ignored (R27, R234), and RESULT
  is 0 (R28). -/
  running : s.busy = true →
    s.lat = { cmd := s.cmd, width := s.width, height := s.height, srcLen := s.srcLen } ∧ s.result = 0
  /-- After an error end RESULT is 0 (R204); it never exceeds `LEN_MAX` (R28). -/
  result : (s.err = true → s.result = 0) ∧ s.result.toNat ≤ c.lenMax
  /-- Exactly the bytes of OUT that should be defined are (R26). -/
  output : ∀ a, (Memory.read a s.outMem).isSome = true ↔ s.ShouldBeDefined a

/-- The operands of a command pass checks 3 and 4, written out (R102): no dimension is negative, every size the command
needs is within `LEN_MAX`, and the length is the one the command demands. -/
structure Accepted (c : Config) (op : Operation) (fmt : Format) (l : Latches) : Prop where
  width : 0 ≤ l.width.toInt
  height : 0 ≤ l.height.toInt
  compressed : cSize fmt l.imageWidth l.imageHeight ≤ c.lenMax
  pixels : op ≠ .size → pSize l.imageWidth l.imageHeight ≤ c.lenMax
  encLength : op = .enc → l.srcLen.toNat = pSize l.imageWidth l.imageHeight
  decLength : op = .dec → l.srcLen.toNat = cSize fmt l.imageWidth l.imageHeight

/-- The first check of R102 that fails on latched operands, written out from the rule with the fields of the command
word and the exact products. -/
def firstFailure (c : Config) (l : Latches) : Option ErrorCode :=
  let op := (l.cmd.extractLsb' 0 8).toNat
  let fmt := (l.cmd.extractLsb' 8 8).toNat
  let w := l.width.toInt
  let h := l.height.toInt
  let compressed := ((w + 3) / 4) * ((h + 3) / 4) * (if fmt = 0 then 8 else 16)
  let pixels := w * h * 4
  if (l.cmd.extractLsb' 16 16).toNat ≠ 0 ∨ (op ≠ 2 ∧ op ≠ 3 ∧ op ≠ 4) then some .eOp
  else if fmt ≠ 0 ∧ fmt ≠ 1 ∧ fmt ≠ 2 then some .eFormat
  else if w < 0 ∨ h < 0 then some .eDim
  else if (c.lenMax : Int) < compressed then some .eDim
  else if (op = 3 ∨ op = 4) ∧ (c.lenMax : Int) < pixels then some .eDim
  else if op = 3 ∧ (l.srcLen.toNat : Int) ≠ pixels then some .ePixlen
  else if op = 4 ∧ (l.srcLen.toNat : Int) ≠ compressed then some .eDatalen
  else none

/-- `k` steps of the machine, stopping at the first fault or refusal. -/
def runSteps : Nat → State → Host.Outcome State Fault Refusal
  | 0, s => .next s
  | k + 1, s =>
    match step s with
    | .next t => runSteps k t
    | .fault r => .fault r
    | .refused r => .refused r

/-- A command has just been started and none of its blocks is done (R22). -/
structure State.Fresh (s : State) : Prop where
  busy : s.busy = true
  noBlocks : s.doneBlocks = []
  cursor : s.blk = 0
  emptyOut : s.outMem = []
  result : s.result = 0

/-- No host move is waiting: whatever happens next is the BTC's own. -/
def State.HostSilent (s : State) : Prop := ∀ m, Turn.host m ∉ s.turns

/-- What no command changes (R23, R25, R203, R204): the operand registers and IN; the latches, which no rule changes
while a command runs (R27) and which keep their value at its end by the model's choice (I13; log entry 16); and what is
not the BTC's. -/
structure SameInputs (s t : State) : Prop where
  cmd : t.cmd = s.cmd
  width : t.width = s.width
  height : t.height = s.height
  srcLen : t.srcLen = s.srcLen
  lat : t.lat = s.lat
  inMem : t.inMem = s.inMem
  turns : t.turns = s.turns
  reads : t.reads = s.reads
  draws : t.draws = s.draws

/-- A successful end (R203): STATUS shows DONE alone and RESULT holds `r`. -/
structure EndedWith (r : Nat) (t : State) : Prop where
  busy : t.busy = false
  done : t.done = true
  err : t.err = false
  ecode : t.ecode = 0
  result : t.result.toNat = r

/-- An error end (R204): STATUS shows DONE, ERR and the code of the cause, RESULT is 0 and OUT is as before. That the
cursor and the tile buffer are as before too is the model's choice (I13; log entries 7 and 5). -/
structure EndedInError (e : ErrorCode) (s t : State) : Prop where
  busy : t.busy = false
  done : t.done = true
  err : t.err = true
  ecode : t.ecode = ecodeOf e
  result : t.result = 0
  outMem : t.outMem = s.outMem
  blk : t.blk = s.blk
  tile : t.tile = s.tile

end Sys2Proof.Machine
end

