-- ==== Sys2Proof/Certificates/Slice0/Obligations.lean ====
section
/-! DEFINITION. The statements for the provers, each from a rule of the spec. -/

open Sys2Proof Sys2Proof.Machine

/-! ### The command word -/

/-- The decoder reads back every command from its word (30_encoding.md R60, R62). -/
def Obligations.DecodeInvertsEncode : Prop :=
  ∀ i : Instr, i.wellFormed = true → decode (encode i) = .ok i

/-- A few command words of the table of R62, written out, decode to their commands. -/
def Obligations.TableWordsDecode : Prop :=
  decode 0x00000002 = .ok .sizeBc1 ∧ decode 0x00000102 = .ok .sizeBc2 ∧ decode 0x00000202 = .ok .sizeBc3 ∧
  decode 0x00000003 = .ok .encBc1 ∧ decode 0x00000103 = .ok .encBc2 ∧ decode 0x00000203 = .ok .encBc3 ∧
  decode 0x00000004 = .ok .decBc1 ∧ decode 0x00000104 = .ok .decBc2 ∧ decode 0x00000204 = .ok .decBc3

/-- Every 32-bit word is the word of exactly one command or is rejected: with `E_OP` when ZERO is not 0 or OP is not 2, 3
or 4, else with `E_FORMAT` (R64, R85). -/
def Obligations.EveryWordDecodedOrRejected : Prop :=
  ∀ w : Word,
    (∀ i, decode w = .ok i ↔ encode i = w) ∧
    ∀ e, decode w = .error e ↔
      (∀ i, encode i ≠ w) ∧
      e = if (w.extractLsb' 16 16).toNat ≠ 0 ∨
            ((w.extractLsb' 0 8).toNat ≠ 2 ∧ (w.extractLsb' 0 8).toNat ≠ 3 ∧ (w.extractLsb' 0 8).toNat ≠ 4)
          then ErrorCode.eOp else ErrorCode.eFormat

/-! ### The step -/

/-- While BUSY, with no host move before it, a step runs the latched command: it is `exec` of the decoded command, after
the turn that asked for it is taken off the list (R103). -/
def Obligations.StepRunsDecodedCommand : Prop :=
  ∀ (s : State) (i : Instr), i.wellFormed = true → s.busy = true → decode s.lat.cmd = .ok i →
    (s.turns = [] → step s = exec i s) ∧
    ∀ ts, s.turns = .btcRun :: ts → step s = exec i { s with turns := ts }

/-- The checks of R102 in their order, over the whole machine: a started command ends with the first failing check's
error, with the operands and IN as they were and OUT as the start left it (R204), and ends with success when none fails
(R203). The model's choices in it: the default `LEN_MAX` (log entry 4), success where an input byte is undefined (log entry
1), and what the latches, the cursor and the tile buffer hold after the end (log entries 16, 7 and 5). -/
def Obligations.FirstFailedCheckDecides : Prop :=
  ∀ s : State, s.busy = true → s.turns = [] →
    match firstFailure btcConfig s.lat with
    | some e => ∃ t, step s = .next t ∧ EndedInError e s t ∧ SameInputs s t
    | none => ∃ t, step s = .next t ∧ t.busy = false ∧ t.done = true ∧ t.err = false ∧ t.ecode = 0

/-- An idle BTC with no host move waiting stays as it is (R214). -/
def Obligations.IdleWaits : Prop :=
  ∀ s : State, s.busy = false → s.turns = [] → step s = .next s

/-- A step answers a next state exactly when the next turn is not a host access that the interface does not offer (R35,
I12): no command ever stops the machine (R202). That a command with an undefined input byte goes on (I4) and that a host
read of an unarchitected byte of OUT goes on (I3) is the model's choice of `any value` over `refuse` (log entries 1 and
2), and so is the form of the stops (log entry 8). -/
def Obligations.OnlyOutsideAccessesStop : Prop :=
  ∀ s : State, (∃ t, step s = .next t) ↔
    ∀ m ts, s.turns = Turn.host m :: ts → m.wellFormed btcConfig = true

/-- Which stop each access outside the interface gets: an address at or above `LEN_MAX` is a fault, the others are
refused by name (I12; the choice between fault and refusal is the model's, log entry 8). -/
def Obligations.OutsideAccessesStopByName : Prop :=
  ∀ (s : State) (ts : List Turn),
    (∀ offset bytes v, Reg.ofAccess offset bytes = none →
      s.turns = .host (.writeReg offset bytes v) :: ts → step s = .refused (.registerAccess offset bytes)) ∧
    (∀ offset bytes, Reg.ofAccess offset bytes = none →
      s.turns = .host (.readReg offset bytes) :: ts → step s = .refused (.registerAccess offset bytes)) ∧
    (∀ a b, 2 ^ 32 - 1 ≤ a → s.turns = .host (.writeIn a b) :: ts → step s = .fault (.noSuchAddress a)) ∧
    (∀ a, 2 ^ 32 - 1 ≤ a → s.turns = .host (.readOut a) :: ts → step s = .fault (.noSuchAddress a)) ∧
    (∀ a, s.turns = .host (.readIn a) :: ts → step s = .refused (.hostReadIn a)) ∧
    (∀ a b, s.turns = .host (.writeOut a b) :: ts → step s = .refused (.hostWriteOut a))

/-! ### The host interface -/

/-- The six registers answer at the six offsets of R21, by aligned 32-bit accesses and no others (R35). -/
def Obligations.RegisterOffsets : Prop :=
  ∀ (offset bytes : Nat) (r : Reg), Reg.ofAccess offset bytes = some r ↔
    bytes = 4 ∧ offset = match r with
      | .cmd => 0x00 | .width => 0x04 | .height => 0x08 | .srcLen => 0x0C | .status => 0x10 | .result => 0x14

/-- A write of `v` to CMD while idle starts a command: every effect R22 lists, and nothing else of the BTC changes (that
the tile buffer keeps its value is the model's choice, log entry 5). -/
def Obligations.WritingCmdStartsCommand : Prop :=
  ∀ (s : State) (v : Word) (ts : List Turn), s.busy = false → s.turns = .host (.writeReg 0x00 4 v) :: ts →
    ∃ t, step s = .next t ∧ t.cmd = v ∧
      t.lat = { cmd := v, width := s.width, height := s.height, srcLen := s.srcLen } ∧
      t.busy = true ∧ t.done = false ∧ t.err = false ∧ t.ecode = 0 ∧ t.result = 0 ∧
      (∀ a, Memory.read a t.outMem = none) ∧ t.blk = 0 ∧ t.doneBlocks = [] ∧
      t.width = s.width ∧ t.height = s.height ∧ t.srcLen = s.srcLen ∧ t.inMem = s.inMem ∧ t.tile = s.tile ∧
      t.turns = ts ∧ t.reads = s.reads

/-- Every host write of a register or of IN that arrives while BUSY is ignored: only the turn is gone (R234). -/
def Obligations.WritesWhileBusyIgnored : Prop :=
  ∀ (s : State) (ts : List Turn), s.busy = true →
    (∀ offset v r, Reg.ofAccess offset 4 = some r → s.turns = .host (.writeReg offset 4 v) :: ts →
      step s = .next { s with turns := ts }) ∧
    ∀ a b, a < 2 ^ 32 - 1 → s.turns = .host (.writeIn a b) :: ts → step s = .next { s with turns := ts }

/-- WIDTH, HEIGHT and SRC_LEN are plain storage while idle; STATUS and RESULT ignore writes at all times (R23, R24, R28). -/
def Obligations.RegisterWrites : Prop :=
  ∀ (s : State) (v : Word) (ts : List Turn),
    (s.busy = false → s.turns = .host (.writeReg 0x04 4 v) :: ts → step s = .next { s with width := v, turns := ts }) ∧
    (s.busy = false → s.turns = .host (.writeReg 0x08 4 v) :: ts → step s = .next { s with height := v, turns := ts }) ∧
    (s.busy = false → s.turns = .host (.writeReg 0x0C 4 v) :: ts → step s = .next { s with srcLen := v, turns := ts }) ∧
    (s.turns = .host (.writeReg 0x10 4 v) :: ts → step s = .next { s with turns := ts }) ∧
    (s.turns = .host (.writeReg 0x14 4 v) :: ts → step s = .next { s with turns := ts })

/-- A register read returns the register's value and changes nothing else, BUSY or not (R35, R240). -/
def Obligations.RegisterReads : Prop :=
  ∀ (s : State) (offset : Nat) (r : Reg) (ts : List Turn), Reg.ofAccess offset 4 = some r →
    s.turns = .host (.readReg offset 4) :: ts →
    step s = .next { s with
      turns := ts
      reads := s.reads ++ [.word (match r with
        | .cmd => s.cmd | .width => s.width | .height => s.height | .srcLen => s.srcLen
        | .status => s.status | .result => s.result)] }

/-- A host write of a byte of IN while idle makes that byte defined with the value and changes nothing else (R25). -/
def Obligations.InputWriteDefinesByte : Prop :=
  ∀ (s : State) (a : Nat) (b : Byte) (ts : List Turn), s.busy = false → a < 2 ^ 32 - 1 →
    Memory.wf s.inMem = true → s.turns = .host (.writeIn a b) :: ts →
    ∃ t, step s = .next t ∧ t = { s with inMem := t.inMem, turns := ts } ∧ Memory.wf t.inMem = true ∧
      ∀ x, Memory.read x t.inMem = if x = a then some b else Memory.read x s.inMem

/-- A host read of OUT while idle returns a defined byte's value without a side effect (R26). Where no value is
architected the read still completes, returns some byte and changes only the model's own draw counter (I3; the model's
choice of `any value` over `refuse`, log entry 2); no claim depends on that byte. -/
def Obligations.OutputReads : Prop :=
  ∀ (s : State) (a : Nat) (ts : List Turn), a < 2 ^ 32 - 1 → s.turns = .host (.readOut a) :: ts →
    (∀ b, s.busy = false → Memory.read a s.outMem = some b →
      step s = .next { s with turns := ts, reads := s.reads ++ [.byte b] }) ∧
    (s.busy = true ∨ Memory.read a s.outMem = none →
      ∃ b n, step s = .next { s with turns := ts, reads := s.reads ++ [.byte b], draws := n })

/-- The reset values (R34): every register, the latches and the cursor 0, idle, every byte of IN and OUT undefined; they are
what the machine starts from, and what a reset leaves from any state, a running command included (R230, R231). That the
waiting turns and what was read stay is the model's choice (log entry 14). -/
def Obligations.ResetValues : Prop :=
  let isReset := fun t : State =>
    t.cmd = 0 ∧ t.width = 0 ∧ t.height = 0 ∧ t.srcLen = 0 ∧ t.status = 0 ∧ t.result = 0 ∧
    t.lat = { cmd := 0, width := 0, height := 0, srcLen := 0 } ∧ t.blk = 0 ∧
    (∀ a, Memory.read a t.inMem = none) ∧ (∀ a, Memory.read a t.outMem = none) ∧
    t.busy = false ∧ t.done = false ∧ t.err = false ∧ t.ecode = 0
  isReset State.reset ∧
  ∀ (s : State) (ts : List Turn), s.turns = .host .reset :: ts →
    ∃ t, step s = .next t ∧ isReset t ∧ t.turns = ts ∧ t.reads = s.reads

/-! ### SIZE -/

/-- The SIZE commands (R110, R111, R112): the result is the exact product, every register, both memories, the cursor and the
tile buffer but STATUS and RESULT are unchanged (for the latches, the cursor and the tile buffer after the end this is the
model's choice, log entries 16, 7 and 5). -/
def Obligations.SizeCommandsComplete : Prop :=
  ∀ s : State, 0 ≤ s.lat.width.toInt → 0 ≤ s.lat.height.toInt →
    let n := ((s.lat.width.toInt.toNat + 3) / 4) * ((s.lat.height.toInt.toNat + 3) / 4)
    (n * 8 ≤ 2 ^ 32 - 1 → ∃ t, exec .sizeBc1 s = .next t ∧ EndedWith (n * 8) t ∧ SameInputs s t ∧
      t.outMem = s.outMem ∧ t.blk = s.blk ∧ t.tile = s.tile) ∧
    (n * 16 ≤ 2 ^ 32 - 1 → ∃ t, exec .sizeBc2 s = .next t ∧ EndedWith (n * 16) t ∧ SameInputs s t ∧
      t.outMem = s.outMem ∧ t.blk = s.blk ∧ t.tile = s.tile) ∧
    (n * 16 ≤ 2 ^ 32 - 1 → ∃ t, exec .sizeBc3 s = .next t ∧ EndedWith (n * 16) t ∧ SameInputs s t ∧
      t.outMem = s.outMem ∧ t.blk = s.blk ∧ t.tile = s.tile)

/-- Where the SIZE commands turn the operands away (R110, R111, R112): `E_DIM` when a dimension is negative or the result
exceeds `LEN_MAX` (the latches, the cursor and the tile buffer after the end: the model's choice, log entries 16, 7 and 5).
-/
def Obligations.SizeCommandErrors : Prop :=
  ∀ s : State,
    let n := ((s.lat.width.toInt.toNat + 3) / 4) * ((s.lat.height.toInt.toNat + 3) / 4)
    (s.lat.width.toInt < 0 ∨ s.lat.height.toInt < 0 ∨ 2 ^ 32 - 1 < n * 8 →
      ∃ t, exec .sizeBc1 s = .next t ∧ EndedInError .eDim s t ∧ SameInputs s t) ∧
    (s.lat.width.toInt < 0 ∨ s.lat.height.toInt < 0 ∨ 2 ^ 32 - 1 < n * 16 →
      (∃ t, exec .sizeBc2 s = .next t ∧ EndedInError .eDim s t ∧ SameInputs s t) ∧
      ∃ t, exec .sizeBc3 s = .next t ∧ EndedInError .eDim s t ∧ SameInputs s t)

/-- SIZE reads nothing but the latched dimensions: two states that agree on them, whatever IN, OUT, SRC_LEN and the rest
hold, end with the same STATUS and RESULT, and neither memory is touched (R104). -/
def Obligations.SizeReadsOnlyDimensions : Prop :=
  ∀ (fmt : Format) (s s' : State), s.lat.width = s'.lat.width → s.lat.height = s'.lat.height →
    ∃ t t', exec (commandOf .size fmt) s = .next t ∧ exec (commandOf .size fmt) s' = .next t' ∧
      t.status = t'.status ∧ t.result = t'.result ∧
      (t.err = false → t.result.toNat = cSize fmt s.lat.imageWidth s.lat.imageHeight) ∧
      t.inMem = s.inMem ∧ t.outMem = s.outMem ∧ t'.inMem = s'.inMem ∧ t'.outMem = s'.outMem

/-! ### ENC -/

/-- ENC.BC1 on accepted operands (R150): it ends with success, writes the block of every tile whose bytes are defined at
its place, defines every byte below RESULT, and changes nothing else that a rule gives a value. The model's choices in it: success where an input byte is undefined (log entry 1), the other blocks keep
their value then (log entry 11), the cursor and the latches after the end (log entries 7 and 16). -/
def Obligations.EncBc1Completes : Prop :=
  ∀ s : State, s.doneBlocks = [] → Accepted btcConfig .enc .bc1 s.lat →
    ∃ t, exec .encBc1 s = .next t ∧ EndedWith (cSize .bc1 s.lat.imageWidth s.lat.imageHeight) t ∧ SameInputs s t ∧
      t.blk = s.blk + s.lat.blocks ∧
      (∀ a, cSize .bc1 s.lat.imageWidth s.lat.imageHeight ≤ a → Memory.read a t.outMem = Memory.read a s.outMem) ∧
      (∀ a, a < cSize .bc1 s.lat.imageWidth s.lat.imageHeight → (Memory.read a t.outMem).isSome = true) ∧
      ∀ n, n < s.lat.blocks → ∀ P, gatherTile s.lat s.inMem n = some P → ∀ j, j < 8 →
        Memory.read (8 * n + j) t.outMem = (colorBlockBytes (encColorBlock defaultWeights P true))[j]?

/-- ENC.BC2 on accepted operands (R151): the 4-bit alphas at `16*n`, the colour block at `16*n + 8`. The model's choices in it: success where an input byte is undefined (log entry 1), the other blocks keep
their value then (log entry 11), the cursor and the latches after the end (log entries 7 and 16). -/
def Obligations.EncBc2Completes : Prop :=
  ∀ s : State, s.doneBlocks = [] → Accepted btcConfig .enc .bc2 s.lat →
    ∃ t, exec .encBc2 s = .next t ∧ EndedWith (cSize .bc2 s.lat.imageWidth s.lat.imageHeight) t ∧ SameInputs s t ∧
      t.blk = s.blk + s.lat.blocks ∧
      (∀ a, cSize .bc2 s.lat.imageWidth s.lat.imageHeight ≤ a → Memory.read a t.outMem = Memory.read a s.outMem) ∧
      (∀ a, a < cSize .bc2 s.lat.imageWidth s.lat.imageHeight → (Memory.read a t.outMem).isSome = true) ∧
      ∀ n, n < s.lat.blocks → ∀ P, gatherTile s.lat s.inMem n = some P → ∀ j, j < 8 →
        Memory.read (16 * n + j) t.outMem = (alpha4Bytes (encAlpha4 P))[j]? ∧
        Memory.read (16 * n + 8 + j) t.outMem = (colorBlockBytes (encColorBlock defaultWeights P false))[j]?

/-- ENC.BC3 on accepted operands (R152): the alpha block at `16*n`, the colour block at `16*n + 8`. The model's choices in it: success where an input byte is undefined (log entry 1), the other blocks keep
their value then (log entry 11), the cursor and the latches after the end (log entries 7 and 16). -/
def Obligations.EncBc3Completes : Prop :=
  ∀ s : State, s.doneBlocks = [] → Accepted btcConfig .enc .bc3 s.lat →
    ∃ t, exec .encBc3 s = .next t ∧ EndedWith (cSize .bc3 s.lat.imageWidth s.lat.imageHeight) t ∧ SameInputs s t ∧
      t.blk = s.blk + s.lat.blocks ∧
      (∀ a, cSize .bc3 s.lat.imageWidth s.lat.imageHeight ≤ a → Memory.read a t.outMem = Memory.read a s.outMem) ∧
      (∀ a, a < cSize .bc3 s.lat.imageWidth s.lat.imageHeight → (Memory.read a t.outMem).isSome = true) ∧
      ∀ n, n < s.lat.blocks → ∀ P, gatherTile s.lat s.inMem n = some P → ∀ j, j < 8 →
        Memory.read (16 * n + j) t.outMem = (alphaBlockBytes (encAlpha3 (alphasOf P)))[j]? ∧
        Memory.read (16 * n + 8 + j) t.outMem = (colorBlockBytes (encColorBlock defaultWeights P false))[j]?

/-- Where the ENC commands turn the operands away (R150, R151, R152): `E_DIM` for negative or too large dimensions, else
`E_PIXLEN` for a length other than `4*W*H`; nothing is written to OUT (the latches, the cursor and the tile buffer after the
end: the model's choice, log entries 16, 7 and 5). -/
def Obligations.EncCommandErrors : Prop :=
  ∀ (fmt : Format) (s : State),
    let w := s.lat.width.toInt
    let h := s.lat.height.toInt
    let tooLarge := w < 0 ∨ h < 0 ∨ 2 ^ 32 - 1 < cSize fmt w.toNat h.toNat ∨ 2 ^ 32 - 1 < w.toNat * h.toNat * 4
    (tooLarge → ∃ t, exec (commandOf .enc fmt) s = .next t ∧ EndedInError .eDim s t ∧ SameInputs s t) ∧
    (¬ tooLarge → s.lat.srcLen.toNat ≠ w.toNat * h.toNat * 4 →
      ∃ t, exec (commandOf .enc fmt) s = .next t ∧ EndedInError .ePixlen s t ∧ SameInputs s t)

/-- The same of the whole ENC command under any parameters and any strategy, met or not by the contract: it ends with success
and each block of a defined tile is what the strategy under the BTC's weights and the fixed BC2 alpha give (R6, R105,
R147). The model's choices in it: success where an input byte is undefined (log entry 1), the other blocks keep their
value then (log entry 11), the latches after the end (log entry 16). -/
def Obligations.EncUnderAnyStrategy : Prop :=
  ∀ (c : Config) (fmt : Format) (s : State), c.lenMax < 2 ^ 32 → s.doneBlocks = [] → Accepted c .enc fmt s.lat →
    EndedWith (cSize fmt s.lat.imageWidth s.lat.imageHeight) (encCommand c fmt s) ∧
    SameInputs s (encCommand c fmt s) ∧
    ∀ n, n < s.lat.blocks → ∀ P, gatherTile s.lat s.inMem n = some P → ∀ j, j < bpb fmt →
      Memory.read (n * bpb fmt + j) (encCommand c fmt s).outMem =
        (match fmt with
          | .bc1 => colorBlockBytes (c.strategy.colorQ P true)
          | .bc2 => alpha4Bytes (encAlpha4 P) ++ colorBlockBytes (c.strategy.colorQ P false)
          | .bc3 => alphaBlockBytes (c.strategy.alphaQ (alphasOf P)) ++
              colorBlockBytes (c.strategy.colorQ P false))[j]?

/-- The gathered tile (R46): pixel `4*ty + tx` of block `(bx, by)` is the four bytes of the image pixel whose coordinates are
clamped to the image one by one; a tile exists exactly when all those bytes are defined. -/
def Obligations.GatherClampsToEdge : Prop :=
  ∀ (l : Latches) (m : Memory) (bx row : Nat), bx < ceil4 l.imageWidth →
    let addr := fun k : Fin 16 =>
      4 * (min (4 * row + k.val / 4) (l.imageHeight - 1) * l.imageWidth
        + min (4 * bx + k.val % 4) (l.imageWidth - 1))
    ((gatherTile l m (row * ceil4 l.imageWidth + bx)).isSome = true ↔
      ∀ k : Fin 16, ∀ j, j < 4 → (Memory.read (addr k + j) m).isSome = true) ∧
    ∀ P, gatherTile l m (row * ceil4 l.imageWidth + bx) = some P → ∀ k : Fin 16,
      Memory.read (addr k) m = some P[k].r ∧ Memory.read (addr k + 1) m = some P[k].g ∧
      Memory.read (addr k + 2) m = some P[k].b ∧ Memory.read (addr k + 3) m = some P[k].a

/-! ### DEC -/

/-- DEC.BC1 on accepted operands (R180, R183): it ends with success and pixel `(x, y)` of OUT is pixel
`k = 4*(y mod 4) + (x mod 4)` of block `(x div 4, y div 4)`, wherever the bytes that pixel is made from are defined; every byte
below RESULT is defined and no byte at or above it is touched. The model's choices in it: success where an input byte is undefined (log entry 1), the other pixels keep
their value then (log entry 11), the cursor and the latches after the end (log entries 7 and 16). -/
def Obligations.DecBc1Completes : Prop :=
  ∀ s : State, s.doneBlocks = [] → Accepted btcConfig .dec .bc1 s.lat →
    ∃ t, exec .decBc1 s = .next t ∧ EndedWith (pSize s.lat.imageWidth s.lat.imageHeight) t ∧ SameInputs s t ∧
      t.blk = s.blk + s.lat.blocks ∧
      (∀ a, pSize s.lat.imageWidth s.lat.imageHeight ≤ a → Memory.read a t.outMem = Memory.read a s.outMem) ∧
      (∀ a, a < pSize s.lat.imageWidth s.lat.imageHeight → (Memory.read a t.outMem).isSome = true) ∧
      ∀ x y, x < s.lat.imageWidth → y < s.lat.imageHeight → ∀ k : Fin 16, k.val = 4 * (y % 4) + x % 4 →
        let n := y / 4 * ceil4 s.lat.imageWidth + x / 4
        pixelDefined .bc1 s.inMem n k = true → ∀ j, j < 4 →
          Memory.read (4 * (y * s.lat.imageWidth + x) + j) t.outMem =
            (pixelBytes (decBc1 (blockIn .bc1 s.inMem n))[k])[j]?

/-- DEC.BC2 on accepted operands (R181, R183). The model's choices in it: success where an input byte is undefined (log entry 1), the other pixels keep
their value then (log entry 11), the cursor and the latches after the end (log entries 7 and 16). -/
def Obligations.DecBc2Completes : Prop :=
  ∀ s : State, s.doneBlocks = [] → Accepted btcConfig .dec .bc2 s.lat →
    ∃ t, exec .decBc2 s = .next t ∧ EndedWith (pSize s.lat.imageWidth s.lat.imageHeight) t ∧ SameInputs s t ∧
      t.blk = s.blk + s.lat.blocks ∧
      (∀ a, pSize s.lat.imageWidth s.lat.imageHeight ≤ a → Memory.read a t.outMem = Memory.read a s.outMem) ∧
      (∀ a, a < pSize s.lat.imageWidth s.lat.imageHeight → (Memory.read a t.outMem).isSome = true) ∧
      ∀ x y, x < s.lat.imageWidth → y < s.lat.imageHeight → ∀ k : Fin 16, k.val = 4 * (y % 4) + x % 4 →
        let n := y / 4 * ceil4 s.lat.imageWidth + x / 4
        pixelDefined .bc2 s.inMem n k = true → ∀ j, j < 4 →
          Memory.read (4 * (y * s.lat.imageWidth + x) + j) t.outMem =
            (pixelBytes (decBc2 (blockIn .bc2 s.inMem n))[k])[j]?

/-- DEC.BC3 on accepted operands (R182, R183). The model's choices in it: success where an input byte is undefined (log entry 1), the other pixels keep
their value then (log entry 11), the cursor and the latches after the end (log entries 7 and 16). -/
def Obligations.DecBc3Completes : Prop :=
  ∀ s : State, s.doneBlocks = [] → Accepted btcConfig .dec .bc3 s.lat →
    ∃ t, exec .decBc3 s = .next t ∧ EndedWith (pSize s.lat.imageWidth s.lat.imageHeight) t ∧ SameInputs s t ∧
      t.blk = s.blk + s.lat.blocks ∧
      (∀ a, pSize s.lat.imageWidth s.lat.imageHeight ≤ a → Memory.read a t.outMem = Memory.read a s.outMem) ∧
      (∀ a, a < pSize s.lat.imageWidth s.lat.imageHeight → (Memory.read a t.outMem).isSome = true) ∧
      ∀ x y, x < s.lat.imageWidth → y < s.lat.imageHeight → ∀ k : Fin 16, k.val = 4 * (y % 4) + x % 4 →
        let n := y / 4 * ceil4 s.lat.imageWidth + x / 4
        pixelDefined .bc3 s.inMem n k = true → ∀ j, j < 4 →
          Memory.read (4 * (y * s.lat.imageWidth + x) + j) t.outMem =
            (pixelBytes (decBc3 (blockIn .bc3 s.inMem n))[k])[j]?

/-- Where the DEC commands turn the operands away (R180, R181, R182): `E_DIM` for negative or too large dimensions, else
`E_DATALEN` for a length other than the compressed size; nothing is written to OUT (the latches, the cursor and the tile
buffer after the end: the model's choice, log entries 16, 7 and 5). -/
def Obligations.DecCommandErrors : Prop :=
  ∀ (fmt : Format) (s : State),
    let w := s.lat.width.toInt
    let h := s.lat.height.toInt
    let compressed := ((w.toNat + 3) / 4) * ((h.toNat + 3) / 4) * bpb fmt
    let tooLarge := w < 0 ∨ h < 0 ∨ 2 ^ 32 - 1 < compressed ∨ 2 ^ 32 - 1 < w.toNat * h.toNat * 4
    (tooLarge → ∃ t, exec (commandOf .dec fmt) s = .next t ∧ EndedInError .eDim s t ∧ SameInputs s t) ∧
    (¬ tooLarge → s.lat.srcLen.toNat ≠ compressed →
      ∃ t, exec (commandOf .dec fmt) s = .next t ∧ EndedInError .eDatalen s t ∧ SameInputs s t)

/-! ### All commands -/

/-- Size determinism (R113): whenever an ENC succeeds, the SIZE of the same operands succeeds with the same RESULT, which is
the number of defined bytes of OUT after the ENC; and SIZE can succeed where no ENC does, which ends with `E_DIM`. That
this holds of an ENC with an undefined input byte too is the model's choice (log entry 1). -/
def Obligations.SizeEqualsEncodedLength : Prop :=
  (∀ (fmt : Format) (s : State), s.Fresh →
    ∃ t u, exec (commandOf .enc fmt) s = .next t ∧ exec (commandOf .size fmt) s = .next u ∧
      (t.err = false →
        u.err = false ∧ t.result = u.result ∧
        (∀ a, (Memory.read a t.outMem).isSome = true ↔ a < u.result.toNat) ∧ t.outMem.length = u.result.toNat)) ∧
  ∃ (fmt : Format) (w h : Word), ∀ len : Word,
    (∀ s : State, s.lat = { cmd := encode (commandOf .size fmt), width := w, height := h, srcLen := len } →
      ∃ u, exec (commandOf .size fmt) s = .next u ∧ u.err = false) ∧
    ∀ s : State, s.lat = { cmd := encode (commandOf .enc fmt), width := w, height := h, srcLen := len } →
      ∃ t, exec (commandOf .enc fmt) s = .next t ∧ t.ecode = 3

/-- STATUS and RESULT of a command never depend on IN, whose bytes may be undefined. That a command with an undefined input
byte completes, with success and RESULT as specified, is `any value` of I4, the model's choice over `refuse` (log entry 1). -/
def Obligations.StatusAndResultIgnoreInput : Prop :=
  ∀ (i : Instr) (s : State) (m : Memory),
    ∃ t u, exec i s = .next t ∧ exec i { s with inMem := m } = .next u ∧ t.status = u.status ∧ t.result = u.result

/-- Two freshly started commands with equal latched operands and equal defined bytes of IN below SRC_LEN give equal STATUS,
RESULT and OUT, whatever else the two states hold (R31). -/
def Obligations.ResultDependsOnOperandsOnly : Prop :=
  ∀ (i : Instr) (s s' : State), s.Fresh → s'.Fresh → s.lat = s'.lat →
    (∀ a, a < s.lat.srcLen.toNat →
      (Memory.read a s.inMem).isSome = true ∧ Memory.read a s'.inMem = Memory.read a s.inMem) →
    ∃ t t', exec i s = .next t ∧ exec i s' = .next t' ∧
      t.status = t'.status ∧ t.result = t'.result ∧ t.outMem = t'.outMem

/-- The order in which blocks are taken is not observable (R107, R108): a fresh, accepted ENC or DEC stepped block by block in
ANY order ends like the same command run at once, and one without a block ends at its one block turn. STATUS, RESULT and
which bytes of OUT are defined agree whatever IN holds (that a command with an undefined input byte completes is the model's
choice, log entry 1); the bytes of OUT agree where every input byte is defined. The cursor and the done blocks after the end:
log entry 7. -/
def Obligations.BlockOrderUnobservable : Prop :=
  ∀ (i : Instr) (s : State) (l : List Nat), s.Fresh → decode s.lat.cmd = .ok i → i.op ≠ .size →
    Accepted btcConfig i.op i.format s.lat → l ≠ [] →
    (l.Perm (List.range s.lat.blocks) ∨ (s.lat.blocks = 0 ∧ l.length = 1)) →
    ∃ t u, runSteps l.length { s with turns := l.map Turn.btcBlock } = .next t ∧ exec i s = .next u ∧
      t.status = u.status ∧ t.result = u.result ∧ t.blk = u.blk ∧
      t.inMem = u.inMem ∧ t.doneBlocks = u.doneBlocks ∧
      (∀ a, (Memory.read a t.outMem).isSome = (Memory.read a u.outMem).isSome) ∧
      ((∀ a, a < s.lat.srcLen.toNat → (Memory.read a s.inMem).isSome = true) → t.outMem = u.outMem)

/-- No step of the BTC changes an operand register, IN or a latch, or touches the host's reads (R23, R25, R203, R204; that the
latches keep their value at the end of a command is the model's choice, log entry 16). -/
def Obligations.OwnStepKeepsInputs : Prop :=
  ∀ s t : State, s.HostSilent → step s = .next t →
    t.cmd = s.cmd ∧ t.width = s.width ∧ t.height = s.height ∧ t.srcLen = s.srcLen ∧ t.lat = s.lat ∧
    t.inMem = s.inMem ∧ t.reads = s.reads ∧ t.draws = s.draws

/-! ### The block formats -/

/-- `PackColorBlock` (R133): the index word, the eight bytes, and that the field extraction gives the fields back. -/
def Obligations.PackColorBlockInverse : Prop :=
  ∀ (c0 c1 : Half) (ci : Fin 16 → BitVec 2) (rest : List Byte),
    let b := packColorBlock c0 c1 ci
    b.cw.toNat = ((List.finRange 16).map fun k => (ci k).toNat * 4 ^ k.val).sum ∧
    colorBlockBytes b =
      [c0.extractLsb' 0 8, c0.extractLsb' 8 8, c1.extractLsb' 0 8, c1.extractLsb' 8 8,
        b.cw.extractLsb' 0 8, b.cw.extractLsb' 8 8, b.cw.extractLsb' 16 8, b.cw.extractLsb' 24 8] ∧
    (colorBlockOfBytes (colorBlockBytes b ++ rest)).c0 = c0 ∧
    (colorBlockOfBytes (colorBlockBytes b ++ rest)).c1 = c1 ∧
    ∀ k, colorIndex (colorBlockOfBytes (colorBlockBytes b ++ rest)) k = ci k

/-- `EncAlpha4` (R136): the alpha word, the bytes two nibbles at a time, and that the nibble extraction gives them back. -/
def Obligations.EncAlpha4Inverse : Prop :=
  ∀ (P : Tile) (rest : List Byte),
    (encAlpha4 P).toNat = ((List.finRange 16).map fun k => (quantAlpha4 P[k].a).toNat * 16 ^ k.val).sum ∧
    (alpha4Bytes (encAlpha4 P)).length = 8 ∧
    (∀ (m : Fin 8) (lo hi : Fin 16), lo.val = 2 * m.val → hi.val = 2 * m.val + 1 →
      ((alpha4Bytes (encAlpha4 P))[m.val]?.map BitVec.toNat) =
        some ((quantAlpha4 P[lo].a).toNat + 16 * (quantAlpha4 P[hi].a).toNat)) ∧
    ∀ k, alpha4At (alpha4OfBytes (alpha4Bytes (encAlpha4 P) ++ rest)) k = quantAlpha4 P[k].a

/-- `PackAlpha3` (R142): the index word, the eight bytes, and that the field extraction gives the fields back. -/
def Obligations.PackAlpha3Inverse : Prop :=
  ∀ (a0 a1 : Byte) (ai : Fin 16 → BitVec 3) (rest : List Byte),
    let b := packAlphaBlock a0 a1 ai
    b.iw.toNat = ((List.finRange 16).map fun k => (ai k).toNat * 8 ^ k.val).sum ∧
    alphaBlockBytes b =
      [a0, a1, b.iw.extractLsb' 0 8, b.iw.extractLsb' 8 8, b.iw.extractLsb' 16 8, b.iw.extractLsb' 24 8,
        b.iw.extractLsb' 32 8, b.iw.extractLsb' 40 8] ∧
    (alphaBlockOfBytes (alphaBlockBytes b ++ rest)).a0 = a0 ∧
    (alphaBlockOfBytes (alphaBlockBytes b ++ rest)).a1 = a1 ∧
    ∀ k, alphaIndex (alphaBlockOfBytes (alphaBlockBytes b ++ rest)) k = ai k

/-- Every colour block and every BC3 alpha block survives its bytes, whatever follows them (R66, R79, R82). -/
def Obligations.BlockBytesRoundTrip : Prop :=
  (∀ (b : ColorBlock) (rest : List Byte), colorBlockOfBytes (colorBlockBytes b ++ rest) = b) ∧
  (∀ (b : AlphaBlock) (rest : List Byte), alphaBlockOfBytes (alphaBlockBytes b ++ rest) = b) ∧
  ∀ (aw : BitVec 64) (rest : List Byte), alpha4OfBytes (alpha4Bytes aw ++ rest) = aw

/-- A decoded BC1 pixel (R161): the palette entry of its index, opaque, or, in 3-colour mode with index 3 and only there,
`(0, 0, 0, 0)`; the entries of both modes written out, the interpolants in thirds for `c0 > c1` (R71), the midpoint for
`c0 ≤ c1` (R72). -/
def Obligations.DecodedBc1Pixel : Prop :=
  ∀ (bs : List Byte) (k : Fin 16),
    let b := colorBlockOfBytes bs
    let e0 := unpack565 b.c0
    let e1 := unpack565 b.c1
    let p := (decBc1 bs)[k]
    (decBc1 bs)[k] = (colorPalette b.c0 b.c1 true)[(colorIndex b k).toNat]'(colorIndex b k).isLt ∧
    ((decBc1 bs)[k].a = 255 ∨ (decBc1 bs)[k] = { r := 0, g := 0, b := 0, a := 0 }) ∧
    ((decBc1 bs)[k].a = 0 ↔ b.c0 ≤ b.c1 ∧ colorIndex b k = 3) ∧
    (colorIndex b k = 0 → p.r = e0.r ∧ p.g = e0.g ∧ p.b = e0.b ∧ p.a = 255) ∧
    (colorIndex b k = 1 → p.r = e1.r ∧ p.g = e1.g ∧ p.b = e1.b ∧ p.a = 255) ∧
    (b.c1 < b.c0 →
      (colorIndex b k = 2 → p.r.toNat = (2 * e0.r.toNat + e1.r.toNat) / 3 ∧
        p.g.toNat = (2 * e0.g.toNat + e1.g.toNat) / 3 ∧ p.b.toNat = (2 * e0.b.toNat + e1.b.toNat) / 3 ∧ p.a = 255) ∧
      (colorIndex b k = 3 → p.r.toNat = (e0.r.toNat + 2 * e1.r.toNat) / 3 ∧
        p.g.toNat = (e0.g.toNat + 2 * e1.g.toNat) / 3 ∧ p.b.toNat = (e0.b.toNat + 2 * e1.b.toNat) / 3 ∧ p.a = 255)) ∧
    (b.c0 ≤ b.c1 →
      (colorIndex b k = 2 → p.r.toNat = (e0.r.toNat + e1.r.toNat) / 2 ∧
        p.g.toNat = (e0.g.toNat + e1.g.toNat) / 2 ∧ p.b.toNat = (e0.b.toNat + e1.b.toNat) / 2 ∧ p.a = 255) ∧
      (colorIndex b k = 3 → p = { r := 0, g := 0, b := 0, a := 0 }))

/-- A decoded BC2 pixel (R162): colour from bytes 8..15 in 4-colour mode whatever the order of the endpoints, alpha
`17 * a4[k]` from bytes 0..7, exactly, hence a multiple of 17. -/
def Obligations.DecodedBc2Pixel : Prop :=
  ∀ (bs : List Byte) (k : Fin 16),
    let b := colorBlockOfBytes (bs.drop 8)
    let e0 := unpack565 b.c0
    let e1 := unpack565 b.c1
    let p := (decBc2 bs)[k]
    p.a.toNat = 17 * ((alpha4OfBytes bs).extractLsb' (4 * k.val) 4).toNat ∧
    (colorIndex b k = 0 → p.r = e0.r ∧ p.g = e0.g ∧ p.b = e0.b) ∧
    (colorIndex b k = 1 → p.r = e1.r ∧ p.g = e1.g ∧ p.b = e1.b) ∧
    (colorIndex b k = 2 → p.r.toNat = (2 * e0.r.toNat + e1.r.toNat) / 3 ∧
      p.g.toNat = (2 * e0.g.toNat + e1.g.toNat) / 3 ∧ p.b.toNat = (2 * e0.b.toNat + e1.b.toNat) / 3) ∧
    (colorIndex b k = 3 → p.r.toNat = (e0.r.toNat + 2 * e1.r.toNat) / 3 ∧
      p.g.toNat = (e0.g.toNat + 2 * e1.g.toNat) / 3 ∧ p.b.toNat = (e0.b.toNat + 2 * e1.b.toNat) / 3)

/-- A decoded BC3 pixel (R163): colour from bytes 8..15 in 4-colour mode whatever the order of the endpoints, alpha the entry
its index names of the palette of bytes 0..7; and the BC3 alpha palette (R80): the endpoints, the exact truncated
interpolants of either mode, and the constants. -/
def Obligations.DecodedBc3Pixel : Prop :=
  (∀ (bs : List Byte) (k : Fin 16),
    let b := colorBlockOfBytes (bs.drop 8)
    let e0 := unpack565 b.c0
    let e1 := unpack565 b.c1
    let ab := alphaBlockOfBytes bs
    let p := (decBc3 bs)[k]
    (∀ x, bs[0]? = some x → ab.a0 = x) ∧ (∀ x, bs[1]? = some x → ab.a1 = x) ∧
    p.a = (alphaPalette ab.a0 ab.a1)[(ab.iw.extractLsb' (3 * k.val) 3).toNat]'(ab.iw.extractLsb' (3 * k.val) 3).isLt ∧
    (colorIndex b k = 0 → p.r = e0.r ∧ p.g = e0.g ∧ p.b = e0.b) ∧
    (colorIndex b k = 1 → p.r = e1.r ∧ p.g = e1.g ∧ p.b = e1.b) ∧
    (colorIndex b k = 2 → p.r.toNat = (2 * e0.r.toNat + e1.r.toNat) / 3 ∧
      p.g.toNat = (2 * e0.g.toNat + e1.g.toNat) / 3 ∧ p.b.toNat = (2 * e0.b.toNat + e1.b.toNat) / 3) ∧
    (colorIndex b k = 3 → p.r.toNat = (e0.r.toNat + 2 * e1.r.toNat) / 3 ∧
      p.g.toNat = (e0.g.toNat + 2 * e1.g.toNat) / 3 ∧ p.b.toNat = (e0.b.toNat + 2 * e1.b.toNat) / 3)) ∧
  (∀ (b : AlphaBlock) (k : Fin 16),
    alphaValue b k = (alphaPalette b.a0 b.a1)[(alphaIndex b k).toNat]'(alphaIndex b k).isLt) ∧
  ∀ a0 a1 : Byte,
    (alphaPalette a0 a1)[0] = a0 ∧ (alphaPalette a0 a1)[1] = a1 ∧
    (a1 < a0 → ∀ i : Fin 8, 2 ≤ i.val →
      (alphaPalette a0 a1)[i].toNat = ((8 - i.val) * a0.toNat + (i.val - 1) * a1.toNat) / 7) ∧
    (a0 ≤ a1 → (∀ i : Fin 8, 2 ≤ i.val → i.val ≤ 5 →
        (alphaPalette a0 a1)[i].toNat = ((6 - i.val) * a0.toNat + (i.val - 1) * a1.toNat) / 5) ∧
      (alphaPalette a0 a1)[6] = 0 ∧ (alphaPalette a0 a1)[7] = 255)

/-- Palette facts (R73): swapping the endpoints in 4-colour mode swaps the entries in pairs; equal endpoints give equal
entries; an interpolated channel lies between its endpoints. -/
def Obligations.ColorPaletteFacts : Prop :=
  ∀ c0 c1 : Half,
    let p := colorPalette c0 c1 false
    let q := colorPalette c1 c0 false
    (q[0] = p[1] ∧ q[1] = p[0] ∧ q[2] = p[3] ∧ q[3] = p[2]) ∧
    (c0 = c1 → ∀ i : Fin 4, p[i] = p[0]) ∧
    (∀ i : Fin 4, (min p[0].r.toNat p[1].r.toNat ≤ p[i].r.toNat ∧ p[i].r.toNat ≤ max p[0].r.toNat p[1].r.toNat) ∧
      (min p[0].g.toNat p[1].g.toNat ≤ p[i].g.toNat ∧ p[i].g.toNat ≤ max p[0].g.toNat p[1].g.toNat) ∧
      (min p[0].b.toNat p[1].b.toNat ≤ p[i].b.toNat ∧ p[i].b.toNat ≤ max p[0].b.toNat p[1].b.toNat))

/-- A decoded pixel depends on the bytes listed for it and on no other byte of its block, so index bits of clipped pixels
have no effect (R59, R166); byte `i` of block `n` is `IN[n*BPB + i]` wherever that is defined (R49); and the bytes of every
pixel are defined exactly when the listed ones are, hence in an accepted DEC whose input is all defined. -/
def Obligations.DecodedPixelReadsItsBytes : Prop :=
  (∀ (fmt : Format) (k : Fin 16) (bs bs' : List Byte), bs.length = bpb fmt → bs'.length = bpb fmt →
    (∀ i ∈ pixelReads fmt k, bs[i]? = bs'[i]?) → (decBlock fmt bs)[k] = (decBlock fmt bs')[k]) ∧
  (∀ (fmt : Format) (m : Memory) (n : Nat), (blockIn fmt m n).length = bpb fmt ∧
    ∀ (i : Nat) (b : Byte), i < bpb fmt → Memory.read (n * bpb fmt + i) m = some b → (blockIn fmt m n)[i]? = some b) ∧
  (∀ (fmt : Format) (m : Memory) (n : Nat) (k : Fin 16), (∀ i ∈ pixelReads fmt k, i < bpb fmt) ∧
    (pixelDefined fmt m n k = true ↔ ∀ i ∈ pixelReads fmt k, (Memory.read (n * bpb fmt + i) m).isSome = true)) ∧
  ∀ (fmt : Format) (l : Latches) (m : Memory), l.srcLen.toNat = cSize fmt l.imageWidth l.imageHeight →
    (∀ a, a < l.srcLen.toNat → (Memory.read a m).isSome = true) →
    ∀ n, n < l.blocks → ∀ k : Fin 16, pixelDefined fmt m n k = true

/-- Quantisation and expansion (R67, R68, R122): `Unpack565` expands the fields at bits 15:11, 10:5 and 4:0; expansion maps
the ends to 0 and 255, is strictly increasing and is undone by quantisation, which is within 4 and 2 of every value and
non-decreasing. -/
def Obligations.QuantisationFacts : Prop :=
  (∀ c : Half, (unpack565 c).r.toNat = expand5 (c.extractLsb' 11 5).toNat ∧
    (unpack565 c).g.toNat = expand6 (c.extractLsb' 5 6).toNat ∧
    (unpack565 c).b.toNat = expand5 (c.extractLsb' 0 5).toNat) ∧
  (expand5 0 = 0 ∧ expand5 31 = 255 ∧ expand6 0 = 0 ∧ expand6 63 = 255) ∧
  (∀ m n : Fin 32, m < n → expand5 m.val < expand5 n.val) ∧
  (∀ m n : Fin 64, m < n → expand6 m.val < expand6 n.val) ∧
  (∀ n : Fin 32, q5 (BitVec.ofNat 8 (expand5 n.val)) = n.val) ∧
  (∀ n : Fin 64, q6 (BitVec.ofNat 8 (expand6 n.val)) = n.val) ∧
  (∀ v : Byte, q5 v ≤ 31 ∧ expand5 (q5 v) ≤ v.toNat + 4 ∧ v.toNat ≤ expand5 (q5 v) + 4) ∧
  (∀ v : Byte, q6 v ≤ 63 ∧ expand6 (q6 v) ≤ v.toNat + 2 ∧ v.toNat ≤ expand6 (q6 v) + 2) ∧
  ∀ u v : Byte, u ≤ v → q5 u ≤ q5 v ∧ q6 u ≤ q6 v

/-- `Unpack565(Pack565(R, G, B))` differs from `(R, G, B)` by at most 4, 2, 4 in the three channels (R123). -/
def Obligations.PackUnpackWithinStep : Prop :=
  ∀ p : Pixel,
    let u := unpack565 (pack565 p)
    (u.r.toNat ≤ p.r.toNat + 4 ∧ p.r.toNat ≤ u.r.toNat + 4) ∧
    (u.g.toNat ≤ p.g.toNat + 2 ∧ p.g.toNat ≤ u.g.toNat + 2) ∧
    (u.b.toNat ≤ p.b.toNat + 4 ∧ p.b.toNat ≤ u.b.toNat + 4)

/-! ### The encoder -/

/-- The reference strategy meets the contract of R127 under any weights (R134 a, R143 a), so a BTC that encodes with it under
any weights and `LEN_MAX` in the ranges of R6 is a legal one, whose strategy searches under those weights; the machine of
`step` is one. -/
def Obligations.ReferenceMeetsContract : Prop :=
  (∀ w : Weights, QuantizerContract w (referenceQuantizer w)) ∧
  (∀ c : Config, c.wellFormed = true → c.quantizer = referenceQuantizer →
    LegalConfig c ∧ ∀ (P : Tile) (bc1 : Bool), c.strategy.colorQ P bc1 = encColorBlock c.weights P bc1) ∧
  LegalConfig btcConfig

/-- The metric and the set it is summed over, written out, `Dist` (R126), `punch` (R124) and `O` (R125); and that the error `Fit`
sums is `ColErr` of the packed block, and the alpha error `AlphaErr` of the packed block (R131, R141). -/
def Obligations.FitErrorIsBlockError : Prop :=
  (∀ x y : Byte, (sqDiff x y : Int) = ((x.toNat : Int) - y.toNat) ^ 2) ∧
  (∀ (w : Weights) (p q : Pixel), (dist w p q : Int) =
    w.r * ((p.r.toNat : Int) - q.r.toNat) ^ 2 + w.g * ((p.g.toNat : Int) - q.g.toNat) ^ 2 +
      w.b * ((p.b.toNat : Int) - q.b.toNat) ^ 2) ∧
  (∀ (P : Tile) (bc1 : Bool), punch P bc1 = true ↔ bc1 = true ∧ ∃ k : Fin 16, P[k].a = 0) ∧
  (∀ (P : Tile) (bc1 : Bool), (searchSet P bc1).Pairwise (· < ·) ∧
    ∀ k : Fin 16, k ∈ searchSet P bc1 ↔ (punch P bc1 = true → P[k].a ≠ 0)) ∧
  (∀ (w : Weights) (P : Tile) (bc1 : Bool) (c0 c1 : Half),
    (colorFit w P bc1 c0 c1).err =
      ((searchSet P bc1).map fun k =>
        dist w P[k] (colorAt (colorPalette c0 c1 bc1) (fitIndex w P bc1 c0 c1 k))).sum ∧
    (colorFit w P bc1 c0 c1).err = colErr w (colorFit w P bc1 c0 c1).block P bc1) ∧
  ∀ (A : Alphas) (a0 a1 : Byte), (alphaFit A a0 a1).err = alphaErr (alphaFit A a0 a1).block A

/-- The colour search takes the first candidate of least error among the pairs `i ≤ j` of `O` (R128). -/
def Obligations.ColorSearchTakesFirstLeast : Prop :=
  ∀ (w : Weights) (P : Tile) (bc1 : Bool), searchSet P bc1 ≠ [] →
    let fit := fun i j : Fin 16 =>
      let e := orient (pack565 P[i]) (pack565 P[j]) (punch P bc1)
      colorFit w P bc1 e.1 e.2
    ∃ i j, i ∈ searchSet P bc1 ∧ j ∈ searchSet P bc1 ∧ i ≤ j ∧
      encColorBlock w P bc1 = (fit i j).block ∧
      ∀ i' j', i' ∈ searchSet P bc1 → j' ∈ searchSet P bc1 → i' ≤ j' →
        (fit i j).err ≤ (fit i' j').err ∧
        (i' < i ∨ (i' = i ∧ j' < j) → (fit i j).err < (fit i' j').err)

/-- The alpha search takes the first ordered pair of least error among the 256 (R140, R143 d). -/
def Obligations.AlphaSearchTakesFirstLeast : Prop :=
  ∀ A : Alphas, ∃ i j : Fin 16, encAlpha3 A = (alphaFit A A[i] A[j]).block ∧
    ∀ i' j' : Fin 16, (alphaFit A A[i] A[j]).err ≤ (alphaFit A A[i'] A[j']).err ∧
      (i' < i ∨ (i' = i ∧ j' < j) → (alphaFit A A[i] A[j]).err < (alphaFit A A[i'] A[j']).err)

/-- A BC1 tile whose 16 pixels are all transparent (R132): its bytes, and what they decode to. -/
def Obligations.AllTransparentTile : Prop :=
  ∀ (w : Weights) (P : Tile), (∀ k : Fin 16, P[k].a = 0) →
    (encColorBlock w P true).c0 = 0 ∧ (encColorBlock w P true).c1 = 0 ∧
    (∀ k, colorIndex (encColorBlock w P true) k = 3) ∧
    colorBlockBytes (encColorBlock w P true) = [0x00, 0x00, 0x00, 0x00, 0xFF, 0xFF, 0xFF, 0xFF] ∧
    ∀ k : Fin 16, (decBc1 (colorBlockBytes (encColorBlock w P true)))[k] = { r := 0, g := 0, b := 0, a := 0 }

/-- A tile whose pixels of `O` have one colour `v` (R134 b): both endpoints are `Pack565(v)`, every index of `O` is 0 and every
pixel of `O` decodes to `Unpack565(Pack565(v))`. -/
def Obligations.OneColourTile : Prop :=
  ∀ (w : Weights) (P : Tile) (bc1 : Bool) (v : Pixel), searchSet P bc1 ≠ [] →
    (∀ k ∈ searchSet P bc1, P[k].r = v.r ∧ P[k].g = v.g ∧ P[k].b = v.b) →
    (encColorBlock w P bc1).c0 = pack565 v ∧ (encColorBlock w P bc1).c1 = pack565 v ∧
    ∀ k ∈ searchSet P bc1, colorIndex (encColorBlock w P bc1) k = 0 ∧
      colorPixel (encColorBlock w P bc1) bc1 k = unpack565 (pack565 v)

/-- Sixteen equal alphas `a` (R143 b): `a0 = a1 = a`, every index 0, the bytes `a a 00 00 00 00 00 00`, decoded exactly. -/
def Obligations.OneAlphaTile : Prop :=
  ∀ (A : Alphas) (a : Byte), (∀ k : Fin 16, A[k] = a) →
    alphaBlockBytes (encAlpha3 A) = [a, a, 0, 0, 0, 0, 0, 0] ∧
    ∀ k : Fin 16, alphaIndex (encAlpha3 A) k = 0 ∧ alphaValue (encAlpha3 A) k = a

/-- Alphas that are each one of two of the tile's own, or 0, or 255, decode exactly after BC3 coding (R143 c). -/
def Obligations.TwoAlphasExact : Prop :=
  ∀ (A : Alphas) (i j : Fin 16), (∀ k : Fin 16, A[k] = A[i] ∨ A[k] = A[j] ∨ A[k] = 0 ∨ A[k] = 255) →
    ∀ k : Fin 16, alphaValue (encAlpha3 A) k = A[k]

/-- BC2 alpha after coding and decoding (R135): the nearest multiple of 17, within 8 of the input, for every pixel of every
tile on its own. -/
def Obligations.Alpha4RoundTrip : Prop :=
  ∀ (P : Tile) (k : Fin 16),
    let d := (alpha4Value (encAlpha4 P) k).toNat
    (alpha4At (encAlpha4 P) k).toNat = (P[k].a.toNat + 8) / 17 ∧
    d = 17 * ((P[k].a.toNat + 8) / 17) ∧ d ≤ P[k].a.toNat + 8 ∧ P[k].a.toNat ≤ d + 8 ∧
    ∀ n : Nat, 17 * n ≠ d →
      (d - P[k].a.toNat) + (P[k].a.toNat - d) < (17 * n - P[k].a.toNat) + (P[k].a.toNat - 17 * n)

/-- The colour blocks ENC emits (R86): BC1 blocks with `c0 > c1` or with `c0 = c1` and no index 3 when no pixel is
transparent, else with `c0 ≤ c1` and index 3 exactly at the transparent pixels; BC2 and BC3 colour blocks with `c0 ≥ c1`. -/
def Obligations.EncoderEmitsSubset : Prop :=
  ∀ (w : Weights) (P : Tile),
    ((punch P true = false ∧ (encColorBlock w P true).c1 < (encColorBlock w P true).c0) ∨
      (punch P true = false ∧ (encColorBlock w P true).c0 = (encColorBlock w P true).c1 ∧
        ∀ k, colorIndex (encColorBlock w P true) k ≠ 3) ∨
      (punch P true = true ∧ (encColorBlock w P true).c0 ≤ (encColorBlock w P true).c1 ∧
        ∀ k : Fin 16, colorIndex (encColorBlock w P true) k = 3 ↔ P[k].a = 0)) ∧
    (encColorBlock w P false).c1 ≤ (encColorBlock w P false).c0

/-! ### Invariants -/

/-- The machine after reset meets the invariant (R34). -/
def Obligations.ResetMeetsInvariant : Prop := State.reset.Inv btcConfig

/-- Every step keeps STATUS legal: no other combination of (BUSY, DONE, ERR) is ever visible, ECODE is not 0 exactly when ERR
is 1, and the reserved bits read 0 (R24). -/
def Obligations.StepKeepsStatusLegal : Prop :=
  ∀ s t : State, s.StatusLegal → step s = .next t → t.StatusLegal

/-- Every step keeps both memories canonical and within `LEN_MAX` (R25, R26, R53). -/
def Obligations.StepKeepsMemories : Prop :=
  ∀ s t : State, s.MemoryOk btcConfig → step s = .next t → t.MemoryOk btcConfig

/-- Every step keeps the whole invariant: with it, exactly the bytes of OUT that R26 calls defined are defined in every state,
the latches are the registers while a command runs, and RESULT is 0 then and after an error. The model's choices in it: a
command with an undefined input byte defines its output too (log entry 1), and the done blocks around a command (log entry
7). -/
def Obligations.StepKeepsInvariant : Prop :=
  ∀ s t : State, s.Inv btcConfig → step s = .next t → t.Inv btcConfig

/-- The same for a BTC with any legal parameters and any strategy, met or not by the contract (R6, R127): the invariant asks
nothing of the quantiser. The model's choices in it are those of StepKeepsInvariant (log entries 1 and 7). -/
def Obligations.StepKeepsInvariantAnyParameters : Prop :=
  ∀ (c : Config) (s t : State), c.wellFormed = true → s.Inv c → stepWith c s = .next t → t.Inv c
end

