-- ==== Sys2Proof/Laws/BlockFormat.lean ====
section
/-! SUPPORT. What the interpolations of the palettes give. -/

namespace Sys2Proof.Machine

open Sys2Proof

/-- An interpolation whose weights sum to its divisor is exact: its quotient fits a byte, so nothing wraps (R71, R72, R80). -/
theorem mix_toNat {u v d : Nat} (h : u + v = d) (hd : 0 < d) (x y : Byte) :
    (mix u v d x y).toNat = (u * x.toNat + v * y.toNat) / d := by
  refine Nat.mod_eq_of_lt ?_
  rw [Nat.div_lt_iff_lt_mul hd, ← h]
  have hu := Nat.mul_le_mul_left u (Nat.le_of_lt_succ x.isLt)
  have hv := Nat.mul_le_mul_left v (Nat.le_of_lt_succ y.isLt)
  omega

@[simp] theorem unpack565_a (c : Half) : (unpack565 c).a = 255 := rfl

@[simp] theorem mixColor_a (u v d : Nat) (p q : Pixel) : (mixColor u v d p q).a = 255 := rfl

end Sys2Proof.Machine
end

