-- ==== Sys2Proof/Laws/Bytes.lean ====
section
/-! SUPPORT. Byte order and packed fields: bytes read back as the number they came from, and a packed word gives its
fields back. -/

namespace Sys2Proof.Machine

open Sys2Proof

@[simp] theorem leBytes_length (n v : Nat) : (leBytes n v).length = n := by
  induction n generalizing v with
  | zero => rfl
  | succ n ih => simp [leBytes, ih]

/-- The number read from the bytes of `v` is `v` modulo the bytes' range. -/
theorem leNat_leBytes (n v : Nat) : leNat (leBytes n v) = v % 256 ^ n := by
  induction n generalizing v with
  | zero => simp [leBytes, leNat, Nat.mod_one]
  | succ n ih =>
    have e : v % 256 ^ (n + 1) = v % 256 + 256 * (v / 256 % 256 ^ n) := by rw [pow_succ', Nat.mod_mul]
    rw [leBytes, leNat, ih, BitVec.toNat_ofNat, e]

theorem leNat_lt (bs : List Byte) : leNat bs < 256 ^ bs.length := by
  induction bs with
  | nil => simp [leNat]
  | cons b bs ih =>
    have := b.isLt
    simp only [leNat, List.length_cons, pow_succ']
    omega

/-- Horner's sum of fields of base `B`, the first at the lowest power. -/
def fieldSum (B : Nat) : List Nat → Nat
  | [] => 0
  | x :: xs => x + B * fieldSum B xs

theorem fieldSum_digit (B : Nat) (xs : List Nat) (hx : ∀ x ∈ xs, x < B) (k : Nat) (hk : k < xs.length) :
    fieldSum B xs / B ^ k % B = xs[k] := by
  induction xs generalizing k with
  | nil => simp at hk
  | cons x xs ih =>
    have hxB : x < B := hx x (by simp)
    have hB : 0 < B := by omega
    cases k with
    | zero => simp [fieldSum, Nat.mod_eq_of_lt hxB]
    | succ k =>
      rw [fieldSum, pow_succ', ← Nat.div_div_eq_div_mul, Nat.add_mul_div_left _ _ hB, Nat.div_eq_of_lt hxB, Nat.zero_add]
      exact ih (fun y hy => hx y (by simp [hy])) k (by simpa using hk)

theorem fieldSum_lt (B : Nat) (xs : List Nat) (hx : ∀ x ∈ xs, x < B) : fieldSum B xs < B ^ xs.length := by
  induction xs with
  | nil => simp [fieldSum]
  | cons x xs ih =>
    have h1 := hx x (by simp)
    have h2 := ih fun y hy => hx y (by simp [hy])
    simp only [fieldSum, List.length_cons, pow_succ']
    calc x + B * fieldSum B xs < B + B * fieldSum B xs := by omega
      _ = B * (fieldSum B xs + 1) := by ring
      _ ≤ B * B ^ xs.length := Nat.mul_le_mul_left _ h2

theorem packFields_eq_fieldSum {w : Nat} (f : Fin 16 → BitVec w) :
    packFields f = fieldSum (2 ^ w) (tileIndices.map fun k => (f k).toNat) := by
  have e : tileIndices = [0, 1, 2, 3, 4, 5, 6, 7, 8, 9, 10, 11, 12, 13, 14, 15] := by decide
  simp only [packFields, e, List.map_cons, List.map_nil, List.sum_cons, List.sum_nil, fieldSum]
  generalize 2 ^ w = B
  norm_num
  ring

/-- A packed word of sixteen fields fits its width. -/
theorem packFields_lt {w : Nat} (f : Fin 16 → BitVec w) : packFields f < 2 ^ (16 * w) := by
  rw [packFields_eq_fieldSum]
  have h := fieldSum_lt (2 ^ w) (tileIndices.map fun k => (f k).toNat) 
    (by simp only [List.mem_map]; rintro x ⟨k, -, rfl⟩; exact (f k).isLt)
  have hl : (tileIndices.map fun k => (f k).toNat).length = 16 := by simp [tileIndices]
  rwa [hl, ← pow_mul, Nat.mul_comm] at h

/-- Field `k` of a packed word is the field that was packed at `k`. -/
theorem fieldAt_packFields {w : Nat} (f : Fin 16 → BitVec w) (k : Fin 16) :
    fieldAt w (BitVec.ofNat (16 * w) (packFields f)) k = f k := by
  apply BitVec.eq_of_toNat_eq
  have hl : k.val < (tileIndices.map fun k => (f k).toNat).length := by simp [tileIndices]
  rw [fieldAt, BitVec.extractLsb'_toNat, BitVec.toNat_ofNat, Nat.mod_eq_of_lt (packFields_lt f), Nat.shiftRight_eq_div_pow,
    packFields_eq_fieldSum, pow_mul,
    fieldSum_digit (2 ^ w) _ (by simp only [List.mem_map]; rintro x ⟨k, -, rfl⟩; exact (f k).isLt) k.val hl]
  simp [tileIndices]

@[simp] theorem colorBlockBytes_length (b : ColorBlock) : (colorBlockBytes b).length = 8 := by simp [colorBlockBytes]

@[simp] theorem alphaBlockBytes_length (b : AlphaBlock) : (alphaBlockBytes b).length = 8 := by simp [alphaBlockBytes]

@[simp] theorem alpha4Bytes_length (aw : BitVec 64) : (alpha4Bytes aw).length = 8 := by simp [alpha4Bytes]

end Sys2Proof.Machine
end

