-- ==== Sys2Proof/Laws/Memory.lean ====
section
/-! SUPPORT. The laws of the byte memories: reading after writing, the canonical form, bounds, and that two canonical
memories that read alike are equal. -/

namespace Sys2Proof.Machine

open Sys2Proof

theorem read_write (a x : Nat) (v : Byte) (m : Memory) :
    Memory.read x (Memory.write a v m) = if x = a then some v else Memory.read x m := by
  induction m with
  | nil => simp only [Memory.write, Memory.read, eq_comm]
  | cons c m ih =>
    obtain ⟨y, b⟩ := c
    simp only [Memory.write]
    split
    · simp only [Memory.read]; split <;> simp_all [eq_comm]
    · split
      · subst_vars; simp only [Memory.read]; split <;> simp_all [eq_comm]
      · simp only [Memory.read, ih]; split <;> split <;> simp_all

@[simp] theorem read_write_same (a : Nat) (v : Byte) (m : Memory) :
    Memory.read a (Memory.write a v m) = some v := by simp [read_write]

theorem read_write_other {a x : Nat} (v : Byte) (m : Memory) (h : x ≠ a) :
    Memory.read x (Memory.write a v m) = Memory.read x m := by simp [read_write, h]

/-! ### The canonical form -/

theorem wf_cons {x : Nat} {b : Byte} {m : Memory} :
    Memory.wf ((x, b) :: m) = true ↔ Memory.wf m = true ∧ ∀ c ∈ m, x < c.1 := by
  induction m generalizing x b with
  | nil => simp [Memory.wf]
  | cons c m ih =>
    obtain ⟨y, b'⟩ := c
    simp only [Memory.wf, Bool.and_eq_true, decide_eq_true_eq]
    constructor
    · rintro ⟨hxy, h⟩
      refine ⟨h, fun c hc => ?_⟩
      rcases List.mem_cons.mp hc with rfl | hc
      · exact hxy
      · exact lt_trans hxy ((ih.mp h).2 c hc)
    · rintro ⟨h, hall⟩
      exact ⟨hall (y, b') (by simp), h⟩

theorem mem_write {a : Nat} {v : Byte} {m : Memory} {c : Host.Cell} (h : c ∈ Memory.write a v m) :
    c = (a, v) ∨ c ∈ m := by
  induction m with
  | nil => simp_all [Memory.write]
  | cons d m ih =>
    obtain ⟨y, b⟩ := d
    simp only [Memory.write] at h
    split at h
    · simpa using h
    · split at h
      · rcases List.mem_cons.mp h with rfl | h <;> simp_all
      · rcases List.mem_cons.mp h with rfl | h
        · simp
        · rcases ih h with rfl | h <;> simp_all

/-- A write keeps the canonical form. -/
theorem write_wf {m : Memory} (a : Nat) (v : Byte) (h : Memory.wf m = true) :
    Memory.wf (Memory.write a v m) = true := by
  induction m with
  | nil => rfl
  | cons d m ih =>
    obtain ⟨y, b⟩ := d
    have hy := wf_cons.mp h
    simp only [Memory.write]
    split
    · rename_i hlt
      refine wf_cons.mpr ⟨h, fun c hc => ?_⟩
      rcases List.mem_cons.mp hc with rfl | hc
      · exact hlt
      · exact lt_trans hlt (hy.2 c hc)
    · split
      · rename_i he
        subst he
        exact wf_cons.mpr hy
      · refine wf_cons.mpr ⟨ih hy.1, fun c hc => ?_⟩
        rcases mem_write hc with rfl | hc
        · simp only; omega
        · exact hy.2 c hc

/-- Writing a list of cells keeps the canonical form. -/
theorem writeAll_wf {m : Memory} (cells : List Host.Cell) (h : Memory.wf m = true) :
    Memory.wf (Memory.writeAll m cells) = true := by
  induction cells generalizing m with
  | nil => exact h
  | cons c cells ih => exact ih (write_wf c.1 c.2 h)

theorem reset_memories_wf : Memory.wf State.reset.inMem = true ∧ Memory.wf State.reset.outMem = true := ⟨rfl, rfl⟩

/-- What a memory lists after writing cells is listed before or is one of the cells. -/
theorem mem_writeAll {m : Memory} {cells : List Host.Cell} {c : Host.Cell} (h : c ∈ Memory.writeAll m cells) :
    c ∈ cells ∨ c ∈ m := by
  induction cells generalizing m with
  | nil => exact .inr h
  | cons d cells ih =>
    rcases ih (m := Memory.write d.1 d.2 m) h with h | h
    · exact .inl (List.mem_cons_of_mem _ h)
    · rcases mem_write h with rfl | h
      · exact .inl (by simp)
      · exact .inr h

/-! ### Reading -/

theorem read_none_of_lt {m : Memory} {x : Nat} (h : ∀ c ∈ m, x < c.1) : Memory.read x m = none := by
  induction m with
  | nil => rfl
  | cons d m ih =>
    obtain ⟨y, b⟩ := d
    have hy := h (y, b) (by simp)
    simp only [Memory.read]
    rw [if_neg (by simp only at hy; omega)]
    exact ih fun c hc => h c (by simp [hc])

/-- A defined byte is listed. -/
theorem mem_of_read {m : Memory} {x : Nat} {b : Byte} (h : Memory.read x m = some b) : (x, b) ∈ m := by
  induction m with
  | nil => simp [Memory.read] at h
  | cons d m ih =>
    obtain ⟨y, b'⟩ := d
    simp only [Memory.read] at h
    split at h
    · simp_all
    · exact List.mem_cons_of_mem _ (ih h)

/-- In a canonical memory a listed byte is what its address reads as. -/
theorem read_of_mem {m : Memory} {x : Nat} {b : Byte} (hm : Memory.wf m = true) (h : (x, b) ∈ m) :
    Memory.read x m = some b := by
  induction m with
  | nil => simp at h
  | cons d m ih =>
    obtain ⟨y, b'⟩ := d
    have hy := wf_cons.mp hm
    simp only [Memory.read]
    rcases List.mem_cons.mp h with he | h
    · cases he; simp
    · rw [if_neg (by have := hy.2 _ h; simp only at this; omega)]
      exact ih hy.1 h

/-- Equal memories are equal data: two canonical memories that read alike at every address are equal. -/
theorem memory_ext {m m' : Memory} (hm : Memory.wf m = true) (hm' : Memory.wf m' = true)
    (h : ∀ x, Memory.read x m = Memory.read x m') : m = m' := by
  induction m generalizing m' with
  | nil =>
    cases m' with
    | nil => rfl
    | cons c m' => have := h c.1; simp [Memory.read] at this
  | cons c m ih =>
    cases m' with
    | nil => have := h c.1; simp [Memory.read] at this
    | cons c' m' =>
      obtain ⟨x, b⟩ := c
      obtain ⟨x', b'⟩ := c'
      have hx := wf_cons.mp hm
      have hx' := wf_cons.mp hm'
      have e1 : (x, b) ∈ (x', b') :: m' := mem_of_read ((h x).symm.trans (by simp [Memory.read]))
      have e2 : (x', b') ∈ (x, b) :: m := mem_of_read ((h x').trans (by simp [Memory.read]))
      have hxx : x = x' := by
        rcases List.mem_cons.mp e1 with e | e
        · exact (Prod.mk.injEq .. ▸ e).1
        · rcases List.mem_cons.mp e2 with e' | e'
          · exact ((Prod.mk.injEq .. ▸ e').1).symm
          · have := hx'.2 _ e; have := hx.2 _ e'; simp only at *; omega
      subst hxx
      have hb : b = b' := by have := h x; simpa [Memory.read] using this
      subst hb
      congr 1
      refine ih hx.1 hx'.1 fun y => ?_
      by_cases hy : x = y
      · subst hy; rw [read_none_of_lt hx.2, read_none_of_lt hx'.2]
      · have := h y; simpa [Memory.read, hy] using this

/-! ### Consecutive cells -/

@[simp] theorem cellsAt_length (a : Nat) (bs : List Byte) : (cellsAt a bs).length = bs.length := by
  induction bs generalizing a with
  | nil => rfl
  | cons b bs ih => simp [cellsAt, ih]

theorem mem_cellsAt {a : Nat} {bs : List Byte} {c : Host.Cell} (h : c ∈ cellsAt a bs) :
    a ≤ c.1 ∧ c.1 < a + bs.length := by
  induction bs generalizing a with
  | nil => simp [cellsAt] at h
  | cons b bs ih =>
    rcases List.mem_cons.mp h with rfl | h
    · simp
    · have := ih h; simp only [List.length_cons]; omega

/-- Cells that do not hold an address leave it as it reads. -/
theorem read_writeAll_other {m : Memory} {cells : List Host.Cell} {x : Nat} (h : ∀ c ∈ cells, c.1 ≠ x) :
    Memory.read x (Memory.writeAll m cells) = Memory.read x m := by
  induction cells generalizing m with
  | nil => rfl
  | cons d cells ih =>
    have := ih (m := Memory.write d.1 d.2 m) fun c hc => h c (by simp [hc])
    exact this.trans (read_write_other _ _ (h d (by simp)).symm)

/-- After writing bytes at consecutive addresses, each reads as written and every other address as before. -/
theorem read_writeAll_cellsAt (m : Memory) (a x : Nat) (bs : List Byte) :
    Memory.read x (Memory.writeAll m (cellsAt a bs)) =
      if a ≤ x ∧ x < a + bs.length then bs[x - a]? else Memory.read x m := by
  induction bs generalizing a m with
  | nil => simp [cellsAt, Memory.writeAll]
  | cons b bs ih =>
    have e : Memory.writeAll m (cellsAt a (b :: bs)) = Memory.writeAll (Memory.write a b m) (cellsAt (a + 1) bs) := rfl
    rw [e, ih, read_write]
    simp only [List.length_cons]
    by_cases h : x = a
    · subst h; simp
    · by_cases h2 : a + 1 ≤ x ∧ x < a + 1 + bs.length
      · rw [if_pos h2, if_pos (by omega), show x - a = (x - (a + 1)) + 1 by omega, List.getElem?_cons_succ]
      · rw [if_neg h2, if_neg h, if_neg (by omega)]

end Sys2Proof.Machine
end

