-- ==== Sys2Proof/Laws/State.lean ====
section
/-! SUPPORT. One lemma per field per update of the state, and the STATUS fields of the four STATUS words. -/

namespace Sys2Proof.Machine

open Sys2Proof

/-! ### startCommand -/

@[simp] theorem startCommand_cmd (v : Word) (s : State) : (startCommand v s).cmd = v := rfl
@[simp] theorem startCommand_width (v : Word) (s : State) : (startCommand v s).width = s.width := rfl
@[simp] theorem startCommand_height (v : Word) (s : State) : (startCommand v s).height = s.height := rfl
@[simp] theorem startCommand_srcLen (v : Word) (s : State) : (startCommand v s).srcLen = s.srcLen := rfl
@[simp] theorem startCommand_status (v : Word) (s : State) : (startCommand v s).status = statusBusy := rfl
@[simp] theorem startCommand_result (v : Word) (s : State) : (startCommand v s).result = 0 := rfl
@[simp] theorem startCommand_inMem (v : Word) (s : State) : (startCommand v s).inMem = s.inMem := rfl
@[simp] theorem startCommand_outMem (v : Word) (s : State) : (startCommand v s).outMem = [] := rfl
@[simp] theorem startCommand_lat (v : Word) (s : State) : (startCommand v s).lat = { cmd := v, width := s.width, height := s.height, srcLen := s.srcLen } := rfl
@[simp] theorem startCommand_blk (v : Word) (s : State) : (startCommand v s).blk = 0 := rfl
@[simp] theorem startCommand_doneBlocks (v : Word) (s : State) : (startCommand v s).doneBlocks = [] := rfl
@[simp] theorem startCommand_tile (v : Word) (s : State) : (startCommand v s).tile = s.tile := rfl
@[simp] theorem startCommand_turns (v : Word) (s : State) : (startCommand v s).turns = s.turns := rfl
@[simp] theorem startCommand_reads (v : Word) (s : State) : (startCommand v s).reads = s.reads := rfl
@[simp] theorem startCommand_draws (v : Word) (s : State) : (startCommand v s).draws = s.draws + 1 := rfl

/-! ### finish -/

@[simp] theorem finish_cmd (r : Nat) (s : State) : (finish r s).cmd = s.cmd := rfl
@[simp] theorem finish_width (r : Nat) (s : State) : (finish r s).width = s.width := rfl
@[simp] theorem finish_height (r : Nat) (s : State) : (finish r s).height = s.height := rfl
@[simp] theorem finish_srcLen (r : Nat) (s : State) : (finish r s).srcLen = s.srcLen := rfl
@[simp] theorem finish_status (r : Nat) (s : State) : (finish r s).status = statusDone := rfl
@[simp] theorem finish_result (r : Nat) (s : State) : (finish r s).result = BitVec.ofNat 32 r := rfl
@[simp] theorem finish_inMem (r : Nat) (s : State) : (finish r s).inMem = s.inMem := rfl
@[simp] theorem finish_outMem (r : Nat) (s : State) : (finish r s).outMem = s.outMem := rfl
@[simp] theorem finish_lat (r : Nat) (s : State) : (finish r s).lat = s.lat := rfl
@[simp] theorem finish_blk (r : Nat) (s : State) : (finish r s).blk = s.blk := rfl
@[simp] theorem finish_doneBlocks (r : Nat) (s : State) : (finish r s).doneBlocks = [] := rfl
@[simp] theorem finish_tile (r : Nat) (s : State) : (finish r s).tile = s.tile := rfl
@[simp] theorem finish_turns (r : Nat) (s : State) : (finish r s).turns = s.turns := rfl
@[simp] theorem finish_reads (r : Nat) (s : State) : (finish r s).reads = s.reads := rfl
@[simp] theorem finish_draws (r : Nat) (s : State) : (finish r s).draws = s.draws := rfl

/-! ### raiseError -/

@[simp] theorem raiseError_cmd (e : ErrorCode) (s : State) : (raiseError e s).cmd = s.cmd := rfl
@[simp] theorem raiseError_width (e : ErrorCode) (s : State) : (raiseError e s).width = s.width := rfl
@[simp] theorem raiseError_height (e : ErrorCode) (s : State) : (raiseError e s).height = s.height := rfl
@[simp] theorem raiseError_srcLen (e : ErrorCode) (s : State) : (raiseError e s).srcLen = s.srcLen := rfl
@[simp] theorem raiseError_status (e : ErrorCode) (s : State) : (raiseError e s).status = statusError e := rfl
@[simp] theorem raiseError_result (e : ErrorCode) (s : State) : (raiseError e s).result = 0 := rfl
@[simp] theorem raiseError_inMem (e : ErrorCode) (s : State) : (raiseError e s).inMem = s.inMem := rfl
@[simp] theorem raiseError_outMem (e : ErrorCode) (s : State) : (raiseError e s).outMem = s.outMem := rfl
@[simp] theorem raiseError_lat (e : ErrorCode) (s : State) : (raiseError e s).lat = s.lat := rfl
@[simp] theorem raiseError_blk (e : ErrorCode) (s : State) : (raiseError e s).blk = s.blk := rfl
@[simp] theorem raiseError_doneBlocks (e : ErrorCode) (s : State) : (raiseError e s).doneBlocks = [] := rfl
@[simp] theorem raiseError_tile (e : ErrorCode) (s : State) : (raiseError e s).tile = s.tile := rfl
@[simp] theorem raiseError_turns (e : ErrorCode) (s : State) : (raiseError e s).turns = s.turns := rfl
@[simp] theorem raiseError_reads (e : ErrorCode) (s : State) : (raiseError e s).reads = s.reads := rfl
@[simp] theorem raiseError_draws (e : ErrorCode) (s : State) : (raiseError e s).draws = s.draws := rfl

/-! ### observe -/

@[simp] theorem observe_cmd (o : Observed) (s : State) : (observe o s).cmd = s.cmd := rfl
@[simp] theorem observe_width (o : Observed) (s : State) : (observe o s).width = s.width := rfl
@[simp] theorem observe_height (o : Observed) (s : State) : (observe o s).height = s.height := rfl
@[simp] theorem observe_srcLen (o : Observed) (s : State) : (observe o s).srcLen = s.srcLen := rfl
@[simp] theorem observe_status (o : Observed) (s : State) : (observe o s).status = s.status := rfl
@[simp] theorem observe_result (o : Observed) (s : State) : (observe o s).result = s.result := rfl
@[simp] theorem observe_inMem (o : Observed) (s : State) : (observe o s).inMem = s.inMem := rfl
@[simp] theorem observe_outMem (o : Observed) (s : State) : (observe o s).outMem = s.outMem := rfl
@[simp] theorem observe_lat (o : Observed) (s : State) : (observe o s).lat = s.lat := rfl
@[simp] theorem observe_blk (o : Observed) (s : State) : (observe o s).blk = s.blk := rfl
@[simp] theorem observe_doneBlocks (o : Observed) (s : State) : (observe o s).doneBlocks = s.doneBlocks := rfl
@[simp] theorem observe_tile (o : Observed) (s : State) : (observe o s).tile = s.tile := rfl
@[simp] theorem observe_turns (o : Observed) (s : State) : (observe o s).turns = s.turns := rfl
@[simp] theorem observe_reads (o : Observed) (s : State) : (observe o s).reads = s.reads ++ [o] := rfl
@[simp] theorem observe_draws (o : Observed) (s : State) : (observe o s).draws = s.draws := rfl

/-! ### advance -/

@[simp] theorem advance_cmd (n : Nat) (cells : List Host.Cell) (tile : TileBuffer) (s : State) : (advance n cells tile s).cmd = s.cmd := rfl
@[simp] theorem advance_width (n : Nat) (cells : List Host.Cell) (tile : TileBuffer) (s : State) : (advance n cells tile s).width = s.width := rfl
@[simp] theorem advance_height (n : Nat) (cells : List Host.Cell) (tile : TileBuffer) (s : State) : (advance n cells tile s).height = s.height := rfl
@[simp] theorem advance_srcLen (n : Nat) (cells : List Host.Cell) (tile : TileBuffer) (s : State) : (advance n cells tile s).srcLen = s.srcLen := rfl
@[simp] theorem advance_status (n : Nat) (cells : List Host.Cell) (tile : TileBuffer) (s : State) : (advance n cells tile s).status = s.status := rfl
@[simp] theorem advance_result (n : Nat) (cells : List Host.Cell) (tile : TileBuffer) (s : State) : (advance n cells tile s).result = s.result := rfl
@[simp] theorem advance_inMem (n : Nat) (cells : List Host.Cell) (tile : TileBuffer) (s : State) : (advance n cells tile s).inMem = s.inMem := rfl
@[simp] theorem advance_outMem (n : Nat) (cells : List Host.Cell) (tile : TileBuffer) (s : State) : (advance n cells tile s).outMem = Memory.writeAll s.outMem cells := rfl
@[simp] theorem advance_lat (n : Nat) (cells : List Host.Cell) (tile : TileBuffer) (s : State) : (advance n cells tile s).lat = s.lat := rfl
@[simp] theorem advance_blk (n : Nat) (cells : List Host.Cell) (tile : TileBuffer) (s : State) : (advance n cells tile s).blk = s.blk + 1 := rfl
@[simp] theorem advance_doneBlocks (n : Nat) (cells : List Host.Cell) (tile : TileBuffer) (s : State) : (advance n cells tile s).doneBlocks = insertBlock n s.doneBlocks := rfl
@[simp] theorem advance_tile (n : Nat) (cells : List Host.Cell) (tile : TileBuffer) (s : State) : (advance n cells tile s).tile = tile := rfl
@[simp] theorem advance_turns (n : Nat) (cells : List Host.Cell) (tile : TileBuffer) (s : State) : (advance n cells tile s).turns = s.turns := rfl
@[simp] theorem advance_reads (n : Nat) (cells : List Host.Cell) (tile : TileBuffer) (s : State) : (advance n cells tile s).reads = s.reads := rfl
@[simp] theorem advance_draws (n : Nat) (cells : List Host.Cell) (tile : TileBuffer) (s : State) : (advance n cells tile s).draws = s.draws := rfl

/-! ### resetBtc -/

@[simp] theorem resetBtc_cmd (s : State) : (resetBtc s).cmd = State.reset.cmd := rfl
@[simp] theorem resetBtc_width (s : State) : (resetBtc s).width = State.reset.width := rfl
@[simp] theorem resetBtc_height (s : State) : (resetBtc s).height = State.reset.height := rfl
@[simp] theorem resetBtc_srcLen (s : State) : (resetBtc s).srcLen = State.reset.srcLen := rfl
@[simp] theorem resetBtc_status (s : State) : (resetBtc s).status = State.reset.status := rfl
@[simp] theorem resetBtc_result (s : State) : (resetBtc s).result = State.reset.result := rfl
@[simp] theorem resetBtc_inMem (s : State) : (resetBtc s).inMem = State.reset.inMem := rfl
@[simp] theorem resetBtc_outMem (s : State) : (resetBtc s).outMem = State.reset.outMem := rfl
@[simp] theorem resetBtc_lat (s : State) : (resetBtc s).lat = State.reset.lat := rfl
@[simp] theorem resetBtc_blk (s : State) : (resetBtc s).blk = State.reset.blk := rfl
@[simp] theorem resetBtc_doneBlocks (s : State) : (resetBtc s).doneBlocks = State.reset.doneBlocks := rfl
@[simp] theorem resetBtc_tile (s : State) : (resetBtc s).tile = State.reset.tile := rfl
@[simp] theorem resetBtc_turns (s : State) : (resetBtc s).turns = s.turns := rfl
@[simp] theorem resetBtc_reads (s : State) : (resetBtc s).reads = s.reads := rfl
@[simp] theorem resetBtc_draws (s : State) : (resetBtc s).draws = s.draws := rfl

/-! ### The fields of STATUS -/

theorem busy_def (s : State) : s.busy = s.status.getLsbD 0 := rfl
theorem done_def (s : State) : s.done = s.status.getLsbD 1 := rfl
theorem err_def (s : State) : s.err = s.status.getLsbD 2 := rfl
theorem ecode_def (s : State) : s.ecode = s.status.extractLsb' 8 8 := rfl

theorem statusIdle_busy : statusIdle.getLsbD 0 = false := by decide
theorem statusIdle_done : statusIdle.getLsbD 1 = false := by decide
theorem statusIdle_err : statusIdle.getLsbD 2 = false := by decide
theorem statusIdle_ecode : statusIdle.extractLsb' 8 8 = 0 := by decide
theorem statusBusy_busy : statusBusy.getLsbD 0 = true := by decide
theorem statusBusy_done : statusBusy.getLsbD 1 = false := by decide
theorem statusBusy_err : statusBusy.getLsbD 2 = false := by decide
theorem statusBusy_ecode : statusBusy.extractLsb' 8 8 = 0 := by decide
theorem statusDone_busy : statusDone.getLsbD 0 = false := by decide
theorem statusDone_done : statusDone.getLsbD 1 = true := by decide
theorem statusDone_err : statusDone.getLsbD 2 = false := by decide
theorem statusDone_ecode : statusDone.extractLsb' 8 8 = 0 := by decide
theorem statusError_busy (e : ErrorCode) : (statusError e).getLsbD 0 = false := by cases e <;> decide
theorem statusError_done (e : ErrorCode) : (statusError e).getLsbD 1 = true := by cases e <;> decide
theorem statusError_err (e : ErrorCode) : (statusError e).getLsbD 2 = true := by cases e <;> decide
theorem statusError_ecode (e : ErrorCode) : (statusError e).extractLsb' 8 8 = ecodeOf e := by
  cases e <;> decide
@[simp] theorem startCommand_busy (v : Word) (s : State) : (startCommand v s).busy = true := statusBusy_busy
@[simp] theorem startCommand_done (v : Word) (s : State) : (startCommand v s).done = false := statusBusy_done
@[simp] theorem startCommand_err (v : Word) (s : State) : (startCommand v s).err = false := statusBusy_err
@[simp] theorem startCommand_ecode (v : Word) (s : State) : (startCommand v s).ecode = 0 := statusBusy_ecode
@[simp] theorem finish_busy (r : Nat) (s : State) : (finish r s).busy = false := statusDone_busy
@[simp] theorem finish_done (r : Nat) (s : State) : (finish r s).done = true := statusDone_done
@[simp] theorem finish_err (r : Nat) (s : State) : (finish r s).err = false := statusDone_err
@[simp] theorem finish_ecode (r : Nat) (s : State) : (finish r s).ecode = 0 := statusDone_ecode
@[simp] theorem raiseError_busy (e : ErrorCode) (s : State) : (raiseError e s).busy = false := statusError_busy e
@[simp] theorem raiseError_done (e : ErrorCode) (s : State) : (raiseError e s).done = true := statusError_done e
@[simp] theorem raiseError_err (e : ErrorCode) (s : State) : (raiseError e s).err = true := statusError_err e
@[simp] theorem raiseError_ecode (e : ErrorCode) (s : State) : (raiseError e s).ecode = ecodeOf e := statusError_ecode e
@[simp] theorem reset_busy : State.reset.busy = false := by decide
@[simp] theorem reset_done : State.reset.done = false := by decide
@[simp] theorem reset_err : State.reset.err = false := by decide
@[simp] theorem reset_ecode : State.reset.ecode = 0 := by decide
@[simp] theorem resetBtc_busy (s : State) : (resetBtc s).busy = false := reset_busy
@[simp] theorem resetBtc_done (s : State) : (resetBtc s).done = false := reset_done
@[simp] theorem resetBtc_err (s : State) : (resetBtc s).err = false := reset_err
@[simp] theorem resetBtc_ecode (s : State) : (resetBtc s).ecode = 0 := reset_ecode
@[simp] theorem observe_busy (o : Observed) (s : State) : (observe o s).busy = s.busy := rfl
@[simp] theorem observe_done (o : Observed) (s : State) : (observe o s).done = s.done := rfl
@[simp] theorem observe_err (o : Observed) (s : State) : (observe o s).err = s.err := rfl
@[simp] theorem observe_ecode (o : Observed) (s : State) : (observe o s).ecode = s.ecode := rfl
@[simp] theorem advance_busy (n : Nat) (cells : List Host.Cell) (tile : TileBuffer) (s : State) : (advance n cells tile s).busy = s.busy := rfl
@[simp] theorem advance_done (n : Nat) (cells : List Host.Cell) (tile : TileBuffer) (s : State) : (advance n cells tile s).done = s.done := rfl
@[simp] theorem advance_err (n : Nat) (cells : List Host.Cell) (tile : TileBuffer) (s : State) : (advance n cells tile s).err = s.err := rfl
@[simp] theorem advance_ecode (n : Nat) (cells : List Host.Cell) (tile : TileBuffer) (s : State) : (advance n cells tile s).ecode = s.ecode := rfl

end Sys2Proof.Machine
end

