-- ==== Sys2Proof/Laws/Blocks.lean ====
section
/-! SUPPORT. What the work on blocks can do: the size and place of what is written, and which fields a block, a run over the
remaining blocks and a block step change. -/

namespace Sys2Proof.Machine

open Sys2Proof

@[simp] theorem freeBytes_length (d a n : Nat) : (freeBytes d a n).length = n := by simp [freeBytes]

@[simp] theorem pixelBytes_length (p : Pixel) : (pixelBytes p).length = 4 := rfl

/-- A block has the bytes of its format, under any strategy. -/
@[simp] theorem encBlock_length (c : Config) (fmt : Format) (P : Tile) : (encBlock c fmt P).length = bpb fmt := by
  cases fmt <;> simp [encBlock, bpb]

@[simp] theorem encBytes_length (c : Config) (fmt : Format) (s : State) (n : Nat) :
    (encBytes c fmt s n).length = bpb fmt := by
  unfold encBytes; split <;> simp

theorem bpb_pos (fmt : Format) : 0 < bpb fmt := by cases fmt <;> decide

/-- What ENC writes for block `n` lies in the block's own bytes of OUT. -/
theorem mem_encCells {c : Config} {fmt : Format} {s : State} {n : Nat} {x : Host.Cell} (h : x ∈ encCells c fmt s n) :
    n * bpb fmt ≤ x.1 ∧ x.1 < n * bpb fmt + bpb fmt := by
  simpa using mem_cellsAt h

/-- What DEC writes for block `n` lies in the four bytes of a pixel of the block that is not clipped. -/
theorem mem_decCells {fmt : Format} {s : State} {n : Nat} {x : Host.Cell} (h : x ∈ decCells fmt s n) :
    ∃ k a, scatterAddr s.lat n k = some a ∧ a ≤ x.1 ∧ x.1 < a + 4 := by
  simp only [decCells, List.mem_flatMap] at h
  obtain ⟨k, -, h⟩ := h
  cases ha : scatterAddr s.lat n k with
  | none => simp [ha] at h
  | some a =>
    simp only [ha] at h
    have := mem_cellsAt h
    refine ⟨k, a, ha, this.1, ?_⟩
    have e : (if pixelDefined fmt s.inMem n k = true then
        pixelBytes (decBlock fmt (blockIn fmt s.inMem n))[k] else freeBytes s.draws a 4).length = 4 := by
      split <;> simp
    omega

/-- The addresses ENC writes for a block are the ones `outAddrs` lists. -/
theorem encCells_addrs (c : Config) (fmt : Format) (s : State) (n a : Nat) :
    (∃ x ∈ encCells c fmt s n, x.1 = a) ↔ a ∈ outAddrs .enc fmt s.lat n := by
  have key : ∀ (p : Nat) (bs : List Byte), (∃ x ∈ cellsAt p bs, x.1 = a) ↔ p ≤ a ∧ a < p + bs.length := by
    intro p bs
    induction bs generalizing p with
    | nil => simp [cellsAt]
    | cons b bs ih => simp only [cellsAt, List.mem_cons, exists_eq_or_imp, ih, List.length_cons]; omega
  rw [encCells, key, encBytes_length, outAddrs, List.mem_map]
  constructor
  · intro h; exact ⟨a - n * bpb fmt, by rw [List.mem_range]; omega, by omega⟩
  · rintro ⟨i, hi, rfl⟩; rw [List.mem_range] at hi; omega

/-- Where a tile can be gathered, what ENC leaves in the tile buffer is that tile. -/
theorem encScratch_of_gather {s : State} {n : Nat} {P : Tile} (h : gatherTile s.lat s.inMem n = some P) :
    encScratch s n = P := by
  simp only [gatherTile] at h
  split at h
  · rename_i hd
    rw [← Option.some.inj h]
    refine Vector.ext fun k hk => ?_
    have hs := List.all_eq_true.mp hd ⟨k, hk⟩ (List.mem_finRange _)
    obtain ⟨p, hp⟩ := Option.isSome_iff_exists.mp hs
    simp [encScratch, hp]
  · cases h

/-- Where every byte of block `n` that its pixels are made from is defined, what DEC leaves in the tile buffer is the
decoded tile. -/
theorem decScratch_of_defined {fmt : Format} {s : State} {n : Nat}
    (h : ∀ k, pixelDefined fmt s.inMem n k = true) : decScratch fmt s n = decBlock fmt (blockIn fmt s.inMem n) := by
  refine Vector.ext fun k hk => ?_
  simp [decScratch, h]

/-! ### Frames -/

/-- What the work on one block leaves alone: all but OUT, the cursor, the done blocks and the tile buffer. -/
structure BlockFrame (s t : State) : Prop extends SameInputs s t where
  status : t.status = s.status
  result : t.result = s.result

theorem SameInputs.refl (s : State) : SameInputs s s := ⟨rfl, rfl, rfl, rfl, rfl, rfl, rfl, rfl, rfl⟩

theorem SameInputs.trans {s t u : State} (h : SameInputs s t) (g : SameInputs t u) : SameInputs s u :=
  ⟨g.cmd.trans h.cmd, g.width.trans h.width, g.height.trans h.height, g.srcLen.trans h.srcLen, g.lat.trans h.lat,
    g.inMem.trans h.inMem, g.turns.trans h.turns, g.reads.trans h.reads, g.draws.trans h.draws⟩

theorem BlockFrame.refl (s : State) : BlockFrame s s := ⟨SameInputs.refl s, rfl, rfl⟩

theorem BlockFrame.trans {s t u : State} (h : BlockFrame s t) (g : BlockFrame t u) : BlockFrame s u :=
  ⟨h.toSameInputs.trans g.toSameInputs, g.status.trans h.status, g.result.trans h.result⟩

theorem advance_frame (n : Nat) (cells : List Host.Cell) (tile : TileBuffer) (s : State) :
    BlockFrame s (advance n cells tile s) := ⟨⟨rfl, rfl, rfl, rfl, rfl, rfl, rfl, rfl, rfl⟩, rfl, rfl⟩

theorem encOne_frame (c : Config) (fmt : Format) (s : State) (n : Nat) : BlockFrame s (encOne c fmt s n) :=
  advance_frame _ _ _ _

theorem decOne_frame (fmt : Format) (s : State) (n : Nat) : BlockFrame s (decOne fmt s n) := advance_frame _ _ _ _

theorem finish_sameInputs (r : Nat) (s : State) : SameInputs s (finish r s) :=
  ⟨rfl, rfl, rfl, rfl, rfl, rfl, rfl, rfl, rfl⟩

theorem raiseError_sameInputs (e : ErrorCode) (s : State) : SameInputs s (raiseError e s) :=
  ⟨rfl, rfl, rfl, rfl, rfl, rfl, rfl, rfl, rfl⟩

/-- A fold of block bodies keeps any frame each body keeps. -/
theorem foldl_frame {body : State → Nat → State} (hb : ∀ s n, BlockFrame s (body s n)) (l : List Nat) (s : State) :
    BlockFrame s (l.foldl body s) := by
  induction l generalizing s with
  | nil => exact BlockFrame.refl s
  | cons n l ih => exact (hb s n).trans (ih _)

theorem runBlocks_frame {body : State → Nat → State} (hb : ∀ s n, BlockFrame s (body s n)) (s : State) :
    BlockFrame s (runBlocks body s) := foldl_frame hb _ s

/-- Everything a block step can do: the body's work on an available block or nothing, then the successful end if the cursor
has reached the block count. -/
theorem blockStep_cases (body : State → Nat → State) (result n : Nat) (s : State) :
    ∃ t, ((n < s.lat.blocks ∧ n ∉ s.doneBlocks ∧ t = body s n) ∨
        (¬ (n < s.lat.blocks ∧ n ∉ s.doneBlocks) ∧ t = s)) ∧
      ((t.lat.blocks ≤ t.blk ∧ blockStep body result n s = finish result t) ∨
        (t.blk < t.lat.blocks ∧ blockStep body result n s = t)) := by
  refine ⟨if n < s.lat.blocks ∧ n ∉ s.doneBlocks then body s n else s, ?_, ?_⟩
  · split
    · exact .inl ⟨by tauto, by tauto, rfl⟩
    · exact .inr ⟨by assumption, rfl⟩
  · simp only [blockStep]
    generalize (if n < s.lat.blocks ∧ n ∉ s.doneBlocks then body s n else s) = t
    by_cases h : t.lat.blocks ≤ t.blk
    · exact .inl ⟨h, by simp [h]⟩
    · exact .inr ⟨by omega, by simp [h]⟩

theorem mem_remaining {s : State} {n : Nat} : n ∈ remaining s ↔ n < s.lat.blocks ∧ n ∉ s.doneBlocks := by
  simp [remaining]

theorem mem_insertBlock {n m : Nat} {l : List Nat} : m ∈ insertBlock n l ↔ m = n ∨ m ∈ l := by
  induction l with
  | nil => simp [insertBlock]
  | cons x l ih =>
    simp only [insertBlock]
    split
    · simp
    · split
      · subst_vars; simp
      · simp only [List.mem_cons, ih]; tauto

/-- The set of done blocks stays rising. -/
theorem insertBlock_rising {n : Nat} {l : List Nat} (h : l.Pairwise (· < ·)) : (insertBlock n l).Pairwise (· < ·) := by
  induction l with
  | nil => simp [insertBlock]
  | cons x l ih =>
    have hx := List.pairwise_cons.mp h
    simp only [insertBlock]
    split
    · rename_i hn
      refine List.pairwise_cons.mpr ⟨fun y hy => ?_, h⟩
      rcases List.mem_cons.mp hy with rfl | hy
      · exact hn
      · exact lt_trans hn (hx.1 y hy)
    · split
      · exact h
      · refine List.pairwise_cons.mpr ⟨fun y hy => ?_, ih hx.2⟩
        rcases mem_insertBlock.mp hy with rfl | hy
        · omega
        · exact hx.1 y hy

end Sys2Proof.Machine
end

