-- ==== Sys2Proof/Laws/Checks.lean ====
section
/-! SUPPORT. What the checks of a command decide, and what a checked command can do. -/

namespace Sys2Proof.Machine

open Sys2Proof

/-- The dimension check passes exactly when no dimension is negative and every size the command needs is within
`LEN_MAX`. -/
theorem badDimensions_eq_false_iff (c : Config) (op : Operation) (fmt : Format) (l : Latches) :
    badDimensions c op fmt l = false ↔
      0 ≤ l.width.toInt ∧ 0 ≤ l.height.toInt ∧ cSize fmt l.imageWidth l.imageHeight ≤ c.lenMax ∧
        (op ≠ .size → pSize l.imageWidth l.imageHeight ≤ c.lenMax) := by
  simp only [badDimensions, Latches.signedWidth, Latches.signedHeight, Bool.or_eq_false_iff, Bool.and_eq_false_iff,
    decide_eq_false_iff_not, not_lt, not_not]
  grind

/-- The checks pass exactly on accepted operands. -/
theorem checkOperands_eq_none_iff (c : Config) (op : Operation) (fmt : Format) (l : Latches) :
    checkOperands c op fmt l = none ↔ Accepted c op fmt l := by
  have hd := badDimensions_eq_false_iff c op fmt l
  constructor
  · intro h
    unfold checkOperands at h
    split at h
    · cases h
    · rename_i hb
      obtain ⟨h1, h2, h3, h4⟩ := hd.mp (by simpa using hb)
      refine ⟨h1, h2, h3, h4, ?_, ?_⟩ <;> rintro rfl <;> simp only at h <;> split at h <;>
        first | assumption | cases h
  · rintro ⟨h1, h2, h3, h4, h5, h6⟩
    unfold checkOperands
    rw [hd.mpr ⟨h1, h2, h3, h4⟩]
    cases op
    · rfl
    · exact if_pos (h5 rfl)
    · exact if_pos (h6 rfl)

/-- Everything a checked command can do: end in the error of the first check that fails, or, on accepted operands, its
body. -/
theorem checked_cases (c : Config) (op : Operation) (fmt : Format) (body : State → State) (s : State) :
    (∃ e, checkOperands c op fmt s.lat = some e ∧ checked c op fmt body s = raiseError e s) ∨
      (Accepted c op fmt s.lat ∧ checked c op fmt body s = body s) := by
  unfold checked
  cases h : checkOperands c op fmt s.lat with
  | some e => exact .inl ⟨e, rfl, rfl⟩
  | none => exact .inr ⟨(checkOperands_eq_none_iff ..).mp h, rfl⟩

theorem checked_of_accepted {c : Config} {op : Operation} {fmt : Format} {s : State} (body : State → State)
    (h : Accepted c op fmt s.lat) : checked c op fmt body s = body s := by
  simp [checked, (checkOperands_eq_none_iff ..).mpr h]

end Sys2Proof.Machine
end

