-- ==== Sys2Proof/Laws/PerInstr.lean ====
section
/-! SUPPORT. Statements about every command as syntax, one lemma per command. -/

namespace Sys2Proof.Laws.Fields

open Sys2Proof

/-- The command word of a command has exactly the fields of its operation and format and zeros above them (R60, R62), and
its opcode-table row is read back as the command. -/
def Statement (i : Instr) : Prop :=
  fieldsOf (encode i) = encodeFields i ∧ commandOf i.op i.format = i ∧ i.wellFormed = true ∧
    decodeTableWord 32 (encode i).toNat = some i

theorem sizeBc1 : Statement .sizeBc1 := by unfold Statement; decide
theorem sizeBc2 : Statement .sizeBc2 := by unfold Statement; decide
theorem sizeBc3 : Statement .sizeBc3 := by unfold Statement; decide
theorem encBc1 : Statement .encBc1 := by unfold Statement; decide
theorem encBc2 : Statement .encBc2 := by unfold Statement; decide
theorem encBc3 : Statement .encBc3 := by unfold Statement; decide
theorem decBc1 : Statement .decBc1 := by unfold Statement; decide
theorem decBc2 : Statement .decBc2 := by unfold Statement; decide
theorem decBc3 : Statement .decBc3 := by unfold Statement; decide

end Sys2Proof.Laws.Fields
end

