-- ==== Sys2Proof/Laws/Run.lean ====
section
/-! SUPPORT. What a step can do, said once: the cases of a host move, of the BTC's own step and of a turn. -/

namespace Sys2Proof.Machine

open Sys2Proof

/-- Everything a register write can do. -/
theorem writeRegister_cases (r : Reg) (v : Word) (s : State) :
    (s.busy = true ∧ writeRegister r v s = s) ∨
    (s.busy = false ∧
      ((r = .cmd ∧ writeRegister r v s = startCommand v s) ∨
        (r = .width ∧ writeRegister r v s = { s with width := v }) ∨
        (r = .height ∧ writeRegister r v s = { s with height := v }) ∨
        (r = .srcLen ∧ writeRegister r v s = { s with srcLen := v }) ∨
        ((r = .status ∨ r = .result) ∧ writeRegister r v s = s))) := by
  unfold writeRegister
  cases s.busy <;> cases r <;> simp

/-- Everything a read of OUT can do: a value joins what was read, and the draw counter may move. -/
theorem readOutput_cases (a : Nat) (s : State) :
    (∃ b, s.busy = false ∧ Memory.read a s.outMem = some b ∧ readOutput a s = observe (.byte b) s) ∨
    ((s.busy = true ∨ Memory.read a s.outMem = none) ∧
      readOutput a s = { observe (.byte (Config.freeRead s.draws a)) s with draws := s.draws + 1 }) := by
  unfold readOutput outputByte
  cases s.busy <;> cases Memory.read a s.outMem <;> simp

/-- The moves of the host interface, and only they, give a next state. -/
theorem hostMove_next_iff (c : Config) (m : HostMove) (s : State) :
    (∃ t, hostMove c m s = .next t) ↔ m.wellFormed c = true := by
  cases m with
  | writeReg o n v => simp only [hostMove, HostMove.wellFormed]; cases Reg.ofAccess o n <;> simp
  | readReg o n => simp only [hostMove, HostMove.wellFormed]; cases Reg.ofAccess o n <;> simp
  | writeIn a b => simp only [hostMove, HostMove.wellFormed]; split <;> simp_all
  | readOut a => simp only [hostMove, HostMove.wellFormed]; split <;> simp_all
  | reset => simp [hostMove, HostMove.wellFormed]
  | readIn a => simp [hostMove, HostMove.wellFormed]
  | writeOut a b => simp [hostMove, HostMove.wellFormed]

/-- What a host move that gives a next state does. -/
theorem hostMove_cases {c : Config} {m : HostMove} {s t : State} (h : hostMove c m s = .next t) :
    (∃ o n v r, m = .writeReg o n v ∧ Reg.ofAccess o n = some r ∧ t = writeRegister r v s) ∨
    (∃ o n r, m = .readReg o n ∧ Reg.ofAccess o n = some r ∧ t = observe (.word (readRegister r s)) s) ∨
    (∃ a b, m = .writeIn a b ∧ a < c.lenMax ∧ t = writeInput a b s) ∨
    (∃ a, m = .readOut a ∧ a < c.lenMax ∧ t = readOutput a s) ∨
    (m = .reset ∧ t = resetBtc s) := by
  cases m with
  | writeReg o n v =>
    simp only [hostMove] at h
    split at h
    · rename_i r hr; cases h; exact .inl ⟨o, n, v, r, rfl, hr, rfl⟩
    · cases h
  | readReg o n =>
    simp only [hostMove] at h
    split at h
    · rename_i r hr; cases h; exact .inr (.inl ⟨o, n, r, rfl, hr, rfl⟩)
    · cases h
  | writeIn a b =>
    simp only [hostMove] at h
    split at h
    · rename_i ha; cases h; exact .inr (.inr (.inl ⟨a, b, rfl, ha, rfl⟩))
    · cases h
  | readOut a =>
    simp only [hostMove] at h
    split at h
    · rename_i ha; cases h; exact .inr (.inr (.inr (.inl ⟨a, rfl, ha, rfl⟩)))
    · cases h
  | reset => cases h; exact .inr (.inr (.inr (.inr ⟨rfl, rfl⟩)))
  | readIn a => cases h
  | writeOut a b => cases h

/-- The meaning of a command is the shared command at the parameters of the BTC. -/
theorem exec_eq (i : Instr) (s : State) : exec i s = .next (command btcConfig i s) := by
  cases i <;> rfl

/-- The machine is the machine with any parameters, at the parameters of the BTC. -/
theorem step_eq_stepWith (s : State) : step s = stepWith btcConfig s := by
  have e : exec = fun i s => .next (command btcConfig i s) := by funext i s; exact exec_eq i s
  rw [step, stepWith, e]

/-- Everything the BTC's own step can do: the error of the command word, or the decoded command. -/
theorem runCommand_cases (run : Runner) (s : State) :
    (∃ e, decode s.lat.cmd = .error e ∧ runCommand run s = .next (raiseError e s)) ∨
      ∃ i, decode s.lat.cmd = .ok i ∧ runCommand run s = run i s := by
  unfold runCommand
  cases decode s.lat.cmd with
  | error e => exact .inl ⟨e, rfl, rfl⟩
  | ok i => exact .inr ⟨i, rfl, rfl⟩

/-- Everything the BTC's own block step can do. -/
theorem runBlock_cases (c : Config) (run : Runner) (n : Nat) (s : State) :
    (∃ e, decode s.lat.cmd = .error e ∧ runBlock c run n s = .next (raiseError e s)) ∨
      ∃ i, decode s.lat.cmd = .ok i ∧
        ((i.op = .size ∧ runBlock c run n s = run i s) ∨
          (i.op = .enc ∧ runBlock c run n s = .next (encBlockStep c i.format n s)) ∨
          (i.op = .dec ∧ runBlock c run n s = .next (decBlockStep c i.format n s))) := by
  unfold runBlock
  cases decode s.lat.cmd with
  | error e => exact .inl ⟨e, rfl, rfl⟩
  | ok i => refine .inr ⟨i, rfl, ?_⟩; cases h : i.op <;> simp [h]

/-- Everything a step can do, under any parameters: with no turn waiting the BTC's own step or idleness; else the first
turn, taken off. -/
theorem nextTurn_cases (c : Config) (run : Runner) (s : State) :
    (s.turns = [] ∧ s.busy = false ∧ nextTurn c run s = .next s) ∨
    (s.turns = [] ∧ s.busy = true ∧ nextTurn c run s = runCommand run s) ∨
    ∃ ts, let s' := { s with turns := ts }
      (∃ m, s.turns = .host m :: ts ∧ nextTurn c run s = hostMove c m s') ∨
      (s.turns = .btcRun :: ts ∧ s.busy = true ∧ nextTurn c run s = runCommand run s') ∨
      (∃ n, s.turns = .btcBlock n :: ts ∧ s.busy = true ∧ nextTurn c run s = runBlock c run n s') ∨
      ((s.turns = .btcRun :: ts ∨ ∃ n, s.turns = .btcBlock n :: ts) ∧ s.busy = false ∧
        nextTurn c run s = .next s') := by
  have hb : ∀ ts, State.busy { s with turns := ts } = s.busy := fun _ => rfl
  unfold nextTurn
  cases ht : s.turns with
  | nil => cases hs : s.busy <;> simp [takeTurn, hs]
  | cons t ts =>
    refine .inr (.inr ⟨ts, ?_⟩)
    cases t with
    | host m => exact .inl ⟨m, rfl, rfl⟩
    | btcRun => cases hs : s.busy <;> simp [takeTurn, hb, hs]
    | btcBlock n => cases hs : s.busy <;> simp [takeTurn, hb, hs]

/-- Everything a step of the machine can do. -/
theorem step_cases (s : State) :
    (s.turns = [] ∧ s.busy = false ∧ step s = .next s) ∨
    (s.turns = [] ∧ s.busy = true ∧ step s = runCommand exec s) ∨
    ∃ ts, let s' := { s with turns := ts }
      (∃ m, s.turns = .host m :: ts ∧ step s = hostMove btcConfig m s') ∨
      (s.turns = .btcRun :: ts ∧ s.busy = true ∧ step s = runCommand exec s') ∨
      (∃ n, s.turns = .btcBlock n :: ts ∧ s.busy = true ∧ step s = runBlock btcConfig exec n s') ∨
      ((s.turns = .btcRun :: ts ∨ ∃ n, s.turns = .btcBlock n :: ts) ∧ s.busy = false ∧ step s = .next s') :=
  nextTurn_cases btcConfig exec s

end Sys2Proof.Machine
end

