-- ==== Sys2Proof/Laws/Search.lean ====
section
/-! SUPPORT. What the argmin of the searches returns, and which pairs the colour search tries. -/

namespace Sys2Proof.Machine

open Sys2Proof

theorem mem_tileIndices (k : Fin 16) : k ∈ tileIndices := List.mem_finRange k

/-- The search returns an element it was given. -/
theorem firstLeast_mem {α : Type} (cost : α → Nat) (x : α) (xs : List α) :
    firstLeast cost x xs = x ∨ firstLeast cost x xs ∈ xs := by
  induction xs generalizing x with
  | nil => exact .inl rfl
  | cons y ys ih =>
    simp only [firstLeast]
    split
    · rcases ih y with h | h
      · exact .inr (by simp [h])
      · exact .inr (by simp [h])
    · rcases ih x with h | h
      · exact .inl h
      · exact .inr (by simp [h])

/-- The result costs no more than any element. -/
theorem firstLeast_le {α : Type} (cost : α → Nat) (x : α) (xs : List α) :
    cost (firstLeast cost x xs) ≤ cost x ∧ ∀ y ∈ xs, cost (firstLeast cost x xs) ≤ cost y := by
  induction xs generalizing x with
  | nil => simp [firstLeast]
  | cons y ys ih =>
    simp only [firstLeast, List.mem_cons, forall_eq_or_imp]
    split
    · rename_i h
      have := ih y
      exact ⟨by omega, this.1, this.2⟩
    · rename_i h
      have := ih x
      exact ⟨this.1, by omega, this.2⟩

/-- The result is the first of least cost: it stands somewhere in the list, and every element before it costs more. -/
theorem firstLeast_first {α : Type} (cost : α → Nat) (x : α) (xs : List α) :
    ∃ before after, x :: xs = before ++ firstLeast cost x xs :: after ∧
      ∀ y ∈ before, cost (firstLeast cost x xs) < cost y := by
  induction xs generalizing x with
  | nil => exact ⟨[], [], rfl, by simp⟩
  | cons y ys ih =>
    simp only [firstLeast]
    split
    · rename_i h
      obtain ⟨b, a, e, hb⟩ := ih y
      refine ⟨x :: b, a, by rw [e]; rfl, fun z hz => ?_⟩
      rcases List.mem_cons.mp hz with rfl | hz
      · have := (firstLeast_le cost y ys).1; omega
      · exact hb z hz
    · rename_i h
      obtain ⟨b, a, e, hb⟩ := ih x
      cases b with
      | nil =>
        simp only [List.nil_append, List.cons.injEq] at e
        exact ⟨[], y :: ys, by simp [← e.1], by simp⟩
      | cons z b =>
        simp only [List.cons_append, List.cons.injEq] at e
        obtain ⟨rfl, e⟩ := e
        refine ⟨x :: y :: b, a, by simpa using e, fun u hu => ?_⟩
        have hx := hb x (by simp)
        simp only [List.mem_cons] at hu
        rcases hu with rfl | rfl | hu
        · exact hx
        · omega
        · exact hb u (by simp [hu])

theorem mem_searchPairs {O : List (Fin 16)} {i j : Fin 16} :
    (i, j) ∈ searchPairs O ↔ i ∈ O ∧ j ∈ O ∧ i ≤ j := by
  simp only [searchPairs, List.mem_flatMap, List.mem_map, List.mem_filter, decide_eq_true_eq, Prod.mk.injEq]
  constructor
  · rintro ⟨i', hi, j', ⟨hj, hij⟩, rfl, rfl⟩; exact ⟨hi, hj, hij⟩
  · rintro ⟨hi, hj, hij⟩; exact ⟨i, hi, j, ⟨hj, hij⟩, rfl, rfl⟩

/-- A pixel takes part in the colour search unless the tile is punched through and the pixel is transparent. -/
theorem mem_searchSet {P : Tile} {bc1 : Bool} {k : Fin 16} :
    k ∈ searchSet P bc1 ↔ (punch P bc1 && transparent P[k]) = false := by
  unfold searchSet
  cases punch P bc1 <;> simp [mem_tileIndices]

/-- The colour search returns the block of one of its candidates, unless it has none. -/
theorem encColorBlock_cases (w : Weights) (P : Tile) (bc1 : Bool) :
    (searchSet P bc1 = [] ∧ encColorBlock w P bc1 = { c0 := 0, c1 := 0, cw := 0xFFFFFFFF }) ∨
      ∃ f ∈ colorCandidates w P bc1, encColorBlock w P bc1 = f.block ∧
        ∀ g ∈ colorCandidates w P bc1, f.err ≤ g.err := by
  unfold encColorBlock
  cases h : colorCandidates w P bc1 with
  | nil =>
    refine .inl ⟨?_, rfl⟩
    simp only [colorCandidates, List.map_eq_nil_iff] at h
    by_contra hne
    obtain ⟨k, hk⟩ := List.exists_mem_of_ne_nil _ hne
    have : (k, k) ∈ searchPairs (searchSet P bc1) := mem_searchPairs.mpr ⟨hk, hk, le_refl k⟩
    simp [h] at this
  | cons f fs =>
    refine .inr ⟨firstLeast (·.err) f fs, ?_, rfl, fun g hg => ?_⟩
    · rcases firstLeast_mem (·.err) f fs with e | e <;> simp [e]
    · rcases List.mem_cons.mp hg with rfl | hg
      · exact (firstLeast_le (·.err) g fs).1
      · exact (firstLeast_le (·.err) f fs).2 g hg

end Sys2Proof.Machine
end

