-- ==== Sys2Proof/Machine/HostProgram.lean ====
section
/-! DEFINITION. The textual notation of commands and the pseudo-operations, and the host moves each expands to
(30_encoding.md rule R84). Used to write host programs down; no rule of the machine depends on it. -/

namespace Sys2Proof.Machine

open Sys2Proof

/-- One line of a host program (R84). -/
inductive HostLine where
  | size (fmt : Format) (w h : Word)
  | enc (fmt : Format) (w h len : Word)
  | dec (fmt : Format) (w h len : Word)
  | load (a : Nat) (bytes : List Byte)
  | wait
  | read (n : Nat)
  | cmdw (v : Word)
  | readReg (r : Reg)
  | reset
deriving DecidableEq, Repr

/-- A write of a register by the one access the register block has (R35). -/
def hostWrite (r : Reg) (v : Word) : Turn := .host (.writeReg r.offset 4 v)

/-- A read of a register by the one access the register block has (R35). -/
def hostRead (r : Reg) : Turn := .host (.readReg r.offset 4)

/-- The turns a line expands to (R84). `WAIT` reads STATUS until DONE: the BTC takes its turn first, so the first read
already shows the end; `READ` is a read of each byte of OUT below `n`. -/
def HostLine.turns : HostLine → List Turn
  | .size fmt w h => [hostWrite .width w, hostWrite .height h, hostWrite .cmd (encode (commandOf .size fmt))]
  | .enc fmt w h len =>
    [hostWrite .width w, hostWrite .height h, hostWrite .srcLen len, hostWrite .cmd (encode (commandOf .enc fmt))]
  | .dec fmt w h len =>
    [hostWrite .width w, hostWrite .height h, hostWrite .srcLen len, hostWrite .cmd (encode (commandOf .dec fmt))]
  | .load a bytes => bytes.mapIdx fun i b => .host (.writeIn (a + i) b)
  | .wait => [.btcRun, hostRead .status]
  | .read n => (List.range n).map fun a => .host (.readOut a)
  | .cmdw v => [hostWrite .cmd v]
  | .readReg r => [hostRead r]
  | .reset => [.host .reset]

/-- The turns of a host program, line after line (R239). -/
def programTurns (p : List HostLine) : List Turn := p.flatMap HostLine.turns

end Sys2Proof.Machine
end

