-- ==== Sys2Proof/Tests/Slice0.lean ====
section
/-! SUPPORT. Tests of one step or one operation each, expected values from the spec's worked examples and test vectors
(95_test_vectors.md, cited by label), and a witness for the hypotheses of each statement. -/

namespace Sys2Proof.Tests

open Sys2Proof Sys2Proof.Machine

/-- A machine whose command has just been started on given operands and input bytes from address 0. -/
def started (word w h len : Word) (input : List Byte) : State :=
  startCommand word { State.reset with width := w, height := h, srcLen := len, inMem := cellsAt 0 input }

/-- The state after one step, or the same state where the step stops. -/
def after (s : State) : State :=
  match step s with
  | .next t => t
  | _ => s

/-- The machine after reset with turns to come. -/
def facing (ts : List Turn) : State := { State.reset with turns := ts }

/-- A tile of sixteen equal pixels. -/
def flatTile (p : Pixel) : Tile := Vector.ofFn fun _ => p

def red : Pixel := { r := 255, g := 0, b := 0, a := 255 }

def clear : Pixel := { r := 10, g := 20, b := 30, a := 0 }

/-- The latches of operands (for the checks). -/
def operands (word w h len : Word) : Latches := { cmd := word, width := w, height := h, srcLen := len }

/-! ### Well-formedness: an ill-formed term for each check -/

theorem test_wf_config_ok : btcConfig.wellFormed = true := by decide
theorem test_wf_config_lenMax_small : Config.wellFormed { btcConfig with lenMax := 15 } = false := by decide
theorem test_wf_config_lenMax_large : Config.wellFormed { btcConfig with lenMax := 2 ^ 32 } = false := by decide
theorem test_wf_weights_zero : Weights.wellFormed { r := 0, g := 4, b := 1 } = false := by decide
theorem test_wf_weights_zero_blue : Weights.wellFormed { r := 2, g := 4, b := 0 } = false := by decide
theorem test_wf_weights_green_not_largest : Weights.wellFormed { r := 4, g := 4, b := 1 } = false := by decide
theorem test_wf_weights_blue_largest : Weights.wellFormed { r := 2, g := 4, b := 5 } = false := by decide
theorem test_wf_word_zero_field : CommandWord.wellFormed { op := 2, fmt := 0, zero := 1 } = false := by decide
theorem test_wf_word_op : CommandWord.wellFormed { op := 1, fmt := 0, zero := 0 } = false := by decide
theorem test_wf_word_fmt : CommandWord.wellFormed { op := 2, fmt := 3, zero := 0 } = false := by decide
theorem test_wf_move_offset : HostMove.wellFormed btcConfig (.writeReg 0x18 4 0) = false := by decide
theorem test_wf_move_misaligned : HostMove.wellFormed btcConfig (.readReg 0x02 4) = false := by decide
theorem test_wf_move_width : HostMove.wellFormed btcConfig (.readReg 0x10 2) = false := by decide
theorem test_wf_move_in_address : HostMove.wellFormed btcConfig (.writeIn (2 ^ 32 - 1) 0) = false := by decide
theorem test_wf_move_out_address : HostMove.wellFormed btcConfig (.readOut (2 ^ 32 - 1)) = false := by decide
theorem test_wf_move_read_in : HostMove.wellFormed btcConfig (.readIn 0) = false := by decide
theorem test_wf_move_write_out : HostMove.wellFormed btcConfig (.writeOut 0 0) = false := by decide

/-! ### Decoding: words written out from the fields of R60 to R62 -/

theorem test_decode_sizeBc1 : decode 0b0000000000000000_00000000_00000010 = .ok .sizeBc1 := by decide
theorem test_decode_sizeBc2 : decode 0b0000000000000000_00000001_00000010 = .ok .sizeBc2 := by decide
theorem test_decode_sizeBc3 : decode 0b0000000000000000_00000010_00000010 = .ok .sizeBc3 := by decide
theorem test_decode_encBc1 : decode 0b0000000000000000_00000000_00000011 = .ok .encBc1 := by decide
theorem test_decode_encBc2 : decode 0b0000000000000000_00000001_00000011 = .ok .encBc2 := by decide
theorem test_decode_encBc3 : decode 0b0000000000000000_00000010_00000011 = .ok .encBc3 := by decide
theorem test_decode_decBc1 : decode 0b0000000000000000_00000000_00000100 = .ok .decBc1 := by decide
theorem test_decode_decBc2 : decode 0b0000000000000000_00000001_00000100 = .ok .decBc2 := by decide
theorem test_decode_decBc3 : decode 0b0000000000000000_00000010_00000100 = .ok .decBc3 := by decide
theorem test_decode_fmt3 : decode 0x00000302 = .error .eFormat := by decide
theorem test_decode_fmt255 : decode 0x0000FF04 = .error .eFormat := by decide
theorem test_decode_zero_field : decode 0x00010002 = .error .eOp := by decide
theorem test_decode_compress : decode 0x00000000 = .error .eOp := by decide
theorem test_decode_op_before_format : decode 0x00000705 = .error .eOp := by decide

/-! ### Steps of the nine commands -/

/-- R110's example: SIZE.BC1 5, 5 is 32. -/
theorem test_step_sizeBc1 : (after (started 0x002 5 5 0 [])).result = 32 := by decide
/-- R111: 65536 by 65536 exceeds `LEN_MAX`: `E_DIM`. -/
theorem test_step_sizeBc2 : (after (started 0x102 65536 65536 0 [])).status = 0x0306 := by decide
/-- R112's example: SIZE.BC3 256, 128 is 32768. -/
theorem test_step_sizeBc3 : (after (started 0x202 256 128 0 [])).result = 32768 := by decide
/-- E5 on a clamped 1 by 1 image: a tile of transparent pixels. -/
theorem test_step_encBc1 :
    (after (started 0x003 1 1 4 [10, 20, 30, 0])).outMem = cellsAt 0 [0, 0, 0, 0, 255, 255, 255, 255] := by decide +kernel
/-- The check table: ENC 5, 1 with length 16 is `E_PIXLEN`. -/
theorem test_step_encBc1_length : (after (started 0x003 5 1 16 [])).status = 0x0406 := by decide
/-- E1 on a clamped 1 by 1 image: solid red. -/
theorem test_step_encBc2 : (after (started 0x103 1 1 4 [255, 0, 0, 255])).outMem =
    cellsAt 0 [255, 255, 255, 255, 255, 255, 255, 255, 0x00, 0xF8, 0x00, 0xF8, 0, 0, 0, 0] := by decide +kernel
/-- The check table: an empty image with length 4 is `E_PIXLEN`. -/
theorem test_step_encBc3 : (after (started 0x203 0 9 4 [])).status = 0x0406 := by decide
/-- DV2's first pixel, the rest clipped: endpoints in rising order. -/
theorem test_step_decBc1 : (after (started 0x004 1 1 8 [0x1F, 0x00, 0x00, 0xF8, 0xE4, 0xE4, 0x1B, 0x1B])).outMem =
    cellsAt 0 [0x00, 0x00, 0xFF, 0xFF] := by decide +kernel
/-- The check table: DEC.BC1 with length 9 is `E_DATALEN`, not a truncation to 8. -/
theorem test_step_decBc1_length : (after (started 0x004 4 4 9 [])).status = 0x0506 := by decide
/-- The check table: a negative width is `E_DIM` before any length. -/
theorem test_step_decBc2 : (after (started 0x104 0xFFFFFFFF 1 5 [])).status = 0x0306 := by decide
/-- The check table: DEC.BC3 2, 2 with length 8 is `E_DATALEN`. -/
theorem test_step_decBc3 : (after (started 0x204 2 2 8 [])).status = 0x0506 := by decide

/-- A placed command is the first thing a step runs. -/
theorem test_withFetchWord : step (State.reset.withFetchWord 32 0x103) = exec .encBc2 (State.reset.withFetchWord 32 0x103) :=
  rfl

/-! ### Blocks, palettes, quantisation -/

/-- DV2, pixel 2: the midpoint of the 3-colour mode. -/
theorem test_decBc1_midpoint : (decBc1 [0x1F, 0x00, 0x00, 0xF8, 0xE4, 0xE4, 0x1B, 0x1B])[2] =
    { r := 0x7F, g := 0x00, b := 0x7F, a := 0xFF } := by decide +kernel
/-- DV2, pixel 8: index 3 of the 3-colour mode. -/
theorem test_decBc1_transparent : (decBc1 [0x1F, 0x00, 0x00, 0xF8, 0xE4, 0xE4, 0x1B, 0x1B])[8] =
    { r := 0, g := 0, b := 0, a := 0 } := by decide +kernel
/-- DV3, pixel 3: 4-colour mode although the endpoints rise, alpha nibble 3. -/
theorem test_decBc2_pixel :
    (decBc2 [0x10, 0x32, 0x54, 0x76, 0x98, 0xBA, 0xDC, 0xFE, 0x1F, 0x00, 0x00, 0xF8, 0xE4, 0xE4, 0x1B, 0x1B])[3] =
      { r := 0xAA, g := 0x00, b := 0x55, a := 0x33 } := by decide +kernel
/-- DV4, pixel 10: the index crosses a byte boundary. -/
theorem test_decBc3_pixel :
    (decBc3 [0xC8, 0x32, 0x88, 0xC6, 0xFA, 0x88, 0xC6, 0xFA, 0x00, 0xF8, 0x1F, 0x00, 0xE4, 0xE4, 0x1B, 0x1B])[10] =
      { r := 0x00, g := 0x00, b := 0xFF, a := 0xB2 } := by decide +kernel
/-- Section 2.3: the 8-value palette of 200 and 50. -/
theorem test_alphaPalette_eight : alphaPalette 200 50 = #v[200, 50, 178, 157, 135, 114, 92, 71] := by decide
/-- Section 2.3: the 6-value palette of 50 and 200. -/
theorem test_alphaPalette_six : alphaPalette 50 200 = #v[50, 200, 80, 110, 140, 170, 0, 255] := by decide
/-- Section 2.2: `Pack565(128, 128, 128)`. -/
theorem test_pack565_grey : pack565 { r := 128, g := 128, b := 128, a := 0 } = 0x8410 := by decide
/-- Section 2.2: `Unpack565(0x8410)`. -/
theorem test_unpack565_grey : unpack565 0x8410 = { r := 132, g := 130, b := 132, a := 255 } := by decide
/-- E7: alphas 03 64 80 FA quantise to 0, 6, 8, 15. -/
theorem test_quantAlpha4 : [quantAlpha4 0x03, quantAlpha4 0x64, quantAlpha4 0x80, quantAlpha4 0xFA] = [0, 6, 8, 15] := by decide
/-- R46's example: with `W = 5`, block column 1, all four columns read source column 4. -/
theorem test_gather_clamps : (List.map (clampedAddr (operands 3 5 1 20) 1) [0, 1, 2, 3]) = [16, 16, 16, 16] := by decide
/-- DV7: the fifth pixel of a 5 by 1 image is pixel 0 of block 1; its right neighbour is clipped. -/
theorem test_scatter_clips : scatterAddr (operands 4 5 1 16) 1 0 = some 16 ∧ scatterAddr (operands 4 5 1 16) 1 1 = none := by
  decide
/-- R84: a SIZE line is three register writes, CMD last. -/
theorem test_hostLine_size : HostLine.turns (.size .bc2 5 6) =
    [.host (.writeReg 0x04 4 5), .host (.writeReg 0x08 4 6), .host (.writeReg 0x00 4 0x102)] := by decide

/-! ### Witnesses: a concrete case for the hypotheses of each statement -/

theorem witness_DecodeInvertsEncode : Instr.wellFormed .encBc3 = true := by decide

theorem witness_StepRunsDecodedCommand :
    (started 0x102 1 1 0 []).busy = true ∧ (started 0x102 1 1 0 []).turns = [] ∧
      decode (started 0x102 1 1 0 []).lat.cmd = .ok .sizeBc2 := by decide

theorem witness_StepRunsDecodedCommand_turn :
    State.busy { started 0x102 1 1 0 [] with turns := [.btcRun, .btcRun] } = true := by decide

/-- Section 2.1: each error at its place in the order, and a success. -/
theorem witness_FirstFailedCheckDecides :
    firstFailure btcConfig (operands 0x00000705 0xFFFFFFFF 1 0) = some .eOp ∧
    firstFailure btcConfig (operands 0x00000703 0xFFFFFFFF 1 0) = some .eFormat ∧
    firstFailure btcConfig (operands 0x00000003 0xFFFFFFFF 1 5) = some .eDim ∧
    firstFailure btcConfig (operands 0x00000002 0x7FFFFFFF 1 0) = some .eDim ∧
    firstFailure btcConfig (operands 0x00000003 65536 65536 0) = some .eDim ∧
    firstFailure btcConfig (operands 0x00000003 5 1 16) = some .ePixlen ∧
    firstFailure btcConfig (operands 0x00000204 2 2 8) = some .eDatalen ∧
    firstFailure btcConfig (operands 0x00000204 2 2 16) = none ∧
    (started 0x00000703 0xFFFFFFFF 1 0 []).busy = true ∧ (started 0x00000703 0xFFFFFFFF 1 0 []).turns = [] := by decide

theorem witness_IdleWaits : State.reset.busy = false ∧ State.reset.turns = [] := by decide

theorem witness_OutsideAccessesStopByName :
    Reg.ofAccess 0x18 4 = none ∧ Reg.ofAccess 0x02 4 = none ∧ Reg.ofAccess 0x00 2 = none ∧
    (facing [.host (.writeReg 0x18 4 0)]).turns = [.host (.writeReg 0x18 4 0)] ∧
    (facing [.host (.readReg 0x00 2)]).turns = [.host (.readReg 0x00 2)] ∧
    (facing [.host (.writeIn (2 ^ 32 - 1) 0)]).turns = [.host (.writeIn (2 ^ 32 - 1) 0)] ∧
    (facing [.host (.readOut (2 ^ 32 - 1))]).turns = [.host (.readOut (2 ^ 32 - 1))] ∧
    (facing [.host (.readIn 0)]).turns = [.host (.readIn 0)] ∧
    (facing [.host (.writeOut 0 1)]).turns = [.host (.writeOut 0 1)] := by decide

theorem witness_WritingCmdStartsCommand :
    (facing [.host (.writeReg 0x00 4 0x102)]).busy = false ∧
      (after (facing [.host (.writeReg 0x00 4 0x102)])).status = 1 := by decide

theorem witness_WritesWhileBusyIgnored :
    (started 0x102 1 1 0 []).busy = true ∧ Reg.ofAccess 0x00 4 = some .cmd ∧ Reg.ofAccess 0x14 4 = some .result ∧
      (after { started 0x102 1 1 0 [] with turns := [.host (.writeReg 0x00 4 3)] }).cmd = 0x102 ∧
      (after { started 0x102 1 1 0 [] with turns := [.host (.writeIn (2 ^ 32 - 2) 3)] }).inMem = [] := by decide

theorem witness_RegisterWrites :
    (facing [.host (.writeReg 0x04 4 7)]).busy = false ∧ (after (facing [.host (.writeReg 0x04 4 7)])).width = 7 ∧
      (after (facing [.host (.writeReg 0x08 4 7)])).height = 7 ∧ (after (facing [.host (.writeReg 0x0C 4 7)])).srcLen = 7 ∧
      (after (facing [.host (.writeReg 0x10 4 7)])).status = 0 ∧ (after (facing [.host (.writeReg 0x14 4 7)])).result = 0 := by
  decide

theorem witness_RegisterReads : Reg.ofAccess 0x10 4 = some .status ∧
    (after { started 0x102 1 1 0 [] with turns := [.host (.readReg 0x10 4)] }).reads = [.word 1] := by decide

theorem witness_InputWriteDefinesByte :
    (facing [.host (.writeIn 0 5)]).busy = false ∧ Memory.wf (facing [.host (.writeIn 0 5)]).inMem = true ∧
      (after (facing [.host (.writeIn (2 ^ 32 - 2) 5)])).inMem = [(2 ^ 32 - 2, 5)] := by decide

theorem witness_OutputReads :
    Memory.read 0 (State.outMem { facing [.host (.readOut 0)] with outMem := [(0, 9)] }) = some 9 ∧
      Memory.read 1 (State.outMem { facing [.host (.readOut 1)] with outMem := [(0, 9)] }) = none ∧
      (State.busy { facing [.host (.readOut 0)] with outMem := [(0, 9)] }) = false := by decide

theorem witness_ResetValues :
    State.turns { started 0x003 1 1 4 [1, 2, 3, 4] with turns := [.host .reset] } = [.host .reset] := by decide

theorem witness_SizeCommandsComplete :
    (0 : Int) ≤ (started 0x002 65536 65536 0 []).lat.width.toInt ∧
      (0 : Int) ≤ (started 0x002 65536 65536 0 []).lat.height.toInt ∧
      ((65536 + 3) / 4) * ((65536 + 3) / 4) * 8 ≤ 2 ^ 32 - 1 ∧ (after (started 0x002 65536 65536 0 [])).result = 0x80000000 ∧
      (after (started 0x102 0 0 0 [])).status = 2 ∧ (after (started 0x202 0 0 0 [])).result = 0 := by decide

theorem witness_SizeCommandErrors :
    (started 0x002 0xFFFFFFFF 1 0 []).lat.width.toInt < 0 ∧ (started 0x002 1 0x80000000 0 []).lat.height.toInt < 0 ∧
      2 ^ 32 - 1 < ((65536 + 3) / 4) * ((65536 + 3) / 4) * 16 ∧ 2 ^ 32 - 1 < ((2147483647 + 3) / 4) * ((1 + 3) / 4) * 8 := by
  decide

theorem witness_SizeReadsOnlyDimensions :
    (started 0x002 5 5 0 []).lat.width = (started 0x002 5 5 9 [1, 2]).lat.width ∧
      (started 0x002 5 5 0 []).lat.height = (started 0x002 5 5 9 [1, 2]).lat.height := by decide

theorem accepted_of_check {c : Config} {op : Operation} {fmt : Format} {l : Latches}
    (h : checkOperands c op fmt l = none) : Accepted c op fmt l := (checkOperands_eq_none_iff c op fmt l).mp h

theorem witness_EncBc1Completes : (started 0x003 1 1 4 [9, 8, 7, 6]).doneBlocks = [] ∧
    Accepted btcConfig .enc .bc1 (started 0x003 1 1 4 [9, 8, 7, 6]).lat ∧ 0 < (started 0x003 1 1 4 [9, 8, 7, 6]).lat.blocks ∧
    (gatherTile (started 0x003 1 1 4 [9, 8, 7, 6]).lat (started 0x003 1 1 4 [9, 8, 7, 6]).inMem 0).isSome = true :=
  ⟨rfl, accepted_of_check (by decide), by decide, by decide⟩

theorem witness_EncBc2Completes : (started 0x103 1 1 4 [9, 8, 7, 6]).doneBlocks = [] ∧
    Accepted btcConfig .enc .bc2 (started 0x103 1 1 4 [9, 8, 7, 6]).lat ∧ 0 < (started 0x103 1 1 4 [9, 8, 7, 6]).lat.blocks ∧
    (gatherTile (started 0x103 1 1 4 [9, 8, 7, 6]).lat (started 0x103 1 1 4 [9, 8, 7, 6]).inMem 0).isSome = true :=
  ⟨rfl, accepted_of_check (by decide), by decide, by decide⟩

theorem witness_EncBc3Completes : (started 0x203 1 1 4 [9, 8, 7, 6]).doneBlocks = [] ∧
    Accepted btcConfig .enc .bc3 (started 0x203 1 1 4 [9, 8, 7, 6]).lat ∧ 0 < (started 0x203 1 1 4 [9, 8, 7, 6]).lat.blocks ∧
    (gatherTile (started 0x203 1 1 4 [9, 8, 7, 6]).lat (started 0x203 1 1 4 [9, 8, 7, 6]).inMem 0).isSome = true :=
  ⟨rfl, accepted_of_check (by decide), by decide, by decide⟩

theorem witness_EncCommandErrors :
    (started 0x003 0xFFFFFFFF 1 5 []).lat.width.toInt < 0 ∧ 2 ^ 32 - 1 < 32768 * 32768 * 4 ∧
      (started 0x003 5 1 16 []).lat.srcLen.toNat ≠ 5 * 1 * 4 := by decide

/-- Sixteen input bytes. -/
def sixteen : List Byte := [1, 2, 3, 4, 5, 6, 7, 8, 9, 10, 11, 12, 13, 14, 15, 16]

/-- The smallest legal `LEN_MAX`, a weird strategy. -/
def tinyConfig : Config where
  lenMax := 16
  weights := { r := 1, g := 2, b := 1 }
  quantizer := fun _ => { colorQ := fun _ _ => { c0 := 1, c1 := 2, cw := 3 }, alphaQ := fun _ => { a0 := 1, a1 := 2, iw := 3 } }

theorem witness_EncUnderAnyStrategy : tinyConfig.lenMax < 2 ^ 32 ∧ (started 0x103 2 2 16 sixteen).doneBlocks = [] ∧
    Accepted tinyConfig .enc .bc2 (started 0x103 2 2 16 sixteen).lat ∧ 0 < (started 0x103 2 2 16 sixteen).lat.blocks ∧
    (gatherTile (started 0x103 2 2 16 sixteen).lat (started 0x103 2 2 16 sixteen).inMem 0).isSome = true :=
  ⟨by decide, rfl, accepted_of_check (by decide), by decide, by decide⟩

/-- R6: the weights of the BTC are the ones its strategy searches under. -/
theorem test_weights_reach_strategy :
    let c : Config := { btcConfig with weights := { r := 1, g := 9, b := 1 } }
    c.wellFormed = true ∧ c.strategy = referenceQuantizer { r := 1, g := 9, b := 1 } := ⟨by decide, rfl⟩

theorem witness_ReferenceMeetsContract : btcConfig.wellFormed = true ∧ btcConfig.quantizer = referenceQuantizer :=
  ⟨by decide, rfl⟩

theorem witness_GatherClampsToEdge : 0 < ceil4 (operands 0x003 1 1 4).imageWidth ∧
    (gatherTile (operands 0x003 1 1 4) (cellsAt 0 [9, 8, 7, 6]) 0).isSome = true := by decide

theorem witness_DecBc1Completes : (started 0x004 1 1 8 [1, 2, 3, 4, 5, 6, 7, 8]).doneBlocks = [] ∧
    Accepted btcConfig .dec .bc1 (started 0x004 1 1 8 [1, 2, 3, 4, 5, 6, 7, 8]).lat ∧
    0 < (started 0x004 1 1 8 [1, 2, 3, 4, 5, 6, 7, 8]).lat.imageWidth ∧
    0 < (started 0x004 1 1 8 [1, 2, 3, 4, 5, 6, 7, 8]).lat.imageHeight ∧
    pixelDefined .bc1 (started 0x004 1 1 8 [1, 2, 3, 4, 5, 6, 7, 8]).inMem 0 0 = true :=
  ⟨rfl, accepted_of_check (by decide), by decide, by decide, by decide⟩

theorem witness_DecBc2Completes : (started 0x104 1 1 16 sixteen).doneBlocks = [] ∧
    Accepted btcConfig .dec .bc2 (started 0x104 1 1 16 sixteen).lat ∧
    0 < (started 0x104 1 1 16 sixteen).lat.imageWidth ∧ 0 < (started 0x104 1 1 16 sixteen).lat.imageHeight ∧
    pixelDefined .bc2 (started 0x104 1 1 16 sixteen).inMem 0 0 = true :=
  ⟨rfl, accepted_of_check (by decide), by decide, by decide, by decide⟩

theorem witness_DecBc3Completes : (started 0x204 1 1 16 sixteen).doneBlocks = [] ∧
    Accepted btcConfig .dec .bc3 (started 0x204 1 1 16 sixteen).lat ∧
    0 < (started 0x204 1 1 16 sixteen).lat.imageWidth ∧ 0 < (started 0x204 1 1 16 sixteen).lat.imageHeight ∧
    pixelDefined .bc3 (started 0x204 1 1 16 sixteen).inMem 0 0 = true :=
  ⟨rfl, accepted_of_check (by decide), by decide, by decide, by decide⟩

theorem witness_DecCommandErrors :
    (started 0x004 1 0x80000000 5 []).lat.height.toInt < 0 ∧ (started 0x004 4 4 9 []).lat.srcLen.toNat ≠ 1 * 1 * 8 := by
  decide

theorem started_fresh (word w h len : Word) (input : List Byte) : (started word w h len input).Fresh :=
  ⟨startCommand_busy _ _, rfl, rfl, rfl, rfl⟩

theorem witness_SizeEqualsEncodedLength : (started 0x003 1 1 4 [9, 8, 7, 0]).Fresh ∧
    exec .encBc1 (started 0x003 1 1 4 [9, 8, 7, 0]) = .next (encCommand btcConfig .bc1 (started 0x003 1 1 4 [9, 8, 7, 0])) ∧
    (encCommand btcConfig .bc1 (started 0x003 1 1 4 [9, 8, 7, 0])).err = false :=
  ⟨started_fresh .., rfl, by decide +kernel⟩

theorem witness_ResultDependsOnOperandsOnly :
    (started 0x103 1 1 4 [9, 8, 7, 6]).Fresh ∧ (started 0x103 1 1 4 [9, 8, 7, 6, 5]).Fresh ∧
      (started 0x103 1 1 4 [9, 8, 7, 6]).lat = (started 0x103 1 1 4 [9, 8, 7, 6, 5]).lat ∧
      ∀ a, a < 4 → (Memory.read a (started 0x103 1 1 4 [9, 8, 7, 6]).inMem).isSome = true ∧
        Memory.read a (started 0x103 1 1 4 [9, 8, 7, 6, 5]).inMem = Memory.read a (started 0x103 1 1 4 [9, 8, 7, 6]).inMem :=
  ⟨started_fresh .., started_fresh .., rfl, by decide⟩

/-- Two blocks of a DEC in falling order, every input byte defined. -/
theorem witness_BlockOrderUnobservable : (started 0x004 5 1 16 sixteen).Fresh ∧
    decode (started 0x004 5 1 16 sixteen).lat.cmd = .ok .decBc1 ∧ Instr.op .decBc1 ≠ .size ∧
    Accepted btcConfig .dec .bc1 (started 0x004 5 1 16 sixteen).lat ∧
    [1, 0].Perm (List.range (started 0x004 5 1 16 sixteen).lat.blocks) ∧
    ∀ a, a < 16 → (Memory.read a (started 0x004 5 1 16 sixteen).inMem).isSome = true :=
  ⟨started_fresh .., by decide, by decide, accepted_of_check (by decide), by decide, by decide⟩

/-- An empty image has no block and is left by one block turn. -/
theorem witness_BlockOrderUnobservable_empty : (started 0x003 0 9 0 []).Fresh ∧
    decode (started 0x003 0 9 0 []).lat.cmd = .ok .encBc1 ∧ Instr.op .encBc1 ≠ .size ∧
    Accepted btcConfig .enc .bc1 (started 0x003 0 9 0 []).lat ∧ (started 0x003 0 9 0 []).lat.blocks = 0 ∧
    [7].length = 1 :=
  ⟨started_fresh .., by decide, by decide, accepted_of_check (by decide), by decide, by decide⟩

theorem witness_OwnStepKeepsInputs : (started 0x102 5 5 0 []).HostSilent ∧
    step (started 0x102 5 5 0 []) = .next (after (started 0x102 5 5 0 [])) :=
  ⟨(fun _ h => nomatch h), rfl⟩

theorem witness_EncAlpha4Inverse : (2 : Fin 16).val = 2 * (1 : Fin 8).val ∧ (3 : Fin 16).val = 2 * (1 : Fin 8).val + 1 := by
  decide

/-- Index byte E4 holds the indices 0, 1, 2, 3 (DV1). -/
theorem witness_DecodedBc2Pixel : ∀ k : Fin 4,
    colorIndex (colorBlockOfBytes [0x00, 0xF8, 0x1F, 0x00, 0xE4, 0xE4, 0x1B, 0x1B]) (Fin.castLE (by decide) k) =
      BitVec.ofNat 2 k.val := by decide

/-- Both modes of a BC1 block with each index (DV1, DV2). -/
theorem witness_DecodedBc1Pixel :
    (∀ k : Fin 4, colorIndex (colorBlockOfBytes [0x1F, 0x00, 0x00, 0xF8, 0xE4, 0xE4, 0x1B, 0x1B]) (Fin.castLE (by decide) k) =
      BitVec.ofNat 2 k.val) ∧
    (colorBlockOfBytes [0x1F, 0x00, 0x00, 0xF8, 0xE4, 0xE4, 0x1B, 0x1B]).c0 ≤
      (colorBlockOfBytes [0x1F, 0x00, 0x00, 0xF8, 0xE4, 0xE4, 0x1B, 0x1B]).c1 ∧
    (colorBlockOfBytes [0x00, 0xF8, 0x1F, 0x00, 0xE4, 0xE4, 0x1B, 0x1B]).c1 <
      (colorBlockOfBytes [0x00, 0xF8, 0x1F, 0x00, 0xE4, 0xE4, 0x1B, 0x1B]).c0 := by decide

theorem witness_DecodedBc3Pixel : (∀ k : Fin 4,
    colorIndex (colorBlockOfBytes (List.drop 8 [0xC8, 0x32, 0x88, 0xC6, 0xFA, 0x88, 0xC6, 0xFA,
      0x00, 0xF8, 0x1F, 0x00, 0xE4, 0xE4, 0x1B, 0x1B])) (Fin.castLE (by decide) k) = BitVec.ofNat 2 k.val) ∧
    ([5, 6] : List Byte)[0]? = some 5 ∧ ([5, 6] : List Byte)[1]? = some 6 ∧ (50 : Byte) < 200 ∧ (100 : Byte) ≤ 100 ∧ 2 ≤ (2 : Fin 8).val ∧ 2 ≤ (7 : Fin 8).val ∧
    (5 : Fin 8).val ≤ 5 := by decide

theorem witness_DecodedPixelReadsItsBytes : ([0, 1, 2, 3, 4, 5, 6, 7] : List Byte).length = bpb .bc1 ∧
    ([0, 1, 2, 3, 4, 9, 9, 9] : List Byte).length = bpb .bc1 ∧
    ∀ i ∈ pixelReads .bc1 0, ([0, 1, 2, 3, 4, 5, 6, 7] : List Byte)[i]? = ([0, 1, 2, 3, 4, 9, 9, 9] : List Byte)[i]? := by
  decide

/-- The whole input of a DEC is defined, so its pixels are. -/
theorem witness_DecodedPixelReadsItsBytes_input :
    (started 0x004 5 1 16 sixteen).lat.srcLen.toNat = cSize .bc1 5 1 ∧
    (∀ a, a < 16 → (Memory.read a (started 0x004 5 1 16 sixteen).inMem).isSome = true) ∧
    1 < (started 0x004 5 1 16 sixteen).lat.blocks ∧
    pixelDefined .bc1 (started 0x004 5 1 16 sixteen).inMem 1 15 = true ∧
    Memory.read (1 * bpb .bc1 + 7) (started 0x004 5 1 16 sixteen).inMem = some 16 := by decide

theorem witness_ColorSearchTakesFirstLeast : searchSet (flatTile red) true ≠ [] := by decide

theorem witness_AllTransparentTile : ∀ k : Fin 16, (flatTile clear)[k].a = 0 := by decide

theorem witness_OneColourTile : searchSet (flatTile red) false ≠ [] ∧
    ∀ k ∈ searchSet (flatTile red) false, (flatTile red)[k].r = red.r ∧ (flatTile red)[k].g = red.g ∧ (flatTile red)[k].b = red.b := by
  decide

theorem witness_OneAlphaTile : ∀ k : Fin 16, (alphasOf (flatTile red))[k] = 255 := by decide

/-- E11's alphas, 0 at even and 255 at odd pixels, with 7 at the last: each is the first, the last, 0 or 255. -/
theorem witness_TwoAlphasExact : ∀ k : Fin 16,
    let A : Alphas := #v[0, 255, 0, 255, 0, 255, 0, 255, 0, 255, 0, 255, 0, 255, 0, 7]
    A[k] = A[(0 : Fin 16)] ∨ A[k] = A[(15 : Fin 16)] ∨ A[k] = 0 ∨ A[k] = 255 := by decide

theorem witness_StepKeepsStatusLegal : (started 0x102 5 5 0 []).StatusLegal :=
  ⟨by decide, by decide, by decide, by decide, by decide⟩

theorem witness_StepKeepsMemories : (started 0x003 1 1 4 [9, 8, 7, 6]).MemoryOk btcConfig where
  inCanonical := by decide
  outCanonical := rfl
  inBelow := by unfold Memory.Below; decide
  outBelow := fun _ h => nomatch h

theorem witness_StepKeepsInvariant : (started 0x003 1 1 4 [9, 8, 7, 6]).Inv btcConfig where
  status := ⟨by decide, by decide, by decide, by decide, by decide⟩
  memory := witness_StepKeepsMemories
  progress := ⟨fun _ => rfl, List.Pairwise.nil, fun _ => rfl, (fun _ h => nomatch h), fun h => absurd rfl h⟩
  running := fun _ => ⟨rfl, rfl⟩
  result := ⟨fun _ => rfl, by decide⟩
  output := fun a => by
    constructor
    · intro h; cases h
    · rintro (⟨-, i, -, n, hn, -⟩ | ⟨h, -⟩)
      · cases hn
      · exact absurd h (by decide)

/-- A write of the last byte of IN under `tinyConfig`. -/
theorem witness_StepKeepsInvariantAnyParameters : tinyConfig.wellFormed = true ∧
    (facing [.host (.writeIn 15 3)]).Inv tinyConfig ∧
    stepWith tinyConfig (facing [.host (.writeIn 15 3)]) = .next { State.reset with inMem := [(15, 3)] } := by
  refine ⟨by decide, ?_, rfl⟩
  exact {
    status := ⟨by decide, by decide, by decide, by decide, by decide⟩
    memory := ⟨rfl, rfl, (fun _ h => nomatch h), (fun _ h => nomatch h)⟩
    progress := ⟨fun _ => rfl, List.Pairwise.nil, fun _ => rfl, (fun _ h => nomatch h), fun h => absurd rfl h⟩
    running := fun h => absurd h (by decide)
    result := ⟨fun _ => rfl, by decide⟩
    output := fun a => by
      constructor
      · intro h; cases h
      · rintro (⟨h, -⟩ | ⟨h, -⟩)
        · exact absurd h (by decide)
        · exact absurd h (by decide) }

end Sys2Proof.Tests
end

section
/-! ## What the work on the blocks writes

Which addresses of OUT the blocks of an ENC or a DEC cover, and what writing their cells defines (R49, R50, R105, R106). -/

namespace Sys2Proof.Machine

open Sys2Proof

/-! ### Writing cells -/

/-- The cells of bytes at consecutive addresses have exactly the addresses of that range. -/
theorem cellsAt_addrs (p : Nat) (bs : List Byte) (a : Nat) :
    (∃ x ∈ cellsAt p bs, x.1 = a) ↔ p ≤ a ∧ a < p + bs.length := by
  induction bs generalizing p with
  | nil => simp [cellsAt]
  | cons b bs ih => simp only [cellsAt, List.mem_cons, exists_eq_or_imp, ih, List.length_cons]; omega

/-- Writing cells defines exactly their addresses besides what was defined before. -/
theorem read_writeAll_isSome (m : Memory) (cells : List Host.Cell) (a : Nat) :
    (Memory.read a (Memory.writeAll m cells)).isSome = true ↔
      (Memory.read a m).isSome = true ∨ ∃ x ∈ cells, x.1 = a := by
  induction cells generalizing m with
  | nil => simp [Memory.writeAll]
  | cons d cells ih =>
    have e : Memory.writeAll m (d :: cells) = Memory.writeAll (Memory.write d.1 d.2 m) cells := rfl
    rw [e, ih, read_write]
    by_cases h : a = d.1
    · simp [h]
    · simp [h, Ne.symm h]

theorem write_below {N a : Nat} {v : Byte} {m : Memory} (hm : Memory.Below N m) (ha : a < N) :
    Memory.Below N (Memory.write a v m) := by
  intro c hc
  rcases mem_write hc with rfl | hc
  · exact ha
  · exact hm c hc

theorem writeAll_below {N : Nat} {m : Memory} {cells : List Host.Cell} (hm : Memory.Below N m)
    (hc : ∀ x ∈ cells, x.1 < N) : Memory.Below N (Memory.writeAll m cells) := by
  intro c h
  rcases mem_writeAll h with h | h
  · exact hc c h
  · exact hm c h

/-! ### The addresses of the blocks -/

theorem mem_outAddrs_enc {fmt : Format} {l : Latches} {n a : Nat} :
    a ∈ outAddrs .enc fmt l n ↔ n * bpb fmt ≤ a ∧ a < n * bpb fmt + bpb fmt := by
  simp only [outAddrs, List.mem_map, List.mem_range]
  constructor
  · rintro ⟨i, hi, rfl⟩; omega
  · intro h; exact ⟨a - n * bpb fmt, by omega, by omega⟩

theorem mem_outAddrs_dec {fmt : Format} {l : Latches} {n a : Nat} :
    a ∈ outAddrs .dec fmt l n ↔ ∃ k p, scatterAddr l n k = some p ∧ p ≤ a ∧ a < p + 4 := by
  simp only [outAddrs, List.mem_flatMap]
  refine ⟨?_, ?_⟩
  · rintro ⟨k, -, h⟩
    cases hp : scatterAddr l n k with
    | none => simp [hp] at h
    | some p =>
      simp only [hp, List.mem_map, List.mem_range] at h
      obtain ⟨i, hi, rfl⟩ := h
      exact ⟨k, p, hp, by omega, by omega⟩
  · rintro ⟨k, p, hp, h⟩
    refine ⟨k, mem_tileIndices k, ?_⟩
    simp only [hp, List.mem_map, List.mem_range]
    exact ⟨a - p, by omega, by omega⟩

/-- The addresses DEC writes for a block are the ones `outAddrs` lists: four for each pixel that is not clipped (R50). -/
theorem decCells_addrs (fmt : Format) (s : State) (n a : Nat) :
    (∃ x ∈ decCells fmt s n, x.1 = a) ↔ a ∈ outAddrs .dec fmt s.lat n := by
  rw [mem_outAddrs_dec]
  constructor
  · rintro ⟨x, hx, rfl⟩; exact mem_decCells hx
  · rintro ⟨k, p, hp, hlo, hhi⟩
    obtain ⟨x, hx, rfl⟩ := (cellsAt_addrs p (if pixelDefined fmt s.inMem n k = true then
      pixelBytes (decBlock fmt (blockIn fmt s.inMem n))[k] else freeBytes s.draws p 4) a).mpr
        ⟨hlo, by split <;> simpa using hhi⟩
    refine ⟨x, ?_, rfl⟩
    simp only [decCells, List.mem_flatMap]
    exact ⟨k, mem_tileIndices k, by simpa only [hp] using hx⟩

/-- The blocks of an ENC cover exactly the compressed bytes (R49, R100). -/
theorem encBlocks_cover (fmt : Format) (l : Latches) (a : Nat) :
    (∃ n, n < l.blocks ∧ a ∈ outAddrs .enc fmt l n) ↔ a < cSize fmt l.imageWidth l.imageHeight := by
  simp only [mem_outAddrs_enc]
  have e : cSize fmt l.imageWidth l.imageHeight = l.blocks * bpb fmt := rfl
  rw [e]
  constructor
  · rintro ⟨n, hn, -, ha⟩
    calc a < (n + 1) * bpb fmt := by rw [Nat.succ_mul]; exact ha
      _ ≤ l.blocks * bpb fmt := Nat.mul_le_mul_right _ hn
  · intro ha
    have hdiv := Nat.div_add_mod' a (bpb fmt)
    have hmod := Nat.mod_lt a (bpb_pos fmt)
    exact ⟨a / bpb fmt, (Nat.div_lt_iff_lt_mul (bpb_pos fmt)).mpr ha, by omega, by omega⟩

theorem scatterAddr_eq_some {l : Latches} {n : Nat} {k : Fin 16} {p : Nat} :
    scatterAddr l n k = some p ↔ blockX l n k < l.imageWidth ∧ blockY l n k < l.imageHeight ∧
      p = pixelAddr l.imageWidth (blockX l n k) (blockY l n k) := by
  simp only [scatterAddr]
  split <;> simp_all [eq_comm]

/-- A pixel inside the image lies wholly below the pixel size (R44, R100). -/
theorem pixelAddr_add_four_le {w h x y : Nat} (hx : x < w) (hy : y < h) : pixelAddr w x y + 4 ≤ pSize w h := by
  have hrow : (y + 1) * w ≤ h * w := Nat.mul_le_mul_right w hy
  rw [Nat.succ_mul, Nat.mul_comm h w] at hrow
  simp only [pixelAddr, pSize]
  omega

/-- Every pixel of the image is a pixel of a block of the command (R47, R50). -/
theorem exists_block_of_pixel {l : Latches} {x y : Nat} (hx : x < l.imageWidth) (hy : y < l.imageHeight) :
    ∃ n, n < l.blocks ∧ ∃ k, blockX l n k = x ∧ blockY l n k = y := by
  have hcx : x / 4 < ceil4 l.imageWidth := by unfold ceil4; omega
  have hcy : y / 4 < ceil4 l.imageHeight := by unfold ceil4; omega
  have hcol : (y / 4 * ceil4 l.imageWidth + x / 4) % ceil4 l.imageWidth = x / 4 := by
    rw [Nat.mul_add_mod', Nat.mod_eq_of_lt hcx]
  have hrow : (y / 4 * ceil4 l.imageWidth + x / 4) / ceil4 l.imageWidth = y / 4 := by
    rw [Nat.add_comm, Nat.add_mul_div_right _ _ (by omega), Nat.div_eq_of_lt hcx, Nat.zero_add]
  refine ⟨y / 4 * ceil4 l.imageWidth + x / 4, ?_, ⟨4 * (y % 4) + x % 4, by omega⟩, ?_, ?_⟩
  · calc y / 4 * ceil4 l.imageWidth + x / 4 < (y / 4 + 1) * ceil4 l.imageWidth := by rw [Nat.succ_mul]; omega
      _ ≤ ceil4 l.imageHeight * ceil4 l.imageWidth := Nat.mul_le_mul_right _ hcy
      _ = l.blocks := Nat.mul_comm _ _
  · simp only [blockX, hcol]; omega
  · simp only [blockY, hrow]; omega

/-- The blocks of a DEC cover exactly the bytes of the image (R44, R50, R100). -/
theorem decBlocks_cover (fmt : Format) (l : Latches) (a : Nat) :
    (∃ n, n < l.blocks ∧ a ∈ outAddrs .dec fmt l n) ↔ a < pSize l.imageWidth l.imageHeight := by
  simp only [mem_outAddrs_dec, scatterAddr_eq_some]
  constructor
  · rintro ⟨n, -, k, p, ⟨hx, hy, rfl⟩, -, ha⟩
    have := pixelAddr_add_four_le hx hy
    omega
  · intro ha
    have hpix : a / 4 < l.imageHeight * l.imageWidth := by
      rw [Nat.mul_comm]; unfold pSize at ha; omega
    have hw : 0 < l.imageWidth := Nat.pos_of_mul_pos_left (Nat.zero_lt_of_lt hpix)
    have hx : a / 4 % l.imageWidth < l.imageWidth := Nat.mod_lt _ hw
    have hy : a / 4 / l.imageWidth < l.imageHeight := (Nat.div_lt_iff_lt_mul hw).mpr hpix
    obtain ⟨n, hn, k, ex, ey⟩ := exists_block_of_pixel hx hy
    have hdiv := Nat.div_add_mod' (a / 4) l.imageWidth
    have haddr : pixelAddr l.imageWidth (blockX l n k) (blockY l n k) = 4 * (a / 4) := by
      rw [ex, ey, pixelAddr, hdiv]
    exact ⟨n, hn, k, _, ⟨ex ▸ hx, ey ▸ hy, rfl⟩, by omega, by omega⟩

/-- The blocks of an ENC or a DEC cover exactly the bytes below its RESULT (R28, R203). -/
theorem blocks_cover {op : Operation} (hop : op ≠ .size) (fmt : Format) (l : Latches) (a : Nat) :
    (∃ n, n < l.blocks ∧ a ∈ outAddrs op fmt l n) ↔ a < resultOf op fmt l := by
  cases op with
  | size => exact absurd rfl hop
  | enc => exact encBlocks_cover fmt l a
  | dec => exact decBlocks_cover fmt l a

/-- The RESULT of accepted operands is within `LEN_MAX` (R28, R102). -/
theorem Accepted.resultOf_le {c : Config} {op : Operation} {fmt : Format} {l : Latches} (h : Accepted c op fmt l) :
    resultOf op fmt l ≤ c.lenMax := by
  cases op with
  | size => exact h.compressed
  | enc => exact h.compressed
  | dec => exact h.pixels (by decide)

/-! ### The done blocks -/

theorem insertBlock_length {n : Nat} {l : List Nat} (h : n ∉ l) : (insertBlock n l).length = l.length + 1 := by
  induction l with
  | nil => rfl
  | cons m ms ih =>
    obtain ⟨hne, hms⟩ : n ≠ m ∧ n ∉ ms := by simpa using h
    simp only [insertBlock, hne, if_false]
    split <;> simp [ih hms]

end Sys2Proof.Machine
end

section
/-! ## The invariant

A command at work on its blocks (`Working`) is what the invariant says of a running ENC or DEC, without the demand that a
block is left to do. Every block keeps it, and both ways out of it, waiting for the next block and the successful end, give
the invariant back. -/

namespace Sys2Proof.Machine

open Sys2Proof

/-! ### The states between commands -/

/-- The invariant reads nothing of the model's own fields and of the tile buffer. -/
def State.bare (s : State) : State := { s with tile := State.reset.tile, turns := [], reads := [], draws := 0 }

theorem inv_bare {c : Config} {s : State} : s.bare.Inv c ↔ s.Inv c := by
  constructor <;> rintro ⟨hst, ⟨h1, h2, h3, h4⟩, ⟨p1, p2, p3, p4, p5⟩, hrun, hres, hout⟩ <;>
    exact ⟨hst, ⟨h1, h2, h3, h4⟩, ⟨p1, p2, p3, p4, p5⟩, hrun, hres, hout⟩

theorem State.Inv.of_bare_eq {c : Config} {s t : State} (h : s.Inv c) (e : t.bare = s.bare) : t.Inv c :=
  inv_bare.mp (e ▸ inv_bare.mpr h)

theorem State.StatusLegal.of_status_eq {s t : State} (h : s.StatusLegal) (e : t.status = s.status) : t.StatusLegal := by
  simpa only [State.StatusLegal, busy_def, done_def, err_def, ecode_def, e] using h

/-- The STATUS words of a reset, a start, a successful end and an error end are legal (R24). -/
theorem reset_statusLegal : State.reset.StatusLegal := ⟨by decide, by decide, by decide, by decide, by decide⟩

theorem startCommand_statusLegal (v : Word) (s : State) : (startCommand v s).StatusLegal :=
  State.StatusLegal.of_status_eq (s := { State.reset with status := statusBusy })
    ⟨by decide, by decide, by decide, by decide, by decide⟩ rfl

theorem finish_statusLegal (r : Nat) (s : State) : (finish r s).StatusLegal :=
  State.StatusLegal.of_status_eq (s := { State.reset with status := statusDone })
    ⟨by decide, by decide, by decide, by decide, by decide⟩ rfl

theorem raiseError_statusLegal (e : ErrorCode) (s : State) : (raiseError e s).StatusLegal := by
  refine State.StatusLegal.of_status_eq (s := { State.reset with status := statusError e }) ?_ rfl
  cases e <;> exact ⟨by decide, by decide, by decide, by decide, by decide⟩

/-- A busy BTC shows neither DONE nor ERR (R24). -/
theorem State.StatusLegal.not_done_of_busy {s : State} (h : s.StatusLegal) (hb : s.busy = true) :
    s.done = false ∧ s.err = false := by
  have := h.1
  simpa [hb] using this

/-- While BUSY the bytes that should be defined are the ones the done blocks wrote. -/
theorem shouldBeDefined_of_busy {s : State} (hst : s.StatusLegal) (hb : s.busy = true) (a : Nat) :
    s.ShouldBeDefined a ↔
      ∃ i, decode s.lat.cmd = .ok i ∧ ∃ n ∈ s.doneBlocks, a ∈ outAddrs i.op i.format s.lat n := by
  simp [State.ShouldBeDefined, hb, (hst.not_done_of_busy hb).1]

/-- With no block done no byte should be defined while BUSY. -/
theorem not_shouldBeDefined_of_no_blocks {s : State} (hst : s.StatusLegal) (hb : s.busy = true)
    (hd : s.doneBlocks = []) (a : Nat) : ¬ s.ShouldBeDefined a := by
  rw [shouldBeDefined_of_busy hst hb, hd]
  rintro ⟨i, -, n, hn, -⟩
  cases hn

theorem progressOk_of_no_blocks {c : Config} {s : State} (hd : s.doneBlocks = [])
    (hblk : s.busy = true → s.blk = 0) : s.ProgressOk c where
  idleNone _ := hd
  rising := hd ▸ List.Pairwise.nil
  counted hb := by rw [hblk hb, hd]; rfl
  inside n hn := by rw [hd] at hn; cases hn
  checked h := absurd hd h

theorem reset_inv (c : Config) : State.reset.Inv c where
  status := reset_statusLegal
  memory := ⟨rfl, rfl, (fun _ h => nomatch h), (fun _ h => nomatch h)⟩
  progress := progressOk_of_no_blocks rfl fun _ => rfl
  running h := absurd h (by simp)
  result := ⟨fun _ => rfl, Nat.zero_le _⟩
  output a := by simp [State.ShouldBeDefined, State.reset, Memory.read, State.busy, State.done]

/-- The start of a command gives a state of the invariant: nothing is done and OUT is empty (R22). -/
theorem startCommand_inv {c : Config} {s : State} (v : Word) (h : s.Inv c) : (startCommand v s).Inv c where
  status := startCommand_statusLegal v s
  memory := ⟨h.memory.inCanonical, rfl, h.memory.inBelow, fun _ hc => nomatch hc⟩
  progress := progressOk_of_no_blocks rfl fun _ => rfl
  running _ := ⟨rfl, rfl⟩
  result := ⟨fun _ => rfl, Nat.zero_le _⟩
  output a := by
    have hnone := not_shouldBeDefined_of_no_blocks (startCommand_statusLegal v s) (startCommand_busy v s) rfl a
    simp [Memory.read, hnone]

/-- An error end gives a state of the invariant if OUT has no defined byte (R204). -/
theorem raiseError_inv {c : Config} {s : State} (e : ErrorCode) (hm : s.MemoryOk c)
    (hout : ∀ a, Memory.read a s.outMem = none) : (raiseError e s).Inv c where
  status := raiseError_statusLegal e s
  memory := ⟨hm.inCanonical, hm.outCanonical, hm.inBelow, hm.outBelow⟩
  progress := progressOk_of_no_blocks rfl fun hb => by simp at hb
  running hb := by simp at hb
  result := ⟨fun _ => rfl, Nat.zero_le _⟩
  output a := by simp [State.ShouldBeDefined, hout]

/-- A successful end gives a state of the invariant if OUT is defined exactly below RESULT, or nowhere after a SIZE (R203). -/
theorem finish_inv {c : Config} {s : State} {i : Instr} {r : Nat} (hc : c.lenMax < 2 ^ 32) (hm : s.MemoryOk c)
    (hi : decode s.cmd = .ok i) (hr : r ≤ c.lenMax)
    (hout : ∀ a, (Memory.read a s.outMem).isSome = true ↔ i.op ≠ .size ∧ a < r) : (finish r s).Inv c := by
  have hres : (BitVec.ofNat 32 r).toNat = r := Nat.mod_eq_of_lt (by omega)
  exact {
    status := finish_statusLegal r s
    memory := ⟨hm.inCanonical, hm.outCanonical, hm.inBelow, hm.outBelow⟩
    progress := progressOk_of_no_blocks rfl fun hb => by simp at hb
    running := fun hb => by simp at hb
    result := ⟨fun he => by simp at he, by simpa only [finish_result, hres] using hr⟩
    output := fun a => by simp [State.ShouldBeDefined, hout, hi, hres] }

/-! ### The host's moves -/

/-- Between commands the operand registers may take any values (R23). -/
theorem setOperands_inv {c : Config} {s : State} (w h len : Word) (hs : s.Inv c) (hb : s.busy = false) :
    State.Inv c { s with width := w, height := h, srcLen := len } := by
  obtain ⟨hst, ⟨h1, h2, h3, h4⟩, ⟨p1, p2, p3, p4, p5⟩, -, hres, hout⟩ := hs
  exact ⟨hst, ⟨h1, h2, h3, h4⟩, ⟨p1, p2, p3, p4, p5⟩, fun h' => absurd (h'.symm.trans hb) (by decide), hres, hout⟩

theorem writeRegister_inv {c : Config} {s : State} (r : Reg) (v : Word) (h : s.Inv c) : (writeRegister r v s).Inv c := by
  rcases writeRegister_cases r v s with ⟨-, e⟩ | ⟨hb, ⟨-, e⟩ | ⟨-, e⟩ | ⟨-, e⟩ | ⟨-, e⟩ | ⟨-, e⟩⟩ <;> rw [e]
  · exact h
  · exact startCommand_inv v h
  · exact setOperands_inv v s.height s.srcLen h hb
  · exact setOperands_inv s.width v s.srcLen h hb
  · exact setOperands_inv s.width s.height v h hb
  · exact h

theorem writeInput_inv {c : Config} {s : State} {a : Nat} (b : Byte) (ha : a < c.lenMax) (h : s.Inv c) :
    (writeInput a b s).Inv c := by
  unfold writeInput
  split
  · exact h
  · obtain ⟨hst, ⟨h1, h2, h3, h4⟩, ⟨p1, p2, p3, p4, p5⟩, hrun, hres, hout⟩ := h
    exact ⟨hst, ⟨write_wf a b h1, h2, write_below h3 ha, h4⟩, ⟨p1, p2, p3, p4, p5⟩, hrun, hres, hout⟩

theorem readOutput_inv {c : Config} {s : State} (a : Nat) (h : s.Inv c) : (readOutput a s).Inv c := by
  rcases readOutput_cases a s with ⟨b, -, -, e⟩ | ⟨-, e⟩ <;> rw [e] <;> exact h.of_bare_eq rfl

/-- A move of the host keeps the invariant. -/
theorem hostMove_inv {c : Config} {m : HostMove} {s t : State} (h : s.Inv c) (hm : hostMove c m s = .next t) :
    t.Inv c := by
  rcases hostMove_cases hm with ⟨_, _, v, r, -, -, rfl⟩ | ⟨_, _, r, -, -, rfl⟩ | ⟨a, b, -, ha, rfl⟩ |
    ⟨a, -, -, rfl⟩ | ⟨-, rfl⟩
  · exact writeRegister_inv r v h
  · exact h.of_bare_eq rfl
  · exact writeInput_inv b ha h
  · exact readOutput_inv a h
  · exact (reset_inv c).of_bare_eq rfl

/-! ### A command at work on its blocks -/

/-- A command `i` that is an ENC or a DEC on accepted operands, some of whose blocks, possibly all, are done. -/
structure Working (c : Config) (i : Instr) (s : State) : Prop where
  status : s.StatusLegal
  busy : s.busy = true
  memory : s.MemoryOk c
  latched : s.lat = { cmd := s.cmd, width := s.width, height := s.height, srcLen := s.srcLen }
  result : s.result = 0
  decoded : decode s.lat.cmd = .ok i
  notSize : i.op ≠ .size
  accepted : Accepted c i.op i.format s.lat
  rising : s.doneBlocks.Pairwise (· < ·)
  counted : s.blk = s.doneBlocks.length
  inside : ∀ n ∈ s.doneBlocks, n < s.lat.blocks
  written : ∀ a, (Memory.read a s.outMem).isSome = true ↔ ∃ n ∈ s.doneBlocks, a ∈ outAddrs i.op i.format s.lat n

/-- A running ENC or DEC on accepted operands is at work. -/
theorem State.Inv.working {c : Config} {i : Instr} {s : State} (h : s.Inv c) (hb : s.busy = true)
    (hi : decode s.lat.cmd = .ok i) (hop : i.op ≠ .size) (ha : Accepted c i.op i.format s.lat) : Working c i s where
  status := h.status
  busy := hb
  memory := h.memory
  latched := (h.running hb).1
  result := (h.running hb).2
  decoded := hi
  notSize := hop
  accepted := ha
  rising := h.progress.rising
  counted := h.progress.counted hb
  inside := h.progress.inside
  written a := by
    rw [h.output a, shouldBeDefined_of_busy h.status hb, hi]
    simp

/-- A command at work with a block left to do meets the invariant. -/
theorem Working.inv {c : Config} {i : Instr} {s : State} (h : Working c i s) (hleft : s.blk < s.lat.blocks) :
    s.Inv c where
  status := h.status
  memory := h.memory
  progress :=
    { idleNone := fun hb => absurd (hb.symm.trans h.busy) (by decide)
      rising := h.rising
      counted := fun _ => h.counted
      inside := h.inside
      checked := fun _ => ⟨hleft, i, h.decoded, h.notSize, (checkOperands_eq_none_iff ..).mpr h.accepted⟩ }
  running _ := ⟨h.latched, h.result⟩
  result := ⟨fun _ => h.result, by rw [h.result]; exact Nat.zero_le _⟩
  output a := by
    rw [h.written a, shouldBeDefined_of_busy h.status h.busy, h.decoded]
    simp

/-- The successful end of a command with every block done gives a state of the invariant. -/
theorem Working.finish_of_all_done {c : Config} {i : Instr} {s : State} (h : Working c i s) (hc : c.lenMax < 2 ^ 32)
    (hall : ∀ n, n < s.lat.blocks → n ∈ s.doneBlocks) : (finish (resultOf i.op i.format s.lat) s).Inv c := by
  have hcmd : decode s.cmd = .ok i := by have := h.decoded; rwa [h.latched] at this
  refine finish_inv hc h.memory hcmd h.accepted.resultOf_le fun a => ?_
  rw [h.written a, ← blocks_cover h.notSize i.format s.lat a]
  constructor
  · rintro ⟨n, hn, ha⟩; exact ⟨h.notSize, n, h.inside n hn, ha⟩
  · rintro ⟨-, n, hn, ha⟩; exact ⟨n, hall n hn, ha⟩

/-- A cursor at the block count means that every block is done: the done blocks are distinct and no more than there are. -/
theorem Working.all_done {c : Config} {i : Instr} {s : State} (h : Working c i s) (hblk : s.lat.blocks ≤ s.blk) :
    ∀ n, n < s.lat.blocks → n ∈ s.doneBlocks := by
  have hnodup : s.doneBlocks.Nodup := h.rising.imp fun hlt => Nat.ne_of_lt hlt
  have hsub : s.doneBlocks.toFinset ⊆ Finset.range s.lat.blocks := fun n hn =>
    Finset.mem_range.mpr (h.inside n (List.mem_toFinset.mp hn))
  have hcard : (Finset.range s.lat.blocks).card ≤ s.doneBlocks.toFinset.card := by
    rw [Finset.card_range, List.toFinset_card_of_nodup hnodup, ← h.counted]
    exact hblk
  have heq := Finset.eq_of_subset_of_card_le hsub hcard
  intro n hn
  exact List.mem_toFinset.mp (heq ▸ Finset.mem_range.mpr hn)

/-- What the bodies of R105 and R106 have in common: the block's work is an `advance` whose cells have the addresses of the
block. -/
def WritesBlocks (op : Operation) (fmt : Format) (body : State → Nat → State) : Prop :=
  ∀ s n, ∃ cells tile, body s n = advance n cells tile s ∧
    ∀ a, (∃ x ∈ cells, x.1 = a) ↔ a ∈ outAddrs op fmt s.lat n

theorem encOne_writesBlocks (c : Config) (fmt : Format) : WritesBlocks .enc fmt (encOne c fmt) :=
  fun s n => ⟨_, _, rfl, encCells_addrs c fmt s n⟩

theorem decOne_writesBlocks (fmt : Format) : WritesBlocks .dec fmt (decOne fmt) :=
  fun s n => ⟨_, _, rfl, decCells_addrs fmt s n⟩

/-- Work on a block that is not done yet: the command stays at work, and the block joins the done ones. -/
theorem Working.advance_block {c : Config} {i : Instr} {s : State} {n : Nat} {cells : List Host.Cell} (tile : TileBuffer)
    (h : Working c i s) (hn : n < s.lat.blocks) (hnew : n ∉ s.doneBlocks)
    (hcells : ∀ a, (∃ x ∈ cells, x.1 = a) ↔ a ∈ outAddrs i.op i.format s.lat n) :
    Working c i (advance n cells tile s) where
  status := h.status.of_status_eq rfl
  busy := h.busy
  memory :=
    { inCanonical := h.memory.inCanonical
      outCanonical := writeAll_wf cells h.memory.outCanonical
      inBelow := h.memory.inBelow
      outBelow := writeAll_below h.memory.outBelow fun x hx =>
        lt_of_lt_of_le ((blocks_cover h.notSize i.format s.lat x.1).mp ⟨n, hn, (hcells x.1).mp ⟨x, hx, rfl⟩⟩)
          h.accepted.resultOf_le }
  latched := h.latched
  result := h.result
  decoded := h.decoded
  notSize := h.notSize
  accepted := h.accepted
  rising := insertBlock_rising h.rising
  counted := by simp [insertBlock_length hnew, h.counted]
  inside m hm := by
    rcases mem_insertBlock.mp hm with rfl | hm
    · exact hn
    · exact h.inside m hm
  written a := by
    simp only [advance_outMem, advance_doneBlocks, advance_lat, read_writeAll_isSome, hcells, h.written, mem_insertBlock]
    constructor
    · rintro (⟨m, hm, ha⟩ | ha)
      · exact ⟨m, .inr hm, ha⟩
      · exact ⟨n, .inl rfl, ha⟩
    · rintro ⟨m, rfl | hm, ha⟩
      · exact .inr ha
      · exact .inl ⟨m, hm, ha⟩

section
variable {c : Config} {i : Instr} {body : State → Nat → State}

/-- Work on blocks of the command that are not done yet: the command stays at work, and they all join the done ones. -/
theorem Working.foldl_blocks (hbody : WritesBlocks i.op i.format body) (l : List Nat) {s : State} (h : Working c i s)
    (hnodup : l.Nodup) (hl : ∀ n ∈ l, n < s.lat.blocks ∧ n ∉ s.doneBlocks) :
    Working c i (l.foldl body s) ∧ (l.foldl body s).lat = s.lat ∧
      ∀ n, n ∈ (l.foldl body s).doneBlocks ↔ n ∈ l ∨ n ∈ s.doneBlocks := by
  induction l generalizing s with
  | nil => exact ⟨h, rfl, by simp⟩
  | cons n l ih =>
    obtain ⟨hnl, hnodup⟩ := List.nodup_cons.mp hnodup
    obtain ⟨hn, hnew⟩ := hl n (by simp)
    obtain ⟨cells, tile, e, hcells⟩ := hbody s n
    obtain ⟨hwork, hlat, hdone⟩ := ih (s := body s n) (e ▸ h.advance_block tile hn hnew hcells) hnodup fun m hm => by
      rw [e, advance_lat, advance_doneBlocks, mem_insertBlock]
      obtain ⟨hm1, hm2⟩ := hl m (List.mem_cons_of_mem _ hm)
      exact ⟨hm1, by rintro (rfl | h'); exacts [hnl hm, hm2 h']⟩
    refine ⟨hwork, hlat.trans (by rw [e, advance_lat]), fun m => ?_⟩
    rw [List.foldl_cons, hdone, e, advance_doneBlocks, mem_insertBlock, List.mem_cons]
    tauto

/-- A command that does all its remaining blocks ends in a state of the invariant (R103). -/
theorem Working.runBlocks_inv (hbody : WritesBlocks i.op i.format body) {s : State} (h : Working c i s)
    (hc : c.lenMax < 2 ^ 32) : (finish (resultOf i.op i.format s.lat) (runBlocks body s)).Inv c := by
  have hnodup : (remaining s).Nodup := List.nodup_range.filter _
  obtain ⟨hwork, hlat, hdone⟩ := h.foldl_blocks hbody (remaining s) hnodup fun n hn => mem_remaining.mp hn
  have hall : ∀ n, n < (runBlocks body s).lat.blocks → n ∈ (runBlocks body s).doneBlocks := by
    intro n hn
    rw [runBlocks, hlat] at hn
    rw [runBlocks, hdone, mem_remaining]
    tauto
  rw [← hlat]
  exact hwork.finish_of_all_done hc hall

/-- A block step of a command at work gives a state of the invariant, the end included (R107). -/
theorem Working.blockStep_inv (hbody : WritesBlocks i.op i.format body) {s : State} (n : Nat) (h : Working c i s)
    (hc : c.lenMax < 2 ^ 32) : (blockStep body (resultOf i.op i.format s.lat) n s).Inv c := by
  obtain ⟨t, ht, hend⟩ := blockStep_cases body (resultOf i.op i.format s.lat) n s
  have hwork : Working c i t ∧ t.lat = s.lat := by
    rcases ht with ⟨hn, hnew, rfl⟩ | ⟨-, rfl⟩
    · obtain ⟨cells, tile, e, hcells⟩ := hbody s n
      rw [e]
      exact ⟨h.advance_block tile hn hnew hcells, rfl⟩
    · exact ⟨h, rfl⟩
  obtain ⟨hwork, hlat⟩ := hwork
  rcases hend with ⟨hblk, e⟩ | ⟨hblk, e⟩ <;> rw [e]
  · rw [← hlat]; exact hwork.finish_of_all_done hc (hwork.all_done hblk)
  · exact hwork.inv hblk

end

/-! ### The BTC's own step -/

section
variable {c : Config} {s : State}

/-- A running command with no block done has no defined byte in OUT (R22, R26). -/
theorem State.Inv.read_outMem_none (h : s.Inv c) (hb : s.busy = true) (hd : s.doneBlocks = []) (a : Nat) :
    Memory.read a s.outMem = none := by
  have := (h.output a).not.mpr (not_shouldBeDefined_of_no_blocks h.status hb hd a)
  simpa using this

/-- A running command whose word or operands do not pass the checks has no block done. -/
theorem State.Inv.no_blocks (h : s.Inv c)
    (hfail : ∀ i, decode s.lat.cmd = .ok i → i.op = .size ∨ checkOperands c i.op i.format s.lat ≠ none) :
    s.doneBlocks = [] := by
  by_contra hd
  obtain ⟨-, i, hi, hop, hchk⟩ := h.progress.checked hd
  rcases hfail i hi with h' | h'
  · exact hop h'
  · exact h' hchk

/-- The error end of a running command whose word or operands do not pass the checks gives a state of the invariant. -/
theorem State.Inv.error_end (h : s.Inv c) (hb : s.busy = true) (e : ErrorCode)
    (hfail : ∀ i, decode s.lat.cmd = .ok i → i.op = .size ∨ checkOperands c i.op i.format s.lat ≠ none) :
    (raiseError e s).Inv c :=
  raiseError_inv e h.memory (h.read_outMem_none hb (h.no_blocks hfail))

/-- A checked command gives a state of the invariant if its body does on accepted operands. -/
theorem State.Inv.checked_command {i : Instr} {body : State → State} (h : s.Inv c) (hb : s.busy = true)
    (hi : decode s.lat.cmd = .ok i) (hbody : Accepted c i.op i.format s.lat → (body s).Inv c) :
    (checked c i.op i.format body s).Inv c := by
  rcases checked_cases c i.op i.format body s with ⟨e, he, e'⟩ | ⟨ha, e'⟩ <;> rw [e']
  · refine h.error_end hb e fun j hj => .inr ?_
    obtain rfl : i = j := Except.ok.inj (hi.symm.trans hj)
    simp [he]
  · exact hbody ha

/-- The end of a SIZE on accepted operands gives a state of the invariant: it has no block and writes nothing (R104). -/
theorem State.Inv.finish_size {i : Instr} (h : s.Inv c) (hc : c.lenMax < 2 ^ 32) (hb : s.busy = true)
    (hi : decode s.lat.cmd = .ok i) (hop : i.op = .size) (ha : Accepted c i.op i.format s.lat) :
    (finish (resultOf i.op i.format s.lat) s).Inv c := by
  have hnone := h.read_outMem_none hb <| h.no_blocks fun j hj => by
    obtain rfl : i = j := Except.ok.inj (hi.symm.trans hj)
    exact .inl hop
  have hcmd : decode s.cmd = .ok i := by rwa [(h.running hb).1] at hi
  exact finish_inv hc h.memory hcmd ha.resultOf_le fun a => by simp [hnone, hop]

theorem command_of_size {i : Instr} (hop : i.op = .size) : command c i s =
    checked c i.op i.format (fun s => finish (resultOf i.op i.format s.lat) s) s := by
  rw [command, hop]; rfl

theorem command_of_enc {i : Instr} (hop : i.op = .enc) : command c i s =
    checked c i.op i.format
      (fun s => finish (resultOf i.op i.format s.lat) (runBlocks (encOne c i.format) s)) s := by
  rw [command, hop]; rfl

theorem command_of_dec {i : Instr} (hop : i.op = .dec) : command c i s =
    checked c i.op i.format
      (fun s => finish (resultOf i.op i.format s.lat) (runBlocks (decOne i.format) s)) s := by
  rw [command, hop]; rfl

/-- The blocks of an ENC or a DEC, done to the end, keep the invariant. -/
theorem State.Inv.all_blocks {i : Instr} {body : State → Nat → State} (h : s.Inv c) (hc : c.lenMax < 2 ^ 32)
    (hb : s.busy = true) (hi : decode s.lat.cmd = .ok i) (hop : i.op ≠ .size) (hbody : WritesBlocks i.op i.format body) :
    (checked c i.op i.format
      (fun s => finish (resultOf i.op i.format s.lat) (runBlocks body s)) s).Inv c :=
  h.checked_command hb hi fun ha => (h.working hb hi hop ha).runBlocks_inv hbody hc

/-- One block of an ENC or a DEC keeps the invariant. -/
theorem State.Inv.one_block {i : Instr} {body : State → Nat → State} (n : Nat) (h : s.Inv c) (hc : c.lenMax < 2 ^ 32)
    (hb : s.busy = true) (hi : decode s.lat.cmd = .ok i) (hop : i.op ≠ .size) (hbody : WritesBlocks i.op i.format body) :
    (checked c i.op i.format
      (fun s => blockStep body (resultOf i.op i.format s.lat) n s) s).Inv c :=
  h.checked_command hb hi fun ha => (h.working hb hi hop ha).blockStep_inv hbody n hc

/-- A command run to its end keeps the invariant (R103). -/
theorem command_inv {i : Instr} (h : s.Inv c) (hc : c.lenMax < 2 ^ 32) (hb : s.busy = true)
    (hi : decode s.lat.cmd = .ok i) : (command c i s).Inv c := by
  cases hop : i.op with
  | size =>
    rw [command_of_size hop]
    exact h.checked_command hb hi (h.finish_size hc hb hi hop)
  | enc =>
    rw [command_of_enc hop]
    exact h.all_blocks hc hb hi (by simp [hop]) (hop ▸ encOne_writesBlocks c i.format)
  | dec =>
    rw [command_of_dec hop]
    exact h.all_blocks hc hb hi (by simp [hop]) (hop ▸ decOne_writesBlocks i.format)

/-- The BTC's step to the end of its command keeps the invariant (R103, R108). -/
theorem runCommand_inv {t : State} (h : s.Inv c) (hc : c.lenMax < 2 ^ 32) (hb : s.busy = true)
    (ht : runCommand (fun i s => .next (command c i s)) s = .next t) : t.Inv c := by
  rcases runCommand_cases (fun i s => .next (command c i s)) s with ⟨e, he, e'⟩ | ⟨i, hi, e'⟩ <;>
    obtain rfl := Host.Outcome.next.inj (e'.symm.trans ht)
  · exact h.error_end hb e fun i hi => by simp [he] at hi
  · exact command_inv h hc hb hi

/-- The BTC's step on one block keeps the invariant (R107). -/
theorem runBlock_inv {t : State} {n : Nat} (h : s.Inv c) (hc : c.lenMax < 2 ^ 32) (hb : s.busy = true)
    (ht : runBlock c (fun i s => .next (command c i s)) n s = .next t) : t.Inv c := by
  rcases runBlock_cases c (fun i s => .next (command c i s)) n s with
      ⟨e, he, e'⟩ | ⟨i, hi, ⟨hop, e'⟩ | ⟨hop, e'⟩ | ⟨hop, e'⟩⟩ <;>
    obtain rfl := Host.Outcome.next.inj (e'.symm.trans ht)
  · exact h.error_end hb e fun i hi => by simp [he] at hi
  · exact command_inv h hc hb hi
  · rw [encBlockStep, ← hop]
    exact h.one_block n hc hb hi (by simp [hop]) (hop ▸ encOne_writesBlocks c i.format)
  · rw [decBlockStep, ← hop]
    exact h.one_block n hc hb hi (by simp [hop]) (hop ▸ decOne_writesBlocks i.format)

/-- Every step keeps the invariant; of the parameters it needs that RESULT can hold `LEN_MAX`. -/
theorem stepWith_inv {t : State} (hc : c.lenMax < 2 ^ 32) (h : s.Inv c) (ht : stepWith c s = .next t) : t.Inv c := by
  have htail : ∀ ts, State.Inv c { s with turns := ts } := fun ts => h.of_bare_eq rfl
  unfold stepWith at ht
  rcases nextTurn_cases c (fun i s => .next (command c i s)) s with
    ⟨-, -, e⟩ | ⟨-, hb, e⟩ | ⟨ts, ⟨m, -, e⟩ | ⟨-, hb, e⟩ | ⟨n, -, hb, e⟩ | ⟨-, -, e⟩⟩ <;> rw [e] at ht
  · exact Host.Outcome.next.inj ht ▸ h
  · exact runCommand_inv h hc hb ht
  · exact hostMove_inv (htail ts) ht
  · exact runCommand_inv (htail ts) hc hb ht
  · exact runBlock_inv (htail ts) hc hb ht
  · exact Host.Outcome.next.inj ht ▸ htail ts

end

theorem Config.lenMax_lt_of_wellFormed {c : Config} (h : c.wellFormed = true) : c.lenMax < 2 ^ 32 := by
  simp only [Config.wellFormed, Bool.and_eq_true, decide_eq_true_eq] at h
  exact h.1.2

/-- Settles O60: every turn of a run keeps the invariant, and of well-formed parameters only the bound of `LEN_MAX` matters. -/
theorem stepKeepsInvariantAnyParameters : Obligations.StepKeepsInvariantAnyParameters := by
  intro c s t hc h ht
  exact stepWith_inv (Config.lenMax_lt_of_wellFormed hc) h ht

end Sys2Proof.Machine
end

section
/-! ## ENC under any strategy

What the fold over the blocks of an ENC leaves in OUT: the bytes of block `n` stand at `n * BPB` (R49, R105). -/

namespace Sys2Proof.Machine

open Sys2Proof

section
variable {c : Config} {fmt : Format}

/-- The bytes of a block depend on the latches, IN and the draw counter alone, which no block changes. -/
theorem encBytes_of_sameInputs {s t : State} (h : SameInputs s t) (n : Nat) :
    encBytes c fmt t n = encBytes c fmt s n := by
  simp only [encBytes, h.lat, h.inMem, h.draws]

/-- A byte of block `n`: its address is in the range of block `m` only if `m` is `n`. -/
theorem block_of_addr {b n m j : Nat} (hj : j < b) (hlo : m * b ≤ n * b + j) (hhi : n * b + j < m * b + b) : m = n := by
  have hmn : m * b < (n + 1) * b := by rw [Nat.succ_mul]; omega
  have hnm : n * b < (m + 1) * b := by rw [Nat.succ_mul]; omega
  have := Nat.lt_of_mul_lt_mul_right hmn
  have := Nat.lt_of_mul_lt_mul_right hnm
  omega

/-- After ENC's work on block `m` a byte of block `n` is the block's own if `m` is `n`, else what it was. -/
theorem read_encOne {s : State} {n m j : Nat} (hj : j < bpb fmt) :
    Memory.read (n * bpb fmt + j) (encOne c fmt s m).outMem =
      if m = n then (encBytes c fmt s n)[j]? else Memory.read (n * bpb fmt + j) s.outMem := by
  rw [encOne, advance_outMem, encCells, read_writeAll_cellsAt, encBytes_length]
  by_cases hmn : m = n
  · subst hmn
    rw [if_pos (by omega), if_pos rfl, Nat.add_sub_cancel_left]
  · rw [if_neg fun h => hmn (block_of_addr hj h.1 h.2), if_neg hmn]

/-- After ENC's work on a list of blocks, each byte of each of them is the block's own, and of any other block what it was. -/
theorem read_foldl_encOne (l : List Nat) (s : State) {n j : Nat} (hj : j < bpb fmt) :
    Memory.read (n * bpb fmt + j) (l.foldl (encOne c fmt) s).outMem =
      if n ∈ l then (encBytes c fmt s n)[j]? else Memory.read (n * bpb fmt + j) s.outMem := by
  induction l generalizing s with
  | nil => simp
  | cons m l ih =>
    rw [List.foldl_cons, ih, encBytes_of_sameInputs (encOne_frame c fmt s m).toSameInputs, read_encOne hj]
    by_cases hl : n ∈ l
    · simp [hl]
    · by_cases hmn : m = n
      · simp [hmn]
      · simp [hl, hmn, Ne.symm hmn]

/-- A freshly started command has all its blocks to do. -/
theorem remaining_of_no_blocks {s : State} (h : s.doneBlocks = []) : remaining s = List.range s.lat.blocks := by
  simp [remaining, h]

/-- ENC on accepted operands: every remaining block, then the successful end (R105). -/
theorem encCommand_of_accepted {s : State} (h : Accepted c .enc fmt s.lat) :
    encCommand c fmt s = finish (resultOf .enc fmt s.lat) (runBlocks (encOne c fmt) s) :=
  checked_of_accepted _ h

/-- The end of an ENC or a DEC changes nothing that no command changes. -/
theorem finish_runBlocks_sameInputs {body : State → Nat → State} (hb : ∀ s n, BlockFrame s (body s n)) (r : Nat)
    (s : State) : SameInputs s (finish r (runBlocks body s)) :=
  (runBlocks_frame hb s).toSameInputs.trans (finish_sameInputs r _)

/-- A successful end shows DONE alone, and RESULT holds the result if it fits the register (R203). -/
theorem finish_endedWith {r : Nat} (hr : r < 2 ^ 32) (s : State) : EndedWith r (finish r s) where
  busy := finish_busy r s
  done := finish_done r s
  err := finish_err r s
  ecode := finish_ecode r s
  result := Nat.mod_eq_of_lt hr

/-- Block `n` of a fresh ENC whose tile is defined reads, byte by byte, as `EncBlock` of the tile (R105, R147). -/
theorem read_encCommand {s : State} {n : Nat} {P : Tile} {j : Nat} (hfresh : s.doneBlocks = [])
    (h : Accepted c .enc fmt s.lat) (hn : n < s.lat.blocks) (hP : gatherTile s.lat s.inMem n = some P)
    (hj : j < bpb fmt) :
    Memory.read (n * bpb fmt + j) (encCommand c fmt s).outMem = (encBlock c fmt P)[j]? := by
  have hbytes : encBytes c fmt s n = encBlock c fmt P := by simp [encBytes, hP]
  rw [encCommand_of_accepted h, finish_outMem, runBlocks, remaining_of_no_blocks hfresh, read_foldl_encOne _ _ hj,
    if_pos (List.mem_range.mpr hn), hbytes]

end

/-- Settles O24: the blocks of an ENC do not overlap, so each keeps the bytes the strategy chose for its tile. -/
theorem encUnderAnyStrategy : Obligations.EncUnderAnyStrategy := by
  intro c fmt s hc hfresh h
  refine ⟨?_, ?_, fun n hn P hP j hj => ?_⟩
  · rw [encCommand_of_accepted h]
    exact finish_endedWith (lt_of_le_of_lt h.compressed hc) _
  · rw [encCommand_of_accepted h]
    exact finish_runBlocks_sameInputs (encOne_frame c fmt) _ s
  · rw [read_encCommand hfresh h hn hP hj]
    cases fmt <;> rfl

end Sys2Proof.Machine
end

section
/-! ## The reference strategy meets the contract

The indices of a packed block are the ones that were packed, so a candidate's error is its block's; the searches return a
candidate of least error, and the flat blocks of R127 are candidates (R128, R140). -/

namespace Sys2Proof.Machine

open Sys2Proof

/-! ### The blocks of the candidates -/

theorem colorIndex_packColorBlock (c0 c1 : Half) (ci : Fin 16 → BitVec 2) (k : Fin 16) :
    colorIndex (packColorBlock c0 c1 ci) k = ci k := fieldAt_packFields ci k

theorem alphaIndex_packAlphaBlock (a0 a1 : Byte) (ai : Fin 16 → BitVec 3) (k : Fin 16) :
    alphaIndex (packAlphaBlock a0 a1 ai) k = ai k := fieldAt_packFields ai k

@[simp] theorem colorIndex_colorFit (w : Weights) (P : Tile) (bc1 : Bool) (c0 c1 : Half) (k : Fin 16) :
    colorIndex (colorFit w P bc1 c0 c1).block k = fitIndex w P bc1 c0 c1 k := colorIndex_packColorBlock ..

@[simp] theorem colorPixel_colorFit (w : Weights) (P : Tile) (bc1 : Bool) (c0 c1 : Half) (k : Fin 16) :
    colorPixel (colorFit w P bc1 c0 c1).block bc1 k =
      colorAt (colorPalette c0 c1 bc1) (fitIndex w P bc1 c0 c1 k) := by
  rw [colorPixel, colorIndex_colorFit]; rfl

@[simp] theorem alphaValue_alphaFit (A : Alphas) (a0 a1 : Byte) (k : Fin 16) :
    alphaValue (alphaFit A a0 a1).block k =
      alphaAt (alphaPalette a0 a1) (fitAlphaIndex (alphaPalette a0 a1) A[k]) := by
  rw [alphaValue, alphaFit, alphaIndex_packAlphaBlock]; rfl

/-- The error of a colour candidate is the error of its block (R131). -/
theorem colErr_colorFit (w : Weights) (P : Tile) (bc1 : Bool) (c0 c1 : Half) :
    colErr w (colorFit w P bc1 c0 c1).block P bc1 = (colorFit w P bc1 c0 c1).err := by
  simp only [colErr, colorPixel_colorFit]; rfl

/-- The error of an alpha candidate is the error of its block (R141). -/
theorem alphaErr_alphaFit (A : Alphas) (a0 a1 : Byte) :
    alphaErr (alphaFit A a0 a1).block A = (alphaFit A a0 a1).err := by
  simp only [alphaErr, alphaValue_alphaFit]; rfl

/-! ### The indices of the candidates -/

/-- The allowed indices after 0 are all but 0, and all but 3 too in 3-colour mode (R130). -/
theorem mem_laterIndices {c0 c1 : Half} {bc1 : Bool} {n : BitVec 2} :
    n ∈ laterIndices c0 c1 bc1 ↔ n ≠ 0 ∧ (threeColor c0 c1 bc1 = true → n ≠ 3) := by
  have h3 : ∀ n : BitVec 2, n ∈ ([1, 2] : List (BitVec 2)) ↔ n ≠ 0 ∧ n ≠ 3 := by decide
  have h4 : ∀ n : BitVec 2, n ∈ ([1, 2, 3] : List (BitVec 2)) ↔ n ≠ 0 := by decide
  unfold laterIndices
  cases threeColor c0 c1 bc1
  · simpa using h4 n
  · simpa using h3 n

/-- The nearest index is no farther than any the mode allows (R130). -/
theorem nearestIndex_le (w : Weights) (pal : Vector Pixel 4) {c0 c1 : Half} {bc1 : Bool} (p : Pixel) {n : BitVec 2}
    (hn : threeColor c0 c1 bc1 = true → n ≠ 3) :
    dist w p (colorAt pal (nearestIndex w pal (laterIndices c0 c1 bc1) p)) ≤ dist w p (colorAt pal n) := by
  have hle := firstLeast_le (fun n => dist w p (colorAt pal n)) 0 (laterIndices c0 c1 bc1)
  by_cases h0 : n = 0
  · rw [h0]; exact hle.1
  · exact hle.2 n (mem_laterIndices.mpr ⟨h0, hn⟩)

/-- In 3-colour mode the nearest index is never 3 (R130). -/
theorem nearestIndex_ne_three (w : Weights) (pal : Vector Pixel 4) {c0 c1 : Half} {bc1 : Bool} (p : Pixel)
    (h : threeColor c0 c1 bc1 = true) : nearestIndex w pal (laterIndices c0 c1 bc1) p ≠ 3 := by
  rcases firstLeast_mem (fun n => dist w p (colorAt pal n)) 0 (laterIndices c0 c1 bc1) with e | hmem
  · rw [nearestIndex, e]; decide
  · exact (mem_laterIndices.mp hmem).2 h

/-- A pixel of the search gets the nearest index (R130). -/
theorem fitIndex_of_mem {w : Weights} {P : Tile} {bc1 : Bool} {c0 c1 : Half} {k : Fin 16} (hk : k ∈ searchSet P bc1) :
    fitIndex w P bc1 c0 c1 k =
      nearestIndex w (colorPalette c0 c1 bc1) (laterIndices c0 c1 bc1) P[k] := by
  simp only [fitIndex, mem_searchSet.mp hk]; rfl

/-- In 3-colour mode exactly the pixels outside the search get index 3 (R130). -/
theorem fitIndex_eq_three_iff {w : Weights} {P : Tile} {bc1 : Bool} {c0 c1 : Half} (k : Fin 16)
    (h : threeColor c0 c1 bc1 = true) :
    fitIndex w P bc1 c0 c1 k = 3 ↔ (punch P bc1 && transparent P[k]) = true := by
  by_cases hk : k ∈ searchSet P bc1
  · rw [fitIndex_of_mem hk, mem_searchSet.mp hk]
    exact iff_of_false (nearestIndex_ne_three w _ _ h) (by decide)
  · have hout : (punch P bc1 && transparent P[k]) = true := by simpa [mem_searchSet] using hk
    exact iff_of_true (if_pos hout) hout

/-- Every alpha index is no farther than any of the eight (R141). -/
theorem fitAlphaIndex_le (ap : Vector Byte 8) (a : Byte) (n : BitVec 3) :
    sqDiff a (alphaAt ap (fitAlphaIndex ap a)) ≤ sqDiff a (alphaAt ap n) := by
  have hall : ∀ n : BitVec 3, n = 0 ∨ n ∈ ([1, 2, 3, 4, 5, 6, 7] : List (BitVec 3)) := by decide
  have hle := firstLeast_le (fun n => sqDiff a (alphaAt ap n)) 0 [1, 2, 3, 4, 5, 6, 7]
  rcases hall n with h0 | hn
  · rw [h0]; exact hle.1
  · exact hle.2 n hn

/-! ### What the searches return -/

@[simp] theorem orient_self (e : Half) (pun : Bool) : orient e e pun = (e, e) := by
  cases pun <;> simp [orient]

/-- With a transparent pixel the smaller endpoint comes first (R129). -/
theorem orient_punch (e0 e1 : Half) : (orient e0 e1 true).1 ≤ (orient e0 e1 true).2 := by
  by_cases h : e0 ≤ e1
  · simp [orient, h]
  · simpa [orient, h] using BitVec.le_of_lt (BitVec.not_le.mp h)

/-- Without one the larger endpoint comes first (R129). -/
theorem orient_opaque (e0 e1 : Half) : (orient e0 e1 false).2 ≤ (orient e0 e1 false).1 := by
  by_cases h : e0 ≤ e1
  · simp [orient, h]
  · simpa [orient, h] using BitVec.le_of_lt (BitVec.not_le.mp h)

/-- What the colour search returns where it has a pixel to fit: a candidate of the search, no worse than any (R128). -/
theorem encColorBlock_of_mem {w : Weights} {P : Tile} {bc1 : Bool} {k : Fin 16} (hk : k ∈ searchSet P bc1) :
    ∃ e0 e1, let e := orient e0 e1 (punch P bc1)
      encColorBlock w P bc1 = (colorFit w P bc1 e.1 e.2).block ∧
        ∀ g ∈ colorCandidates w P bc1, (colorFit w P bc1 e.1 e.2).err ≤ g.err := by
  rcases encColorBlock_cases w P bc1 with ⟨hnil, -⟩ | ⟨f, hf, e, hle⟩
  · rw [hnil] at hk; cases hk
  · obtain ⟨⟨i, j⟩, -, rfl⟩ := List.mem_map.mp hf
    exact ⟨pack565 P[i], pack565 P[j], e, hle⟩

/-- The flat block of a pixel of the search is one of its candidates (R127, R128). -/
theorem flat_mem_colorCandidates (w : Weights) {P : Tile} {bc1 : Bool} {i : Fin 16} (hi : i ∈ searchSet P bc1) :
    colorFit w P bc1 (pack565 P[i]) (pack565 P[i]) ∈ colorCandidates w P bc1 :=
  List.mem_map.mpr ⟨(i, i), mem_searchPairs.mpr ⟨hi, hi, le_refl i⟩, by simp⟩

/-- What the alpha search returns: a candidate, no worse than that of any ordered pair (R140). -/
theorem encAlpha3_cases (A : Alphas) :
    ∃ a0 a1, encAlpha3 A = (alphaFit A a0 a1).block ∧
      ∀ i j : Fin 16, (alphaFit A a0 a1).err ≤ (alphaFit A A[i] A[j]).err := by
  have hmem : ∀ i j : Fin 16, alphaFit A A[i] A[j] ∈ alphaCandidates A := fun i j =>
    List.mem_flatMap.mpr ⟨i, mem_tileIndices i, List.mem_map.mpr ⟨j, mem_tileIndices j, rfl⟩⟩
  have hpair : ∃ a0 a1, firstLeast (·.err) (alphaFit A A[0] A[0]) (alphaCandidates A) = alphaFit A a0 a1 := by
    rcases firstLeast_mem (·.err) (alphaFit A A[0] A[0]) (alphaCandidates A) with e | hf
    · exact ⟨_, _, e⟩
    · obtain ⟨i, -, hf⟩ := List.mem_flatMap.mp hf
      obtain ⟨j, -, e⟩ := List.mem_map.mp hf
      exact ⟨_, _, e.symm⟩
  obtain ⟨a0, a1, e⟩ := hpair
  refine ⟨a0, a1, by rw [encAlpha3, e], fun i j => ?_⟩
  rw [← e]
  exact (firstLeast_le (·.err) _ _).2 _ (hmem i j)

/-! ### The clauses of the contract -/

/-- A BC1 tile all of whose pixels are transparent has nothing to search (R125). -/
theorem transparent_of_searchSet_eq_nil {P : Tile} {bc1 : Bool} (h : searchSet P bc1 = []) (k : Fin 16) :
    punch P bc1 = true ∧ transparent P[k] = true := by
  have hk : k ∉ searchSet P bc1 := by simp [h]
  simpa [mem_searchSet] using hk

/-- A tile with a transparent pixel: the smaller endpoint first, and index 3 exactly at the transparent pixels (Q-mode). -/
theorem encColorBlock_punch (w : Weights) {P : Tile} (hp : punch P true = true) :
    (encColorBlock w P true).c0 ≤ (encColorBlock w P true).c1 ∧
      ∀ k : Fin 16, colorIndex (encColorBlock w P true) k = 3 ↔ transparent P[k] = true := by
  by_cases hnil : searchSet P true = []
  · have hblock : encColorBlock w P true = { c0 := 0, c1 := 0, cw := 0xFFFFFFFF } := by
      simp [encColorBlock, colorCandidates, searchPairs, hnil]
    have hthree : ∀ k : Fin 16, colorIndex { c0 := 0, c1 := 0, cw := 0xFFFFFFFF } k = 3 := by decide
    rw [hblock]
    exact ⟨BitVec.le_refl _, fun k => iff_of_true (hthree k) (transparent_of_searchSet_eq_nil hnil k).2⟩
  · obtain ⟨k, hk⟩ := List.exists_mem_of_ne_nil _ hnil
    obtain ⟨e0, e1, e, -⟩ := encColorBlock_of_mem (w := w) hk
    rw [e, hp]
    have hle := orient_punch e0 e1
    refine ⟨hle, fun k => ?_⟩
    rw [colorIndex_colorFit, fitIndex_eq_three_iff k (by simpa [threeColor] using hle)]
    simp [hp]

/-- A tile without one: 4-colour mode, or 3-colour mode without index 3 (Q-mode). -/
theorem encColorBlock_opaque (w : Weights) {P : Tile} (hp : punch P true = false) :
    (encColorBlock w P true).c1 < (encColorBlock w P true).c0 ∨
      ∀ k : Fin 16, colorIndex (encColorBlock w P true) k ≠ 3 := by
  obtain ⟨e0, e1, e, -⟩ := encColorBlock_of_mem (w := w) (show 0 ∈ searchSet P true by simp [mem_searchSet, hp])
  rw [e]
  by_cases hlt : (orient e0 e1 (punch P true)).2 < (orient e0 e1 (punch P true)).1
  · exact .inl hlt
  · refine .inr fun k hk => ?_
    rw [colorIndex_colorFit, fitIndex_eq_three_iff k (by simpa [threeColor] using hlt)] at hk
    simp [hp] at hk

theorem referenceQuantizer_mode (w : Weights) : QMode (referenceQuantizer w) :=
  fun _ => ⟨encColorBlock_punch w, encColorBlock_opaque w⟩

theorem referenceQuantizer_indexColor (w : Weights) : QIndexColor w (referenceQuantizer w) := by
  intro P bc1 k n hk
  obtain ⟨e0, e1, e, -⟩ := encColorBlock_of_mem (w := w) hk
  simp only [referenceQuantizer, e, colorPixel_colorFit, fitIndex_of_mem hk]
  exact nearestIndex_le w _ _

theorem referenceQuantizer_indexAlpha (w : Weights) : QIndexAlpha (referenceQuantizer w) := by
  intro A k n
  obtain ⟨a0, a1, e, -⟩ := encAlpha3_cases A
  simp only [referenceQuantizer, e, alphaValue_alphaFit]
  exact fitAlphaIndex_le _ _ n

theorem referenceQuantizer_flatColor (w : Weights) : QFlatColor w (referenceQuantizer w) := by
  intro P bc1 i hi
  obtain ⟨e0, e1, e, hle⟩ := encColorBlock_of_mem (w := w) hi
  simp only [referenceQuantizer, e, flatColor, colErr_colorFit]
  exact hle _ (flat_mem_colorCandidates w hi)

theorem referenceQuantizer_flatAlpha (w : Weights) : QFlatAlpha (referenceQuantizer w) := by
  intro A i
  obtain ⟨a0, a1, e, hle⟩ := encAlpha3_cases A
  simp only [referenceQuantizer, e, flatAlpha, alphaErr_alphaFit]
  exact hle i i

/-- The reference strategy meets the contract under the weights it searches with (R127). -/
theorem referenceQuantizer_contract (w : Weights) : QuantizerContract w (referenceQuantizer w) where
  mode := referenceQuantizer_mode w
  indexColor := referenceQuantizer_indexColor w
  indexAlpha := referenceQuantizer_indexAlpha w
  flatColor := referenceQuantizer_flatColor w
  flatAlpha := referenceQuantizer_flatAlpha w

theorem strategy_of_reference {c : Config} (h : c.quantizer = referenceQuantizer) :
    c.strategy = referenceQuantizer c.weights := congrFun h c.weights

theorem legalConfig_of_reference {c : Config} (hc : c.wellFormed = true) (h : c.quantizer = referenceQuantizer) :
    LegalConfig c := ⟨hc, strategy_of_reference h ▸ referenceQuantizer_contract c.weights⟩

/-- Settles O46, clause by clause of the contract. -/
theorem referenceMeetsContract : Obligations.ReferenceMeetsContract := by
  refine ⟨referenceQuantizer_contract, fun c hc h => ⟨legalConfig_of_reference hc h, fun P bc1 => ?_⟩,
    legalConfig_of_reference (by decide) rfl⟩
  rw [strategy_of_reference h]
  rfl

end Sys2Proof.Machine
end

section
/-! ## What the BTC's own work keeps

Every step of the BTC is made of three operations: the work on a block, the successful end and the error end (R103 to
R107, R203, R204). What each of them keeps, every step without a host move keeps. -/

namespace Sys2Proof.Machine

open Sys2Proof

/-- A predicate kept by the three operations a command is made of; the cells a block writes are below `LEN_MAX`. -/
structure KeptByWork (c : Config) (P : State → Prop) : Prop where
  advance : ∀ n cells tile s, (∀ x ∈ cells, x.1 < c.lenMax) → P s → P (advance n cells tile s)
  finish : ∀ r s, P s → P (finish r s)
  raiseError : ∀ e s, P s → P (raiseError e s)

namespace KeptByWork

variable {c : Config} {P : State → Prop} {s : State}

section
variable {op : Operation} {fmt : Format} {body : State → Nat → State}

/-- The work on one block of an accepted command: all it writes is below RESULT, hence below `LEN_MAX`. -/
theorem block (hP : KeptByWork c P) (hbody : WritesBlocks op fmt body) (hop : op ≠ .size)
    (ha : Accepted c op fmt s.lat) {n : Nat} (hn : n < s.lat.blocks) (hs : P s) : P (body s n) := by
  obtain ⟨cells, tile, e, hcells⟩ := hbody s n
  rw [e]
  refine hP.advance n cells tile s (fun x hx => ?_) hs
  have haddr : x.1 ∈ outAddrs op fmt s.lat n := (hcells x.1).mp ⟨x, hx, rfl⟩
  exact lt_of_lt_of_le ((blocks_cover hop fmt s.lat x.1).mp ⟨n, hn, haddr⟩) ha.resultOf_le

/-- The work on a list of blocks of an accepted command. -/
theorem foldl (hP : KeptByWork c P) (hbody : WritesBlocks op fmt body) (hop : op ≠ .size) (l : List Nat)
    (ha : Accepted c op fmt s.lat) (hl : ∀ n ∈ l, n < s.lat.blocks) (hs : P s) : P (l.foldl body s) := by
  induction l generalizing s with
  | nil => exact hs
  | cons n l ih =>
    have hlat : (body s n).lat = s.lat := by obtain ⟨cells, tile, e, -⟩ := hbody s n; rw [e, advance_lat]
    exact ih (hlat ▸ ha) (fun m hm => hlat ▸ hl m (List.mem_cons_of_mem _ hm))
      (hP.block hbody hop ha (hl n (by simp)) hs)

/-- A block step of an accepted command (R107). -/
theorem blockStep (hP : KeptByWork c P) (hbody : WritesBlocks op fmt body) (hop : op ≠ .size)
    (ha : Accepted c op fmt s.lat) (r n : Nat) (hs : P s) : P (blockStep body r n s) := by
  obtain ⟨t, ht, hend⟩ := blockStep_cases body r n s
  have hPt : P t := by
    rcases ht with ⟨hn, -, rfl⟩ | ⟨-, rfl⟩
    · exact hP.block hbody hop ha hn hs
    · exact hs
  rcases hend with ⟨-, e⟩ | ⟨-, e⟩ <;> rw [e]
  · exact hP.finish r t hPt
  · exact hPt

/-- A checked command: the error end, or its body on accepted operands. -/
theorem checked (hP : KeptByWork c P) {f : State → State} (hf : Accepted c op fmt s.lat → P (f s)) (hs : P s) :
    P (checked c op fmt f s) := by
  rcases checked_cases c op fmt f s with ⟨e, -, e'⟩ | ⟨ha, e'⟩ <;> rw [e']
  · exact hP.raiseError e s hs
  · exact hf ha

/-- All remaining blocks and the successful end (R103). -/
theorem allBlocks (hP : KeptByWork c P) (hbody : WritesBlocks op fmt body) (hop : op ≠ .size) (r : Nat) (hs : P s)
    (ha : Accepted c op fmt s.lat) : P (Machine.finish r (runBlocks body s)) :=
  hP.finish r _ (hP.foldl hbody hop _ ha (fun _ hn => (mem_remaining.mp hn).1) hs)

end

/-- A command run to its end (R103). -/
theorem command (hP : KeptByWork c P) (i : Instr) (hs : P s) : P (command c i s) := by
  cases hop : i.op with
  | size => rw [command_of_size hop]; exact hP.checked (fun _ => hP.finish _ s hs) hs
  | enc =>
    rw [command_of_enc hop, hop]
    exact hP.checked (hP.allBlocks (encOne_writesBlocks c i.format) (by decide) _ hs) hs
  | dec =>
    rw [command_of_dec hop, hop]
    exact hP.checked (hP.allBlocks (decOne_writesBlocks i.format) (by decide) _ hs) hs

/-- The BTC's step to the end of its command (R103, R108). -/
theorem runCommand (hP : KeptByWork c P) {t : State} (hs : P s)
    (ht : runCommand (fun i s => .next (Machine.command c i s)) s = .next t) : P t := by
  rcases runCommand_cases (fun i s => .next (Machine.command c i s)) s with ⟨e, -, e'⟩ | ⟨i, -, e'⟩ <;>
    obtain rfl := Host.Outcome.next.inj (e'.symm.trans ht)
  · exact hP.raiseError e s hs
  · exact hP.command i hs

/-- The BTC's step on one block (R107). -/
theorem runBlock (hP : KeptByWork c P) {t : State} {n : Nat} (hs : P s)
    (ht : runBlock c (fun i s => .next (Machine.command c i s)) n s = .next t) : P t := by
  rcases runBlock_cases c (fun i s => .next (Machine.command c i s)) n s with
      ⟨e, -, e'⟩ | ⟨i, -, ⟨-, e'⟩ | ⟨-, e'⟩ | ⟨-, e'⟩⟩ <;>
    obtain rfl := Host.Outcome.next.inj (e'.symm.trans ht)
  · exact hP.raiseError e s hs
  · exact hP.command i hs
  · exact hP.checked (fun ha => hP.blockStep (encOne_writesBlocks c i.format) (by decide) ha _ n hs) hs
  · exact hP.checked (fun ha => hP.blockStep (decOne_writesBlocks i.format) (by decide) ha _ n hs) hs

/-- What the BTC's work keeps, a step keeps, if taking the turn off and the host move keep it. -/
theorem stepWith (hP : KeptByWork c P) {t : State} (hs : P s) (htail : ∀ ts, P { s with turns := ts })
    (hhost : ∀ m ts, s.turns = .host m :: ts → hostMove c m { s with turns := ts } = .next t → P t)
    (ht : stepWith c s = .next t) : P t := by
  unfold Machine.stepWith at ht
  rcases nextTurn_cases c (fun i s => .next (Machine.command c i s)) s with
    ⟨-, -, e⟩ | ⟨-, -, e⟩ | ⟨ts, ⟨m, hts, e⟩ | ⟨-, -, e⟩ | ⟨n, -, -, e⟩ | ⟨-, -, e⟩⟩ <;> rw [e] at ht
  · exact Host.Outcome.next.inj ht ▸ hs
  · exact hP.runCommand hs ht
  · exact hhost m ts hts ht
  · exact hP.runCommand (htail ts) ht
  · exact hP.runBlock (htail ts) ht
  · exact Host.Outcome.next.inj ht ▸ htail ts

end KeptByWork

/-! ### The memories -/

theorem memoryOk_keptByWork (c : Config) : KeptByWork c (State.MemoryOk c) where
  advance _ cells _ _ hcells h :=
    ⟨h.inCanonical, writeAll_wf cells h.outCanonical, h.inBelow, writeAll_below h.outBelow hcells⟩
  finish _ _ h := ⟨h.inCanonical, h.outCanonical, h.inBelow, h.outBelow⟩
  raiseError _ _ h := ⟨h.inCanonical, h.outCanonical, h.inBelow, h.outBelow⟩

/-- A state that holds the same memories has them canonical and within `LEN_MAX` too. -/
theorem State.MemoryOk.of_eq {c : Config} {s t : State} (h : s.MemoryOk c) (hin : t.inMem = s.inMem)
    (hout : t.outMem = s.outMem) : t.MemoryOk c :=
  ⟨hin ▸ h.inCanonical, hout ▸ h.outCanonical, hin ▸ h.inBelow, hout ▸ h.outBelow⟩

/-- OUT without a defined byte is canonical and within `LEN_MAX`. -/
theorem State.MemoryOk.of_empty_out {c : Config} {s t : State} (h : s.MemoryOk c) (hin : t.inMem = s.inMem)
    (hout : t.outMem = []) : t.MemoryOk c :=
  ⟨hin ▸ h.inCanonical, hout ▸ rfl, hin ▸ h.inBelow, hout ▸ fun _ hx => nomatch hx⟩

theorem writeRegister_memoryOk {c : Config} {s : State} (r : Reg) (v : Word) (h : s.MemoryOk c) :
    (writeRegister r v s).MemoryOk c := by
  rcases writeRegister_cases r v s with ⟨-, e⟩ | ⟨-, ⟨-, e⟩ | ⟨-, e⟩ | ⟨-, e⟩ | ⟨-, e⟩ | ⟨-, e⟩⟩ <;> rw [e]
  · exact h
  · exact h.of_empty_out rfl rfl
  · exact h.of_eq rfl rfl
  · exact h.of_eq rfl rfl
  · exact h.of_eq rfl rfl
  · exact h

theorem writeInput_memoryOk {c : Config} {s : State} {a : Nat} (b : Byte) (ha : a < c.lenMax) (h : s.MemoryOk c) :
    (writeInput a b s).MemoryOk c := by
  unfold writeInput
  split
  · exact h
  · exact ⟨write_wf a b h.inCanonical, h.outCanonical, write_below h.inBelow ha, h.outBelow⟩

theorem readOutput_memoryOk {c : Config} {s : State} (a : Nat) (h : s.MemoryOk c) : (readOutput a s).MemoryOk c := by
  rcases readOutput_cases a s with ⟨b, -, -, e⟩ | ⟨-, e⟩ <;> rw [e] <;> exact h.of_eq rfl rfl

/-- A move of the host keeps both memories canonical and within `LEN_MAX`. -/
theorem hostMove_memoryOk {c : Config} {m : HostMove} {s t : State} (h : s.MemoryOk c)
    (hm : hostMove c m s = .next t) : t.MemoryOk c := by
  rcases hostMove_cases hm with ⟨_, _, v, r, -, -, rfl⟩ | ⟨_, _, r, -, -, rfl⟩ | ⟨a, b, -, ha, rfl⟩ |
    ⟨a, -, -, rfl⟩ | ⟨-, rfl⟩
  · exact writeRegister_memoryOk r v h
  · exact h.of_eq rfl rfl
  · exact writeInput_memoryOk b ha h
  · exact readOutput_memoryOk a h
  · exact (reset_inv c).memory.of_eq rfl rfl

/-- Settles O58: the cells of a block lie below RESULT, which the checks keep within `LEN_MAX`, and the host writes only
addresses below it. -/
theorem stepKeepsMemories : Obligations.StepKeepsMemories := by
  intro s t h ht
  rw [step_eq_stepWith] at ht
  exact (memoryOk_keptByWork btcConfig).stepWith h (fun _ => h.of_eq rfl rfl)
    (fun _ _ _ => hostMove_memoryOk (h.of_eq rfl rfl)) ht

/-! ### The whole invariant -/

/-- Settles O59: the invariant holds under any parameters, those of the machine included. -/
theorem stepKeepsInvariant : Obligations.StepKeepsInvariant := by
  intro s t h ht
  rw [step_eq_stepWith] at ht
  exact stepWith_inv (by decide) h ht

/-- Settles O56. -/
theorem resetMeetsInvariant : Obligations.ResetMeetsInvariant := reset_inv btcConfig

/-! ### The operands and IN -/

/-- A state holds what no command changes, whatever turns are waiting (R23, R25, R203, R204; log entry 16). -/
def KeepsInputs (s t : State) : Prop := ∃ ts, SameInputs { s with turns := ts } t

theorem keepsInputs_keptByWork (c : Config) (s : State) : KeptByWork c (KeepsInputs s) where
  advance n cells tile u _ := fun ⟨ts, h⟩ => ⟨ts, h.trans (advance_frame n cells tile u).toSameInputs⟩
  finish r u := fun ⟨ts, h⟩ => ⟨ts, h.trans (finish_sameInputs r u)⟩
  raiseError e u := fun ⟨ts, h⟩ => ⟨ts, h.trans (raiseError_sameInputs e u)⟩

/-- Settles O34: no operation of the BTC's work touches its inputs, and no host move is waiting. -/
theorem ownStepKeepsInputs : Obligations.OwnStepKeepsInputs := by
  intro s t hsilent ht
  rw [step_eq_stepWith] at ht
  have hhost : ∀ m ts, s.turns = .host m :: ts →
      hostMove btcConfig m { s with turns := ts } = .next t → KeepsInputs s t :=
    fun m ts hts _ => absurd (by simp [hts]) (hsilent m)
  obtain ⟨ts, h⟩ := (keepsInputs_keptByWork btcConfig s).stepWith ⟨s.turns, SameInputs.refl s⟩
    (fun ts => ⟨ts, SameInputs.refl _⟩) hhost ht
  exact ⟨h.cmd, h.width, h.height, h.srcLen, h.lat, h.inMem, h.reads, h.draws⟩

/-! ### STATUS -/

theorem statusLegal_keptByWork (c : Config) : KeptByWork c State.StatusLegal where
  advance _ _ _ _ _ h := h.of_status_eq rfl
  finish r s _ := finish_statusLegal r s
  raiseError e s _ := raiseError_statusLegal e s

theorem writeRegister_statusLegal {s : State} (r : Reg) (v : Word) (h : s.StatusLegal) :
    (writeRegister r v s).StatusLegal := by
  rcases writeRegister_cases r v s with ⟨-, e⟩ | ⟨-, ⟨-, e⟩ | ⟨-, e⟩ | ⟨-, e⟩ | ⟨-, e⟩ | ⟨-, e⟩⟩ <;> rw [e]
  · exact h
  · exact startCommand_statusLegal v s
  · exact h.of_status_eq rfl
  · exact h.of_status_eq rfl
  · exact h.of_status_eq rfl
  · exact h

theorem writeInput_status (a : Nat) (b : Byte) (s : State) : (writeInput a b s).status = s.status := by
  unfold writeInput; split <;> rfl

theorem readOutput_status (a : Nat) (s : State) : (readOutput a s).status = s.status := by
  rcases readOutput_cases a s with ⟨b, -, -, e⟩ | ⟨-, e⟩ <;> rw [e] <;> rfl

/-- A move of the host keeps STATUS legal. -/
theorem hostMove_statusLegal {c : Config} {m : HostMove} {s t : State} (h : s.StatusLegal)
    (hm : hostMove c m s = .next t) : t.StatusLegal := by
  rcases hostMove_cases hm with ⟨_, _, v, r, -, -, rfl⟩ | ⟨_, _, r, -, -, rfl⟩ | ⟨a, b, -, -, rfl⟩ |
    ⟨a, -, -, rfl⟩ | ⟨-, rfl⟩
  · exact writeRegister_statusLegal r v h
  · exact h.of_status_eq rfl
  · exact h.of_status_eq (writeInput_status a b s)
  · exact h.of_status_eq (readOutput_status a s)
  · exact reset_statusLegal.of_status_eq rfl

/-- Settles O57: a start, the two ends and a reset write legal STATUS words, and nothing else writes STATUS. -/
theorem stepKeepsStatusLegal : Obligations.StepKeepsStatusLegal := by
  intro s t h ht
  rw [step_eq_stepWith] at ht
  exact (statusLegal_keptByWork btcConfig).stepWith h (fun _ => h.of_status_eq rfl)
    (fun _ _ _ => hostMove_statusLegal (h.of_status_eq rfl)) ht

end Sys2Proof.Machine
end

section
/-! ## The host's moves

What a step does when the next turn is the host's (R240): the registers at their offsets, IN and OUT below `LEN_MAX`,
reset, and the stop of every access outside the interface (I12). -/

namespace Sys2Proof.Machine

open Sys2Proof

/-- The next turn is the host's: the step is its move, after the turn is taken off. -/
theorem step_of_host {s : State} {m : HostMove} {ts : List Turn} (h : s.turns = .host m :: ts) :
    step s = hostMove btcConfig m { s with turns := ts } := by
  rw [step, nextTurn, h]
  rfl

/-- A register answers at its offset, by an access of four bytes, and nowhere else (R21, R35). -/
theorem ofAccess_eq_some_iff {offset bytes : Nat} {r : Reg} :
    Reg.ofAccess offset bytes = some r ↔ bytes = 4 ∧ offset = r.offset := by
  constructor
  · intro h
    unfold Reg.ofAccess at h
    split at h
    · rename_i hbytes
      have hfound := List.find?_some h
      exact ⟨hbytes, (beq_iff_eq.mp hfound).symm⟩
    · cases h
  · rintro ⟨rfl, rfl⟩
    cases r <;> rfl

/-- Settles O9. -/
theorem registerOffsets : Obligations.RegisterOffsets := by
  intro offset bytes r
  rw [ofAccess_eq_some_iff]
  cases r <;> rfl

section
variable {s : State} {ts : List Turn} {offset : Nat} {r : Reg}

/-- A host write of a register (R240). -/
theorem step_of_writeReg {v : Word} (hr : Reg.ofAccess offset 4 = some r)
    (h : s.turns = .host (.writeReg offset 4 v) :: ts) :
    step s = .next (writeRegister r v { s with turns := ts }) := by
  rw [step_of_host h, hostMove, hr]

/-- A host read of a register (R240). -/
theorem step_of_readReg (hr : Reg.ofAccess offset 4 = some r) (h : s.turns = .host (.readReg offset 4) :: ts) :
    step s = .next (observe (.word (readRegister r s)) { s with turns := ts }) := by
  rw [step_of_host h, hostMove, hr]
  rfl

/-- A host write of a byte of IN that exists (R240). -/
theorem step_of_writeIn {a : Nat} {b : Byte} (ha : a < 2 ^ 32 - 1) (h : s.turns = .host (.writeIn a b) :: ts) :
    step s = .next (writeInput a b { s with turns := ts }) := by
  rw [step_of_host h]
  exact if_pos ha

/-- A host read of a byte of OUT that exists (R240). -/
theorem step_of_readOut {a : Nat} (ha : a < 2 ^ 32 - 1) (h : s.turns = .host (.readOut a) :: ts) :
    step s = .next (readOutput a { s with turns := ts }) := by
  rw [step_of_host h]
  exact if_pos ha

/-- While idle a write to CMD starts a command and a write to an operand register replaces its value (R22, R23). -/
theorem step_of_writeReg_idle {v : Word} (hb : s.busy = false) (hr : Reg.ofAccess offset 4 = some r)
    (h : s.turns = .host (.writeReg offset 4 v) :: ts) :
    step s = .next (match r with
      | .cmd => startCommand v { s with turns := ts }
      | .width => { s with width := v, turns := ts }
      | .height => { s with height := v, turns := ts }
      | .srcLen => { s with srcLen := v, turns := ts }
      | .status => { s with turns := ts }
      | .result => { s with turns := ts }) := by
  have hidle : ¬ State.busy { s with turns := ts } = true := fun hbusy => absurd (hb.symm.trans hbusy) (by decide)
  rw [step_of_writeReg hr h]
  cases r <;> exact congrArg _ (if_neg hidle)

/-- STATUS and RESULT ignore writes at all times (R24, R28). -/
theorem step_of_writeReg_readOnly {v : Word} (hro : r = .status ∨ r = .result) (hr : Reg.ofAccess offset 4 = some r)
    (h : s.turns = .host (.writeReg offset 4 v) :: ts) : step s = .next { s with turns := ts } := by
  rw [step_of_writeReg hr h]
  rcases hro with rfl | rfl <;> exact congrArg _ (ite_self _)

end

/-- Settles O8. -/
theorem outsideAccessesStopByName : Obligations.OutsideAccessesStopByName := by
  intro s ts
  refine ⟨fun _ _ _ hr h => ?_, fun _ _ hr h => ?_, fun _ _ ha h => ?_, fun _ ha h => ?_, fun _ h => ?_,
    fun _ _ h => ?_⟩ <;> rw [step_of_host h]
  · rw [hostMove, hr]
  · rw [hostMove, hr]
  · exact if_neg (Nat.not_lt.mpr ha)
  · exact if_neg (Nat.not_lt.mpr ha)
  · rfl
  · rfl

/-- Settles O10: the step is the start action. -/
theorem writingCmdStartsCommand : Obligations.WritingCmdStartsCommand := by
  intro s v ts hb h
  exact ⟨startCommand v { s with turns := ts }, step_of_writeReg_idle (r := .cmd) hb rfl h, by simp [Memory.read]⟩

/-- Settles O12. -/
theorem registerWrites : Obligations.RegisterWrites := by
  intro s v ts
  exact ⟨fun hb h => step_of_writeReg_idle (r := .width) hb rfl h,
    fun hb h => step_of_writeReg_idle (r := .height) hb rfl h,
    fun hb h => step_of_writeReg_idle (r := .srcLen) hb rfl h,
    fun h => step_of_writeReg_readOnly (r := .status) (.inl rfl) rfl h,
    fun h => step_of_writeReg_readOnly (r := .result) (.inr rfl) rfl h⟩

/-- Settles O13. -/
theorem registerReads : Obligations.RegisterReads := by
  intro s offset r ts hr h
  rw [step_of_readReg hr h]
  cases r <;> rfl

/-- Settles O14: the write of one byte of a canonical memory. -/
theorem inputWriteDefinesByte : Obligations.InputWriteDefinesByte := by
  intro s a b ts hb ha hwf h
  have hwrite : writeInput a b { s with turns := ts } = { s with inMem := Memory.write a b s.inMem, turns := ts } := by
    simp only [writeInput, show State.busy { s with turns := ts } = false from hb]; rfl
  exact ⟨_, (step_of_writeIn ha h).trans (congrArg _ hwrite), rfl, write_wf a b hwf, fun x => read_write a x b s.inMem⟩

/-- Settles O15: the two cases of a read of OUT exclude each other. -/
theorem outputReads : Obligations.OutputReads := by
  intro s a ts ha h
  rw [step_of_readOut ha h]
  rcases readOutput_cases a { s with turns := ts } with ⟨b, hb, hread, e⟩ | ⟨hfree, e⟩ <;> rw [e]
  · refine ⟨fun b' _ hread' => ?_, fun hfree => ?_⟩
    · obtain rfl : b = b' := Option.some.inj (hread.symm.trans hread')
      rfl
    · rcases hfree with hbusy | hnone
      · exact absurd (hb.symm.trans hbusy) (by decide)
      · exact absurd (hread.symm.trans hnone) (by simp)
  · refine ⟨fun b hb hread => ?_, fun _ => ⟨_, _, rfl⟩⟩
    rcases hfree with hbusy | hnone
    · exact absurd (hb.symm.trans hbusy) (by decide)
    · exact absurd (hread.symm.trans hnone) (by simp)

/-- Settles O16: the state after reset is itself the reset of a state. -/
theorem resetValues : Obligations.ResetValues := by
  unfold Obligations.ResetValues
  intro isReset
  have hreset : ∀ u, isReset (resetBtc u) := fun u => by simp [isReset, State.reset, Memory.read]
  exact ⟨hreset State.reset, fun s ts h => ⟨_, step_of_host h, hreset _, rfl, rfl⟩⟩

/-! ### No command stops the machine -/

/-- Every command answers a next state (R202). -/
theorem exec_next (i : Instr) (s : State) : ∃ t, exec i s = .next t := ⟨_, exec_eq i s⟩

theorem runCommand_next (s : State) : ∃ t, runCommand exec s = .next t := by
  rcases runCommand_cases exec s with ⟨e, -, h⟩ | ⟨i, -, h⟩ <;> rw [h]
  · exact ⟨_, rfl⟩
  · exact exec_next i s

theorem runBlock_next (c : Config) (n : Nat) (s : State) : ∃ t, runBlock c exec n s = .next t := by
  rcases runBlock_cases c exec n s with ⟨e, -, h⟩ | ⟨i, -, ⟨-, h⟩ | ⟨-, h⟩ | ⟨-, h⟩⟩ <;> rw [h]
  · exact ⟨_, rfl⟩
  · exact exec_next i s
  · exact ⟨_, rfl⟩
  · exact ⟨_, rfl⟩

/-- A step whose turn is not the host's answers a next state. -/
theorem step_next_of_no_host {s : State} (h : ∀ m ts, s.turns ≠ .host m :: ts) : ∃ t, step s = .next t := by
  rcases step_cases s with ⟨-, -, e⟩ | ⟨-, -, e⟩ | ⟨ts, ⟨m, hts, -⟩ | ⟨-, -, e⟩ | ⟨n, -, -, e⟩ | ⟨-, -, e⟩⟩
  · exact ⟨s, e⟩
  · rw [e]; exact runCommand_next s
  · exact absurd hts (h m ts)
  · rw [e]; exact runCommand_next _
  · rw [e]; exact runBlock_next _ n _
  · exact ⟨_, e⟩

/-- Settles O7: the BTC's own step always answers, and a host move exactly when the interface offers it. -/
theorem onlyOutsideAccessesStop : Obligations.OnlyOutsideAccessesStop := by
  intro s
  by_cases hhost : ∃ m ts, s.turns = Turn.host m :: ts
  · obtain ⟨m, ts, h⟩ := hhost
    rw [step_of_host h, hostMove_next_iff]
    constructor
    · intro hm m' ts' h'
      obtain ⟨rfl, -⟩ : m = m' ∧ ts = ts' := by simpa [h] using h'
      exact hm
    · intro hall
      exact hall m ts h
  · have hno : ∀ m ts, s.turns ≠ .host m :: ts := fun m ts h => hhost ⟨m, ts, h⟩
    exact iff_of_true (step_next_of_no_host hno) fun m ts h => absurd h (hno m ts)

end Sys2Proof.Machine
end

section
/-! ## Equal operands give equal results

Two runs of a command whose latches and defined input bytes agree write the same bytes block by block (R31): no byte of
ENC or DEC is a free value, since both read IN below SRC_LEN only (R46, R48, R49). -/

namespace Sys2Proof.Machine

open Sys2Proof

/-- Two states agree on what a command may read: the latches, and IN below SRC_LEN, which is all defined. -/
structure SameOperands (s s' : State) : Prop where
  lat : s'.lat = s.lat
  defined : ∀ a, a < s.lat.srcLen.toNat → (Memory.read a s.inMem).isSome = true
  input : ∀ a, a < s.lat.srcLen.toNat → Memory.read a s'.inMem = Memory.read a s.inMem

/-- Two states agree on what a command gives: STATUS, RESULT and OUT. -/
structure SameResults (t t' : State) : Prop where
  status : t'.status = t.status
  result : t'.result = t.result
  outMem : t'.outMem = t.outMem

theorem SameOperands.of_frames {s s' t t' : State} (h : SameOperands s s') (f : SameInputs s t) (f' : SameInputs s' t') :
    SameOperands t t' where
  lat := by rw [f.lat, f'.lat, h.lat]
  defined := by rw [f.lat, f.inMem]; exact h.defined
  input := by rw [f.lat, f.inMem, f'.inMem]; exact h.input

/-! ### What ENC reads -/

/-- A pixel is made from its four bytes alone (R44). -/
theorem readPixel_congr {a : Nat} {m m' : Memory} (h : ∀ j, j < 4 → Memory.read (a + j) m' = Memory.read (a + j) m) :
    readPixel a m' = readPixel a m := by
  have h0 : Memory.read a m' = Memory.read a m := h 0 (by decide)
  simp only [readPixel, h0, h 1 (by decide), h 2 (by decide), h 3 (by decide)]

theorem readPixel_isSome {a : Nat} {m : Memory} (h : ∀ j, j < 4 → (Memory.read (a + j) m).isSome = true) :
    (readPixel a m).isSome = true := by
  obtain ⟨r, hr⟩ := Option.isSome_iff_exists.mp (h 0 (by decide))
  obtain ⟨g, hg⟩ := Option.isSome_iff_exists.mp (h 1 (by decide))
  obtain ⟨b, hb⟩ := Option.isSome_iff_exists.mp (h 2 (by decide))
  obtain ⟨al, hal⟩ := Option.isSome_iff_exists.mp (h 3 (by decide))
  simp only [Nat.add_zero] at hr
  simp [readPixel, hr, hg, hb, hal]

/-- The pixels of a tile lie in the image, since clamping brings every coordinate into it (R45, R46). -/
theorem clampedAddr_add_four_le {l : Latches} {n : Nat} (hn : n < l.blocks) (k : Fin 16) :
    clampedAddr l n k + 4 ≤ pSize l.imageWidth l.imageHeight := by
  have hpos : 0 < ceil4 l.imageWidth * ceil4 l.imageHeight := Nat.zero_lt_of_lt hn
  have hw : 0 < ceil4 l.imageWidth := Nat.pos_of_mul_pos_right hpos
  have hh : 0 < ceil4 l.imageHeight := Nat.pos_of_mul_pos_left hpos
  unfold ceil4 at hw hh
  exact pixelAddr_add_four_le (by omega) (by omega)

/-- A tile exists where every pixel it is made from does (R42, R46). -/
theorem gatherTile_eq_some {l : Latches} {m : Memory} {n : Nat}
    (h : ∀ k, (readPixel (clampedAddr l n k) m).isSome = true) : ∃ P, gatherTile l m n = some P :=
  ⟨_, if_pos (List.all_eq_true.mpr fun k _ => h k)⟩

section
variable {s s' : State} {fmt : Format} {n : Nat}

/-- ENC of the same operands writes the same bytes for a block: those of the same tile (R105). -/
theorem SameOperands.encBytes_eq (c : Config) (h : SameOperands s s')
    (hlen : s.lat.srcLen.toNat = pSize s.lat.imageWidth s.lat.imageHeight) (hn : n < s.lat.blocks) :
    encBytes c fmt s' n = encBytes c fmt s n := by
  have hbound : ∀ k j, j < 4 → clampedAddr s.lat n k + j < s.lat.srcLen.toNat := fun k j hj => by
    have := clampedAddr_add_four_le hn k
    omega
  have hpixel : ∀ k, readPixel (clampedAddr s.lat n k) s'.inMem = readPixel (clampedAddr s.lat n k) s.inMem :=
    fun k => readPixel_congr fun j hj => h.input _ (hbound k j hj)
  have htile : gatherTile s'.lat s'.inMem n = gatherTile s.lat s.inMem n := by simp only [gatherTile, h.lat, hpixel]
  obtain ⟨P, hP⟩ : ∃ P, gatherTile s.lat s.inMem n = some P :=
    gatherTile_eq_some fun k => readPixel_isSome fun j hj => h.defined _ (hbound k j hj)
  simp only [encBytes, htile, hP]

/-! ### What DEC reads -/

/-- The bytes of a block of the command lie below the compressed size (R49, R100). -/
theorem blockByte_lt {l : Latches} {i : Nat} (hn : n < l.blocks) (hi : i < bpb fmt) :
    n * bpb fmt + i < cSize fmt l.imageWidth l.imageHeight :=
  calc n * bpb fmt + i < (n + 1) * bpb fmt := by rw [Nat.succ_mul]; omega
    _ ≤ l.blocks * bpb fmt := Nat.mul_le_mul_right _ hn

/-- Every byte a pixel is made from is a byte of its block (R66, R76, R79). -/
theorem pixelReads_lt (fmt : Format) (k : Fin 16) : ∀ i ∈ pixelReads fmt k, i < bpb fmt := by
  cases fmt <;> revert k <;> decide

/-- DEC of the same operands writes the same cells for a block: those of the same bytes, all defined (R106). -/
theorem SameOperands.decCells_eq (h : SameOperands s s')
    (hlen : s.lat.srcLen.toNat = cSize fmt s.lat.imageWidth s.lat.imageHeight) (hn : n < s.lat.blocks) :
    decCells fmt s' n = decCells fmt s n := by
  have hbound : ∀ i, i < bpb fmt → n * bpb fmt + i < s.lat.srcLen.toNat := fun i hi => hlen ▸ blockByte_lt hn hi
  have hblock : blockIn fmt s'.inMem n = blockIn fmt s.inMem n :=
    List.map_congr_left fun i hi => by rw [h.input _ (hbound i (List.mem_range.mp hi))]
  have hdefined : ∀ k, pixelDefined fmt s.inMem n k = true := fun k =>
    List.all_eq_true.mpr fun i hi => h.defined _ (hbound i (pixelReads_lt fmt k i hi))
  have hdefined' : ∀ k, pixelDefined fmt s'.inMem n k = true := fun k =>
    List.all_eq_true.mpr fun i hi => by
      have hi := hbound i (pixelReads_lt fmt k i hi)
      rw [h.input _ hi]
      exact h.defined _ hi
  simp only [decCells, h.lat, hblock, hdefined, hdefined', if_true]

end

/-! ### The commands -/

section
variable {c : Config} {op : Operation} {fmt : Format} {s s' : State} {body : State → Nat → State}

/-- The work on a block gives the same OUT from states with the same operands `l` and the same OUT. -/
def WritesAlike (l : Latches) (body : State → Nat → State) : Prop :=
  ∀ s s' n, s.lat = l → SameOperands s s' → s'.outMem = s.outMem → n < l.blocks →
    (body s' n).outMem = (body s n).outMem

theorem encOne_writesAlike {l : Latches} (ha : Accepted c .enc fmt l) : WritesAlike l (encOne c fmt) := by
  rintro s s' n rfl h hout hn
  simp only [encOne, advance_outMem, encCells, hout, h.encBytes_eq c (ha.encLength rfl) hn]

theorem decOne_writesAlike {l : Latches} (ha : Accepted c .dec fmt l) : WritesAlike l (decOne fmt) := by
  rintro s s' n rfl h hout hn
  simp only [decOne, advance_outMem, hout, h.decCells_eq (ha.decLength rfl) hn]

/-- The same blocks of the same operands leave the same OUT. -/
theorem foldl_outMem_eq {l : Latches} (hbody : WritesAlike l body) (hframe : ∀ s n, BlockFrame s (body s n))
    (ns : List Nat) (hns : ∀ n ∈ ns, n < l.blocks) (hl : s.lat = l) (h : SameOperands s s')
    (hout : s'.outMem = s.outMem) : (ns.foldl body s').outMem = (ns.foldl body s).outMem := by
  induction ns generalizing s s' with
  | nil => exact hout
  | cons n ns ih =>
    exact ih (fun m hm => hns m (List.mem_cons_of_mem _ hm)) ((hframe s n).lat.trans hl)
      (h.of_frames (hframe s n).toSameInputs (hframe s' n).toSameInputs)
      (hbody s s' n hl h hout (hns n (by simp)))

/-- A checked command gives the same results if its body does: the checks read the latches alone (R102). -/
theorem checked_sameResults {f : State → State} (hlat : s'.lat = s.lat) (hout : s'.outMem = s.outMem)
    (hf : Accepted c op fmt s.lat → SameResults (f s) (f s')) :
    SameResults (checked c op fmt f s) (checked c op fmt f s') := by
  cases hchk : checkOperands c op fmt s.lat with
  | some e =>
    simp only [checked, hlat, hchk]
    exact ⟨rfl, rfl, hout⟩
  | none =>
    simp only [checked, hlat, hchk]
    exact hf ((checkOperands_eq_none_iff ..).mp hchk)

/-- The successful end shows the same results for the same latches and OUT. -/
theorem finish_sameResults (hlat : s'.lat = s.lat) {t t' : State} (hout : t'.outMem = t.outMem) :
    SameResults (finish (resultOf op fmt s.lat) t) (finish (resultOf op fmt s'.lat) t') :=
  ⟨rfl, by rw [hlat]; rfl, hout⟩

/-- All blocks of a fresh ENC or DEC on the same operands, and the end, give the same results. -/
theorem runBlocks_sameResults (hbody : WritesAlike s.lat body) (hframe : ∀ s n, BlockFrame s (body s n))
    (hs : s.Fresh) (hs' : s'.Fresh) (h : SameOperands s s') :
    SameResults (finish (resultOf op fmt s.lat) (runBlocks body s))
      (finish (resultOf op fmt s'.lat) (runBlocks body s')) := by
  have hout : s'.outMem = s.outMem := hs'.emptyOut.trans hs.emptyOut.symm
  refine finish_sameResults h.lat ?_
  rw [runBlocks, runBlocks, remaining_of_no_blocks hs.noBlocks, remaining_of_no_blocks hs'.noBlocks, h.lat]
  exact foldl_outMem_eq hbody hframe _ (fun n hn => List.mem_range.mp hn) rfl h hout

end

/-- Two fresh commands on the same operands give the same results, under any parameters. -/
theorem command_sameResults {c : Config} {s s' : State} (i : Instr) (hs : s.Fresh) (hs' : s'.Fresh)
    (h : SameOperands s s') : SameResults (command c i s) (command c i s') := by
  have hout : s'.outMem = s.outMem := hs'.emptyOut.trans hs.emptyOut.symm
  cases hop : i.op with
  | size =>
    rw [command_of_size hop, command_of_size hop]
    exact checked_sameResults h.lat hout fun _ => finish_sameResults h.lat hout
  | enc =>
    rw [command_of_enc hop, command_of_enc hop, hop]
    exact checked_sameResults h.lat hout fun ha =>
      runBlocks_sameResults (encOne_writesAlike ha) (encOne_frame c i.format) hs hs' h
  | dec =>
    rw [command_of_dec hop, command_of_dec hop, hop]
    exact checked_sameResults h.lat hout fun ha =>
      runBlocks_sameResults (decOne_writesAlike ha) (decOne_frame i.format) hs hs' h

/-- Settles O32: the blocks of the two runs are the same bytes, one after the other. -/
theorem resultDependsOnOperandsOnly : Obligations.ResultDependsOnOperandsOnly := by
  intro i s s' hs hs' hlat hin
  have h : SameOperands s s' := ⟨hlat.symm, fun a ha => (hin a ha).1, fun a ha => (hin a ha).2⟩
  obtain ⟨hstatus, hresult, hout⟩ := command_sameResults (c := btcConfig) i hs hs' h
  exact ⟨_, _, exec_eq i s, exec_eq i s', hstatus.symm, hresult.symm, hout.symm⟩

end Sys2Proof.Machine
end

section
/-! ## Bytes of the memories, tiles and blocks

The tile ENC gathers, with its coordinates clamped to the image (R44 to R46); the fields of a block read back from its
bytes (R40, R66, R76, R79); and the bytes of a block that a decoded pixel is made from (R49, R69, R76, R79, R166). -/

namespace Sys2Proof.Machine

open Sys2Proof

/-! ### The gathered tile -/

/-- A pixel is its four bytes, in the order R, G, B, A (R44). -/
theorem readPixel_eq_some {a : Nat} {m : Memory} {p : Pixel} :
    readPixel a m = some p ↔ Memory.read a m = some p.r ∧ Memory.read (a + 1) m = some p.g ∧
      Memory.read (a + 2) m = some p.b ∧ Memory.read (a + 3) m = some p.a := by
  constructor
  · intro h
    simp only [readPixel] at h
    split at h
    · cases h
      exact ⟨by assumption, by assumption, by assumption, by assumption⟩
    · cases h
  · rintro ⟨hr, hg, hb, ha⟩
    simp only [readPixel, hr, hg, hb, ha]

theorem readPixel_isSome_iff {a : Nat} {m : Memory} :
    (readPixel a m).isSome = true ↔ ∀ j, j < 4 → (Memory.read (a + j) m).isSome = true := by
  refine ⟨fun h j hj => ?_, readPixel_isSome⟩
  obtain ⟨p, hp⟩ := Option.isSome_iff_exists.mp h
  obtain ⟨hr, hg, hb, ha⟩ := readPixel_eq_some.mp hp
  interval_cases j
  · simp [hr]
  · simp [hg]
  · simp [hb]
  · simp [ha]

/-- A gathered tile holds the pixel at each clamped address (R46). -/
theorem readPixel_of_gatherTile {l : Latches} {m : Memory} {n : Nat} {P : Tile} (h : gatherTile l m n = some P)
    (k : Fin 16) : readPixel (clampedAddr l n k) m = some P[k] := by
  simp only [gatherTile] at h
  split at h
  · next hall =>
    obtain ⟨p, hp⟩ := Option.isSome_iff_exists.mp (List.all_eq_true.mp hall k (mem_tileIndices k))
    cases h
    simp [hp]
  · cases h

theorem gatherTile_isSome_iff {l : Latches} {m : Memory} {n : Nat} :
    (gatherTile l m n).isSome = true ↔ ∀ k, (readPixel (clampedAddr l n k) m).isSome = true := by
  constructor
  · intro h k
    obtain ⟨P, hP⟩ := Option.isSome_iff_exists.mp h
    simp [readPixel_of_gatherTile hP k]
  · exact fun h => Option.isSome_iff_exists.mpr (gatherTile_eq_some h)

/-- Block `(bx, row)` of the grid is block `row * BW + bx` (R47): the address of its pixel `k` is that of the image pixel
whose coordinates are clamped one by one. -/
theorem clampedAddr_of_block {l : Latches} {bx : Nat} (hbx : bx < ceil4 l.imageWidth) (row : Nat) (k : Fin 16) :
    clampedAddr l (row * ceil4 l.imageWidth + bx) k =
      4 * (min (4 * row + k.val / 4) (l.imageHeight - 1) * l.imageWidth
        + min (4 * bx + k.val % 4) (l.imageWidth - 1)) := by
  have hcol : (row * ceil4 l.imageWidth + bx) % ceil4 l.imageWidth = bx := by
    rw [Nat.mul_add_mod', Nat.mod_eq_of_lt hbx]
  have hrow : (row * ceil4 l.imageWidth + bx) / ceil4 l.imageWidth = row := by
    rw [Nat.mul_comm, Nat.mul_add_div (Nat.zero_lt_of_lt hbx), Nat.div_eq_of_lt hbx, Nat.add_zero]
  simp only [clampedAddr, pixelAddr, blockX, blockY, hcol, hrow]

/-- Settles O25: the block number gives back the block's column and row, and a tile is its sixteen pixels. -/
theorem gatherClampsToEdge : Obligations.GatherClampsToEdge := by
  intro l m bx row hbx
  simp only [← clampedAddr_of_block hbx]
  refine ⟨?_, fun P hP k => readPixel_eq_some.mp (readPixel_of_gatherTile hP k)⟩
  simp only [gatherTile_isSome_iff, readPixel_isSome_iff]

/-! ### Blocks from their bytes -/

/-- The bytes of a number that fits them read back as the number, whatever follows them (R40). -/
theorem leNat_take_leBytes {n v : Nat} (hv : v < 256 ^ n) (rest : List Byte) :
    leNat ((leBytes n v ++ rest).take n) = v := by
  rw [List.take_left' (leBytes_length n v), leNat_leBytes, Nat.mod_eq_of_lt hv]

theorem colorBlockOfBytes_colorBlockBytes (b : ColorBlock) (rest : List Byte) :
    colorBlockOfBytes (colorBlockBytes b ++ rest) = b := by
  have h0 : colorBlockBytes b ++ rest =
      leBytes 2 b.c0.toNat ++ (leBytes 2 b.c1.toNat ++ (leBytes 4 b.cw.toNat ++ rest)) := by
    simp only [colorBlockBytes, List.append_assoc]
  have h2 : (colorBlockBytes b ++ rest).drop 2 = leBytes 2 b.c1.toNat ++ (leBytes 4 b.cw.toNat ++ rest) := by
    rw [h0]
    exact List.drop_left' (by simp)
  have h4 : (colorBlockBytes b ++ rest).drop 4 = leBytes 4 b.cw.toNat ++ rest := by
    rw [colorBlockBytes, List.append_assoc (_ ++ _)]
    exact List.drop_left' (by simp)
  rw [colorBlockOfBytes, h2, h4, h0, leNat_take_leBytes b.c0.isLt, leNat_take_leBytes b.c1.isLt,
    leNat_take_leBytes b.cw.isLt]
  simp

theorem alphaBlockOfBytes_alphaBlockBytes (b : AlphaBlock) (rest : List Byte) :
    alphaBlockOfBytes (alphaBlockBytes b ++ rest) = b := by
  have h2 : (alphaBlockBytes b ++ rest).drop 2 = leBytes 6 b.iw.toNat ++ rest := by
    simp [alphaBlockBytes]
  rw [alphaBlockOfBytes, h2, leNat_take_leBytes b.iw.isLt]
  simp [alphaBlockBytes, leNat]

theorem alpha4OfBytes_alpha4Bytes (aw : BitVec 64) (rest : List Byte) :
    alpha4OfBytes (alpha4Bytes aw ++ rest) = aw := by
  rw [alpha4OfBytes, alpha4Bytes, leNat_take_leBytes aw.isLt, BitVec.ofNat_toNat, BitVec.setWidth_eq]

/-- Settles O38, field by field: each is read from its own bytes. -/
theorem blockBytesRoundTrip : Obligations.BlockBytesRoundTrip :=
  ⟨colorBlockOfBytes_colorBlockBytes, alphaBlockOfBytes_alphaBlockBytes, alpha4OfBytes_alpha4Bytes⟩

/-! ### Pixels from their bytes -/

/-- Bit `i` of a little-endian number is bit `i mod 8` of byte `i div 8` (R7, R40). -/
theorem testBit_leNat (bs : List Byte) (i : Nat) :
    (leNat bs).testBit i = (bs[i / 8]?.getD 0).getLsbD (i % 8) := by
  induction bs generalizing i with
  | nil => simp [leNat]
  | cons b bs ih =>
    have hsplit : (leNat (b :: bs)).testBit i =
        if i < 8 then b.toNat.testBit i else (leNat bs).testBit (i - 8) := by
      rw [leNat, Nat.add_comm]
      exact Nat.testBit_two_pow_mul_add (i := 8) _ b.isLt i
    rw [hsplit]
    by_cases hi : i < 8
    · simp [hi, Nat.div_eq_of_lt hi, Nat.mod_eq_of_lt hi, BitVec.testBit_toNat]
    · obtain ⟨j, rfl⟩ := Nat.exists_eq_add_of_le' (Nat.le_of_not_lt hi)
      simp [ih]

/-- Field `k` of a word read from bytes depends on the bytes its bits lie in alone (R69, R76, R79). -/
theorem fieldAt_leNat_congr (n w : Nat) {bs bs' : List Byte} {k : Fin 16}
    (h : ∀ i, i < w → bs[(w * k.val + i) / 8]? = bs'[(w * k.val + i) / 8]?) :
    fieldAt w (BitVec.ofNat n (leNat bs)) k = fieldAt w (BitVec.ofNat n (leNat bs')) k := by
  refine BitVec.eq_of_getLsbD_eq fun i hi => ?_
  simp only [fieldAt, BitVec.getLsbD_extractLsb', BitVec.getLsbD_ofNat, testBit_leNat, h i hi]

/-- A byte of a part of a block is a byte of the block. -/
theorem getElem?_part_congr {bs bs' : List Byte} {o len i : Nat} (h : bs[o + i]? = bs'[o + i]?) :
    ((bs.drop o).take len)[i]? = ((bs'.drop o).take len)[i]? := by
  simp only [List.getElem?_take, List.getElem?_drop, h]

theorem part_congr {bs bs' : List Byte} {o len : Nat} (h : ∀ i, i < len → bs[o + i]? = bs'[o + i]?) :
    (bs.drop o).take len = (bs'.drop o).take len := by
  refine List.ext_getElem? fun i => ?_
  by_cases hi : i < len
  · exact getElem?_part_congr (h i hi)
  · simp [hi]

/-- What a colour part at offset `o` reads is what it reads as a block of its own, `o` further on (R66). -/
theorem add_mem_colorReads {o i : Nat} {k : Fin 16} (h : i ∈ colorReads 0 k) : o + i ∈ colorReads o k := by
  simp only [colorReads, List.mem_cons, List.not_mem_nil, or_false] at h ⊢
  omega

/-- The colour of a pixel depends on the endpoints and on the index byte of its row alone (R66, R69). -/
theorem colorPixel_congr {bs bs' : List Byte} (o : Nat) (bc1 : Bool) {k : Fin 16}
    (h : ∀ i ∈ colorReads o k, bs[i]? = bs'[i]?) :
    colorPixel (colorBlockOfBytes (bs.drop o)) bc1 k = colorPixel (colorBlockOfBytes (bs'.drop o)) bc1 k := by
  have hbyte : ∀ i ∈ colorReads 0 k, (bs.drop o)[i]? = (bs'.drop o)[i]? := fun i hi => by
    simpa only [List.getElem?_drop] using h _ (add_mem_colorReads hi)
  have hc0 : ((bs.drop o).drop 0).take 2 = ((bs'.drop o).drop 0).take 2 :=
    part_congr fun i hi => hbyte _ (by simp only [colorReads, List.mem_cons]; omega)
  have hc1 : ((bs.drop o).drop 2).take 2 = ((bs'.drop o).drop 2).take 2 :=
    part_congr fun i hi => hbyte _ (by simp only [colorReads, List.mem_cons]; omega)
  have hindex : colorIndex (colorBlockOfBytes (bs.drop o)) k = colorIndex (colorBlockOfBytes (bs'.drop o)) k :=
    fieldAt_leNat_congr 32 2 fun i hi => getElem?_part_congr <| hbyte _ (by
      simp only [colorReads, List.mem_cons]; omega)
  simp only [colorPixel, hindex]
  simp only [colorBlockOfBytes, List.drop_zero] at hc0 hc1 ⊢
  rw [hc0, hc1]

/-- The alpha of a BC2 pixel depends on its own byte alone (R76). -/
theorem alpha4Value_congr {bs bs' : List Byte} {k : Fin 16} (h : bs[k.val / 2]? = bs'[k.val / 2]?) :
    alpha4Value (alpha4OfBytes bs) k = alpha4Value (alpha4OfBytes bs') k := by
  have hfield : alpha4At (alpha4OfBytes bs) k = alpha4At (alpha4OfBytes bs') k :=
    fieldAt_leNat_congr 64 4 fun i hi => by
      have hbyte : (4 * k.val + i) / 8 = k.val / 2 := by omega
      simp only [List.getElem?_take, hbyte, h]
  rw [alpha4Value, alpha4Value, hfield]

/-- The alpha of a BC3 pixel depends on the endpoints and on the one or two bytes its index lies in alone (R79). -/
theorem alphaValue_congr {bs bs' : List Byte} {k : Fin 16}
    (h : ∀ i ∈ [0, 1, 2 + 3 * k.val / 8, 2 + (3 * k.val + 2) / 8], bs[i]? = bs'[i]?) :
    alphaValue (alphaBlockOfBytes bs) k = alphaValue (alphaBlockOfBytes bs') k := by
  have ha0 : (bs.drop 0).take 1 = (bs'.drop 0).take 1 :=
    part_congr fun i hi => h _ (by simp only [List.mem_cons]; omega)
  have ha1 : (bs.drop 1).take 1 = (bs'.drop 1).take 1 :=
    part_congr fun i hi => h _ (by simp only [List.mem_cons]; omega)
  have hindex : alphaIndex (alphaBlockOfBytes bs) k = alphaIndex (alphaBlockOfBytes bs') k :=
    fieldAt_leNat_congr 48 3 fun i hi => getElem?_part_congr <| h _ (by simp only [List.mem_cons]; omega)
  simp only [alphaValue, hindex]
  simp only [alphaBlockOfBytes, List.drop_zero] at ha0 ha1 ⊢
  rw [ha0, ha1]

/-- A decoded pixel depends on the bytes listed for it alone (R59, R166). -/
theorem decBlock_congr {fmt : Format} {k : Fin 16} {bs bs' : List Byte}
    (h : ∀ i ∈ pixelReads fmt k, bs[i]? = bs'[i]?) : (decBlock fmt bs)[k] = (decBlock fmt bs')[k] := by
  cases fmt with
  | bc1 =>
    have hcolor := colorPixel_congr 0 true h
    simpa [decBlock, decBc1] using hcolor
  | bc2 =>
    simp only [pixelReads, List.forall_mem_cons] at h
    obtain ⟨halpha, hcolor⟩ := h
    simp [decBlock, decBc2, colorPixel_congr 8 false hcolor, alpha4Value_congr halpha]
  | bc3 =>
    simp only [pixelReads, List.forall_mem_append] at h
    obtain ⟨halpha, hcolor⟩ := h
    simp [decBlock, decBc3, colorPixel_congr 8 false hcolor, alphaValue_congr halpha]

@[simp] theorem blockIn_length (fmt : Format) (m : Memory) (n : Nat) : (blockIn fmt m n).length = bpb fmt := by
  simp [blockIn]

/-- Byte `i` of block `n` is byte `n*BPB + i` of IN (R49). -/
theorem blockIn_getElem? {fmt : Format} {m : Memory} {n i : Nat} {b : Byte} (hi : i < bpb fmt)
    (h : Memory.read (n * bpb fmt + i) m = some b) : (blockIn fmt m n)[i]? = some b := by
  simp [blockIn, hi, h]

theorem pixelDefined_iff {fmt : Format} {m : Memory} {n : Nat} {k : Fin 16} :
    pixelDefined fmt m n k = true ↔
      ∀ i ∈ pixelReads fmt k, (Memory.read (n * bpb fmt + i) m).isSome = true :=
  List.all_eq_true

/-- Settles O43: a field of a block depends on the bytes its bits lie in, and those are bytes of the block, hence below
SRC_LEN in an accepted DEC. -/
theorem decodedPixelReadsItsBytes : Obligations.DecodedPixelReadsItsBytes := by
  refine ⟨fun fmt k bs bs' _ _ h => decBlock_congr h,
    fun fmt m n => ⟨blockIn_length fmt m n, fun i b => blockIn_getElem?⟩,
    fun fmt m n k => ⟨pixelReads_lt fmt k, pixelDefined_iff⟩, ?_⟩
  intro fmt l m hlen hdefined n hn k
  exact pixelDefined_iff.mpr fun i hi => hdefined _ (hlen ▸ blockByte_lt hn (pixelReads_lt fmt k i hi))

end Sys2Proof.Machine
end

section
/-! ## The command word, the packed blocks and the palettes

The fields of a command word and the word give each other back, so the decoder accepts the encodings alone (R60 to R64);
the bytes and fields of the packed blocks (R133, R136, R142); the 4-colour palette (R71, R73); and quantisation against
expansion (R67, R68, R122). -/

namespace Sys2Proof.Machine

open Sys2Proof

/-! ### The command word -/

theorem wordOf_toNat (f : CommandWord) :
    (wordOf f).toNat = f.op.toNat + 2 ^ 8 * (f.fmt.toNat + 2 ^ 8 * f.zero.toNat) := by
  rw [wordOf, BitVec.toNat_append, BitVec.toNat_append, ← Nat.shiftLeft_add_eq_or_of_lt f.op.isLt,
    ← Nat.shiftLeft_add_eq_or_of_lt f.fmt.isLt, Nat.shiftLeft_eq, Nat.shiftLeft_eq]
  ring

theorem fieldsOf_wordOf (f : CommandWord) : fieldsOf (wordOf f) = f := by
  have hop := f.op.isLt
  have hfmt := f.fmt.isLt
  have hzero := f.zero.isLt
  cases f
  simp only [fieldsOf, CommandWord.mk.injEq, ← BitVec.toNat_inj, BitVec.extractLsb'_toNat, Nat.shiftRight_eq_div_pow,
    wordOf_toNat]
  omega

theorem wordOf_fieldsOf (w : Word) : wordOf (fieldsOf w) = w := by
  have hw := w.isLt
  rw [← BitVec.toNat_inj, wordOf_toNat]
  simp only [fieldsOf, BitVec.extractLsb'_toNat, Nat.shiftRight_eq_div_pow]
  omega

/-- A command's word is the one word that holds its fields (R60, R62). -/
theorem encode_eq_iff {i : Instr} {w : Word} : encode i = w ↔ fieldsOf w = encodeFields i := by
  constructor
  · rintro rfl
    exact fieldsOf_wordOf _
  · intro h
    rw [encode, ← h, wordOf_fieldsOf]

theorem operationOf_opField (op : Operation) : operationOf (opField op) = some op := by
  cases op <;> rfl

theorem formatOf_fmtField (fmt : Format) : formatOf (fmtField fmt) = some fmt := by
  cases fmt <;> rfl

/-- No other OP than the field of an operation stands for it (R62). -/
theorem operationOf_eq_some_iff {b : Byte} {op : Operation} : operationOf b = some op ↔ b = opField op := by
  refine ⟨?_, fun h => h ▸ operationOf_opField op⟩
  unfold operationOf
  split_ifs with hsize henc hdec
  · rintro ⟨⟩
    exact hsize
  · rintro ⟨⟩
    exact henc
  · rintro ⟨⟩
    exact hdec
  · rintro ⟨⟩

/-- No other FMT than the field of a format stands for it (R61). -/
theorem formatOf_eq_some_iff {b : Byte} {fmt : Format} : formatOf b = some fmt ↔ b = fmtField fmt := by
  refine ⟨?_, fun h => h ▸ formatOf_fmtField fmt⟩
  unfold formatOf
  split_ifs with hbc1 hbc2 hbc3
  · rintro ⟨⟩
    exact hbc1
  · rintro ⟨⟩
    exact hbc2
  · rintro ⟨⟩
    exact hbc3
  · rintro ⟨⟩

theorem operationOf_eq_none_iff {b : Byte} :
    operationOf b = none ↔ b.toNat ≠ 2 ∧ b.toNat ≠ 3 ∧ b.toNat ≠ 4 := by
  simp only [operationOf]
  split_ifs with hsize henc hdec
  · simp [hsize]
  · simp [henc]
  · simp [hdec]
  · exact iff_of_true rfl ⟨fun h => hsize (BitVec.eq_of_toNat_eq h), fun h => henc (BitVec.eq_of_toNat_eq h),
      fun h => hdec (BitVec.eq_of_toNat_eq h)⟩

theorem commandOf_eq_iff {op : Operation} {fmt : Format} {i : Instr} :
    commandOf op fmt = i ↔ op = i.op ∧ fmt = i.format := by
  constructor
  · rintro rfl
    cases op <;> cases fmt <;> exact ⟨rfl, rfl⟩
  · rintro ⟨rfl, rfl⟩
    cases i <;> rfl

/-- A word decodes when it passes the three checks, to the command its fields name (R60, R62). -/
theorem decode_eq_ok_iff_fields {w : Word} {i : Instr} : decode w = .ok i ↔
    (fieldsOf w).zero = 0 ∧ operationOf (fieldsOf w).op = some i.op ∧ formatOf (fieldsOf w).fmt = some i.format := by
  simp only [decode]
  split_ifs with hzero
  · exact iff_of_false nofun fun h => hzero h.1
  · rw [not_not] at hzero
    cases operationOf (fieldsOf w).op with
    | none => simp
    | some op =>
      cases formatOf (fieldsOf w).fmt with
      | none => simp
      | some fmt => simp [hzero, commandOf_eq_iff]

/-- The decoder reads the words of the commands and no other (R62, R64). -/
theorem decode_eq_ok_iff {w : Word} {i : Instr} : decode w = .ok i ↔ encode i = w := by
  rw [decode_eq_ok_iff_fields, operationOf_eq_some_iff, formatOf_eq_some_iff, encode_eq_iff]
  cases fieldsOf w
  simp only [encodeFields, CommandWord.mk.injEq]
  tauto

/-- An error of the decoder is that of the first check that fails: ZERO and OP before FMT (R64, R102). -/
theorem decode_error_eq {w : Word} {e : ErrorCode} (h : decode w = .error e) :
    e = if (w.extractLsb' 16 16).toNat ≠ 0 ∨
        ((w.extractLsb' 0 8).toNat ≠ 2 ∧ (w.extractLsb' 0 8).toNat ≠ 3 ∧ (w.extractLsb' 0 8).toNat ≠ 4)
      then ErrorCode.eOp else ErrorCode.eFormat := by
  have hbad : (fieldsOf w).zero ≠ 0 ∨ operationOf (fieldsOf w).op = none ↔ _ :=
    or_congr (not_congr BitVec.toNat_inj.symm) operationOf_eq_none_iff
  refine Eq.trans ?_ (if_congr hbad rfl rfl)
  simp only [decode] at h
  split_ifs at h with hzero
  · cases h
    rw [if_pos (.inl hzero)]
  · cases hop : operationOf (fieldsOf w).op with
    | none =>
      have he : .eOp = e := by simpa [hop] using h
      rw [if_pos (.inr rfl), he]
    | some op =>
      cases hfmt : formatOf (fieldsOf w).fmt with
      | none =>
        have he : .eFormat = e := by simpa [hop, hfmt] using h
        rw [if_neg (not_or.mpr ⟨hzero, nofun⟩), he]
      | some fmt => simp [hop, hfmt] at h

/-- Settles O3: a word that is no command's word cannot decode, and the failing check names its error. -/
theorem everyWordDecodedOrRejected : Obligations.EveryWordDecodedOrRejected := by
  refine fun w => ⟨fun i => decode_eq_ok_iff, fun e => ⟨fun h => ⟨fun i hi => ?_, decode_error_eq h⟩, ?_⟩⟩
  · rw [decode_eq_ok_iff.mpr hi] at h
    cases h
  · rintro ⟨hnone, rfl⟩
    cases h : decode w with
    | ok i => exact absurd (decode_eq_ok_iff.mp h) (hnone i)
    | error e => rw [decode_error_eq h]

/-- Settles O1: it is one direction of what the decoder reads. -/
theorem decodeInvertsEncode : Obligations.DecodeInvertsEncode :=
  fun _ _ => decode_eq_ok_iff.mpr rfl

/-- Settles O2: the nine words of the table are the encodings of the nine commands. -/
theorem tableWordsDecode : Obligations.TableWordsDecode := by
  simp only [Obligations.TableWordsDecode, decode_eq_ok_iff]
  decide

/-! ### The packed blocks -/

/-- The bytes of a word are its 8-bit parts, lowest first (R40). -/
theorem leBytes_toNat {w : Nat} (n : Nat) (x : BitVec w) :
    leBytes n x.toNat = (List.range n).map fun i => x.extractLsb' (8 * i) 8 := by
  have hbytes : ∀ v, leBytes n v = (List.range n).map fun i => BitVec.ofNat 8 (v >>> (8 * i)) := by
    induction n with
    | zero => exact fun v => rfl
    | succ n ih =>
      intro v
      have hnext : ∀ i, (v / 256) >>> (8 * i) = v >>> (8 * (i + 1)) := fun i => by
        rw [Nat.mul_succ, Nat.add_comm, Nat.shiftRight_add, Nat.shiftRight_eq_div_pow v 8]
      simp [leBytes, ih, List.range_succ_eq_map, hnext]
  exact hbytes x.toNat

/-- A packed word that is wide enough holds the packed sum unchanged (R133, R136, R142). -/
theorem toNat_ofNat_packFields {w : Nat} (f : Fin 16 → BitVec w) :
    (BitVec.ofNat (16 * w) (packFields f)).toNat =
      ((List.finRange 16).map fun k => (f k).toNat * (2 ^ w) ^ k.val).sum :=
  Nat.mod_eq_of_lt (packFields_lt f)

/-- Settles O35: the sixteen 2-bit fields fill the index word, and its bytes read back as the block. -/
theorem packColorBlockInverse : Obligations.PackColorBlockInverse := by
  intro c0 c1 ci rest b
  refine ⟨toNat_ofNat_packFields ci, ?_, ?_⟩
  · simp only [colorBlockBytes, leBytes_toNat]
    rfl
  · rw [colorBlockOfBytes_colorBlockBytes]
    exact ⟨rfl, rfl, colorIndex_packColorBlock c0 c1 ci⟩

/-- Settles O37: the sixteen 3-bit fields fill the index word, and its bytes read back as the block. -/
theorem packAlpha3Inverse : Obligations.PackAlpha3Inverse := by
  intro a0 a1 ai rest b
  refine ⟨toNat_ofNat_packFields ai, ?_, ?_⟩
  · simp only [alphaBlockBytes, leBytes_toNat]
    rfl
  · rw [alphaBlockOfBytes_alphaBlockBytes]
    exact ⟨rfl, rfl, alphaIndex_packAlphaBlock a0 a1 ai⟩

/-- The alpha word holds each pixel's quantised alpha (R135, R136). -/
theorem alpha4At_encAlpha4 (P : Tile) (k : Fin 16) : alpha4At (encAlpha4 P) k = quantAlpha4 P[k].a :=
  fieldAt_packFields (fun k => quantAlpha4 P[k].a) k

/-- Byte `m` of an alpha word is the alphas of pixels `2m` and `2m + 1`, the first in the low nibble (R76). -/
theorem alpha4Bytes_getElem? (aw : BitVec 64) {m : Nat} {lo hi : Fin 16} (hm : m < 8) (hlo : lo.val = 2 * m)
    (hhi : hi.val = 2 * m + 1) :
    ((alpha4Bytes aw)[m]?.map BitVec.toNat) = some ((alpha4At aw lo).toNat + 16 * (alpha4At aw hi).toNat) := by
  have hbyte : (alpha4Bytes aw)[m]? = some (aw.extractLsb' (8 * m) 8) := by
    simp [alpha4Bytes, leBytes_toNat, hm]
  have hlow : 2 ^ (4 * (2 * m)) = 2 ^ (8 * m) := congrArg (2 ^ ·) (Nat.mul_assoc 4 2 m).symm
  have hhigh : 2 ^ (4 * (2 * m + 1)) = 2 ^ (8 * m) * 16 := by
    rw [Nat.mul_succ, pow_add, hlow]
    rfl
  simp only [hbyte, Option.map_some, alpha4At, fieldAt, hlo, hhi, BitVec.extractLsb'_toNat,
    Nat.shiftRight_eq_div_pow, hlow, hhigh, ← Nat.div_div_eq_div_mul]
  congr 1
  omega

/-- Settles O36: the sixteen nibbles fill the alpha word, and two of them make a byte. -/
theorem encAlpha4Inverse : Obligations.EncAlpha4Inverse := by
  intro P rest
  refine ⟨toNat_ofNat_packFields _, alpha4Bytes_length _, fun m lo hi hlo hhi => ?_, fun k => ?_⟩
  · rw [alpha4Bytes_getElem? _ m.isLt hlo hhi, alpha4At_encAlpha4, alpha4At_encAlpha4]
  · rw [alpha4OfBytes_alpha4Bytes, alpha4At_encAlpha4]

/-! ### The palette of the 4-colour mode -/

theorem mix_swap (u v d : Nat) (x y : Byte) : mix u v d x y = mix v u d y x := by
  rw [mix, mix, Nat.add_comm]

theorem mixColor_swap (u v d : Nat) (p q : Pixel) : mixColor u v d p q = mixColor v u d q p := by
  simp only [mixColor, mix_swap u v]

section
variable {u v d : Nat} (h : u + v = d) (hd : 0 < d)
include h hd

theorem mix_self (x : Byte) : mix u v d x x = x := by
  apply BitVec.eq_of_toNat_eq
  rw [mix_toNat h hd, ← Nat.add_mul, h, Nat.mul_div_cancel_left _ hd]

theorem mixColor_self {p : Pixel} (hp : p.a = 255) : mixColor u v d p p = p := by
  simp only [mixColor, mix_self h hd, ← hp]

/-- An interpolated channel lies between the two it is made from (R73). -/
theorem mix_between (x y : Byte) :
    min x.toNat y.toNat ≤ (mix u v d x y).toNat ∧ (mix u v d x y).toNat ≤ max x.toNat y.toNat := by
  rw [mix_toNat h hd, Nat.le_div_iff_mul_le hd]
  generalize x.toNat = x, y.toNat = y
  subst h
  constructor
  · calc min x y * (u + v) = u * min x y + v * min x y := by ring
      _ ≤ u * x + v * y := by gcongr <;> simp
  · refine Nat.div_le_of_le_mul ?_
    calc u * x + v * y ≤ u * max x y + v * max x y := by gcongr <;> simp
      _ = (u + v) * max x y := by ring

end

/-- Outside 3-colour mode the palette is the endpoints and their two interpolants in thirds (R71). -/
theorem colorPalette_false (c0 c1 : Half) : colorPalette c0 c1 false =
    #v[unpack565 c0, unpack565 c1, mixColor 2 1 3 (unpack565 c0) (unpack565 c1),
      mixColor 1 2 3 (unpack565 c0) (unpack565 c1)] := rfl

/-- Settles O42: each entry is an endpoint or an interpolant with weights that sum to 3. -/
theorem colorPaletteFacts : Obligations.ColorPaletteFacts := by
  intro c0 c1
  simp only [colorPalette_false]
  refine ⟨⟨rfl, rfl, mixColor_swap .., mixColor_swap ..⟩, ?_, fun i => ?_⟩
  · rintro rfl i
    have hthird := mixColor_self (u := 2) (v := 1) rfl (by omega) (unpack565_a c0)
    have htwothirds := mixColor_self (u := 1) (v := 2) rfl (by omega) (unpack565_a c0)
    fin_cases i
    · rfl
    · rfl
    · exact hthird
    · exact htwothirds
  · fin_cases i
    · simp
    · simp
    · exact ⟨mix_between rfl (by omega) .., mix_between rfl (by omega) .., mix_between rfl (by omega) ..⟩
    · exact ⟨mix_between rfl (by omega) .., mix_between rfl (by omega) .., mix_between rfl (by omega) ..⟩

/-! ### Quantisation and expansion -/

theorem expand5_lt {n : Nat} (h : n < 32) : expand5 n < 256 := by
  unfold expand5
  omega

theorem expand6_lt {n : Nat} (h : n < 64) : expand6 n < 256 := by
  unfold expand6
  omega

theorem expand5_strictMono : StrictMono expand5 := fun m n h => by
  unfold expand5
  omega

theorem expand6_strictMono : StrictMono expand6 := fun m n h => by
  unfold expand6
  omega

/-- The fields of an RGB565 colour, expanded; nothing wraps (R67, R68). -/
theorem unpack565_toNat (c : Half) : (unpack565 c).r.toNat = expand5 (c.extractLsb' 11 5).toNat ∧
    (unpack565 c).g.toNat = expand6 (c.extractLsb' 5 6).toNat ∧
    (unpack565 c).b.toNat = expand5 (c.extractLsb' 0 5).toNat :=
  ⟨Nat.mod_eq_of_lt (expand5_lt (BitVec.isLt _)), Nat.mod_eq_of_lt (expand6_lt (BitVec.isLt _)),
    Nat.mod_eq_of_lt (expand5_lt (BitVec.isLt _))⟩

theorem q5_expand5 {n : Nat} (h : n < 32) : q5 (BitVec.ofNat 8 (expand5 n)) = n := by
  rw [q5, BitVec.toNat_ofNat, Nat.mod_eq_of_lt (expand5_lt h), expand5]
  omega

theorem q6_expand6 {n : Nat} (h : n < 64) : q6 (BitVec.ofNat 8 (expand6 n)) = n := by
  rw [q6, BitVec.toNat_ofNat, Nat.mod_eq_of_lt (expand6_lt h), expand6]
  omega

/-- Quantising to five bits and back moves a value by at most 4 (R122). -/
theorem expand5_q5_within (v : Byte) : q5 v ≤ 31 ∧ expand5 (q5 v) ≤ v.toNat + 4 ∧ v.toNat ≤ expand5 (q5 v) + 4 := by
  have hv := v.isLt
  unfold expand5 q5
  omega

/-- Quantising to six bits and back moves a value by at most 2 (R122). -/
theorem expand6_q6_within (v : Byte) : q6 v ≤ 63 ∧ expand6 (q6 v) ≤ v.toNat + 2 ∧ v.toNat ≤ expand6 (q6 v) + 2 := by
  have hv := v.isLt
  unfold expand6 q6
  omega

theorem q5_mono {u v : Byte} (h : u ≤ v) : q5 u ≤ q5 v := by
  rw [BitVec.le_def] at h
  unfold q5
  gcongr

theorem q6_mono {u v : Byte} (h : u ≤ v) : q6 u ≤ q6 v := by
  rw [BitVec.le_def] at h
  unfold q6
  gcongr

/-- Settles O44: every clause is a fact about a truncated quotient of numbers below 256. -/
theorem quantisationFacts : Obligations.QuantisationFacts :=
  ⟨unpack565_toNat, ⟨rfl, rfl, rfl, rfl⟩, fun _ _ h => expand5_strictMono h, fun _ _ h => expand6_strictMono h,
    fun n => q5_expand5 n.isLt, fun n => q6_expand6 n.isLt, expand5_q5_within, expand6_q6_within,
    fun _ _ h => ⟨q5_mono h, q6_mono h⟩⟩

end Sys2Proof.Machine
end

section
/-! ## The checks and the ends of a command

A step of a busy BTC is its latched command (R103); a command is decided by the first check that fails on its latches,
or ends with success (R102, R203, R204). -/

namespace Sys2Proof.Machine

open Sys2Proof

/-! ### The BTC's own step -/

theorem step_of_no_turn {s : State} (hb : s.busy = true) (h : s.turns = []) : step s = runCommand exec s := by
  rw [step, nextTurn, h]
  exact if_pos hb

theorem step_of_btcRun {s : State} {ts : List Turn} (hb : s.busy = true) (h : s.turns = .btcRun :: ts) :
    step s = runCommand exec { s with turns := ts } := by
  rw [step, nextTurn, h]
  exact if_pos hb

theorem step_of_btcBlock {s : State} {n : Nat} {ts : List Turn} (hb : s.busy = true) (h : s.turns = .btcBlock n :: ts) :
    step s = runBlock btcConfig exec n { s with turns := ts } := by
  rw [step, nextTurn, h]
  exact if_pos hb

theorem runCommand_of_ok {s : State} {i : Instr} (run : Runner) (h : decode s.lat.cmd = .ok i) :
    runCommand run s = run i s := by
  rw [runCommand, h]

theorem runCommand_of_error {s : State} {e : ErrorCode} (run : Runner) (h : decode s.lat.cmd = .error e) :
    runCommand run s = .next (raiseError e s) := by
  rw [runCommand, h]

/-- Settles O4: the turn is taken off, and the latched word decodes to the command. -/
theorem stepRunsDecodedCommand : Obligations.StepRunsDecodedCommand := by
  intro s i _ hb hi
  refine ⟨fun h => ?_, fun ts h => ?_⟩
  · rw [step_of_no_turn hb h, runCommand_of_ok exec hi]
  · rw [step_of_btcRun hb h]
    exact runCommand_of_ok exec hi

/-! ### The two ends of a command -/

/-- An error end shows the code of its cause, and leaves OUT, the cursor and the tile buffer (R204). -/
theorem raiseError_endedInError (e : ErrorCode) (s : State) : EndedInError e s (raiseError e s) where
  busy := raiseError_busy e s
  done := raiseError_done e s
  err := raiseError_err e s
  ecode := raiseError_ecode e s
  result := raiseError_result e s
  outMem := raiseError_outMem e s
  blk := raiseError_blk e s
  tile := raiseError_tile e s

/-- A command whose operands do not pass the checks is the error end of the first check that fails (R204, R205). -/
theorem command_of_rejected {c : Config} {i : Instr} {s : State} {e : ErrorCode}
    (h : checkOperands c i.op i.format s.lat = some e) : command c i s = raiseError e s := by
  cases hop : i.op with
  | size => rw [command_of_size hop, checked, h]
  | enc => rw [command_of_enc hop, checked, h]
  | dec => rw [command_of_dec hop, checked, h]

/-- A command on accepted operands is the successful end after work that changes OUT, the cursor, the done blocks and the
tile buffer at most (R103, R203). -/
theorem command_of_accepted {c : Config} {i : Instr} {s : State} (h : Accepted c i.op i.format s.lat) :
    ∃ s', BlockFrame s s' ∧ command c i s = finish (resultOf i.op i.format s.lat) s' := by
  cases hop : i.op with
  | size =>
    rw [command_of_size hop, checked_of_accepted _ h, hop]
    exact ⟨s, BlockFrame.refl s, rfl⟩
  | enc =>
    rw [command_of_enc hop, checked_of_accepted _ h, hop]
    exact ⟨_, runBlocks_frame (encOne_frame c i.format) s, rfl⟩
  | dec =>
    rw [command_of_dec hop, checked_of_accepted _ h, hop]
    exact ⟨_, runBlocks_frame (decOne_frame i.format) s, rfl⟩

/-- STATUS and RESULT of a command are decided by its latches: they are those of the end its checks lead to. -/
theorem command_status_result (c : Config) (i : Instr) (s : State) :
    (∃ e, checkOperands c i.op i.format s.lat = some e ∧
      (command c i s).status = statusError e ∧ (command c i s).result = 0) ∨
    (checkOperands c i.op i.format s.lat = none ∧
      (command c i s).status = statusDone ∧
      (command c i s).result = BitVec.ofNat 32 (resultOf i.op i.format s.lat)) := by
  cases h : checkOperands c i.op i.format s.lat with
  | some e =>
    rw [command_of_rejected h]
    exact .inl ⟨e, rfl, rfl, rfl⟩
  | none =>
    obtain ⟨s', -, e⟩ := command_of_accepted ((checkOperands_eq_none_iff ..).mp h)
    rw [e]
    exact .inr ⟨rfl, rfl, rfl⟩

/-- Commands whose checks and whose result on success agree end with the same STATUS and RESULT. -/
theorem command_status_result_congr {c : Config} {i : Instr} {s s' : State}
    (hchk : checkOperands c i.op i.format s'.lat = checkOperands c i.op i.format s.lat)
    (hres : resultOf i.op i.format s'.lat = resultOf i.op i.format s.lat) :
    (command c i s).status = (command c i s').status ∧ (command c i s).result = (command c i s').result := by
  rcases command_status_result c i s with ⟨e, h, hst, hr⟩ | ⟨h, hst, hr⟩ <;>
    rcases command_status_result c i s' with ⟨e', h', hst', hr'⟩ | ⟨h', hst', hr'⟩ <;>
    rw [hchk, h] at h'
  · cases h'
    exact ⟨hst.trans hst'.symm, hr.trans hr'.symm⟩
  · cases h'
  · cases h'
  · exact ⟨hst.trans hst'.symm, by rw [hr, hr', hres]⟩

/-- Settles O31: the checks and the result read the latches alone. -/
theorem statusAndResultIgnoreInput : Obligations.StatusAndResultIgnoreInput :=
  fun i s m => ⟨_, _, exec_eq i s, exec_eq i { s with inMem := m }, command_status_result_congr rfl rfl⟩

/-- The machine's command whose operands do not pass the checks. -/
theorem exec_of_rejected {i : Instr} {s : State} {e : ErrorCode}
    (h : checkOperands btcConfig i.op i.format s.lat = some e) :
    ∃ t, exec i s = .next t ∧ EndedInError e s t ∧ SameInputs s t :=
  ⟨raiseError e s, by rw [exec_eq, command_of_rejected h], raiseError_endedInError e s, raiseError_sameInputs e s⟩

/-! ### The first failing check -/

theorem formatOf_eq_none_iff {b : Byte} : formatOf b = none ↔ b.toNat ≠ 0 ∧ b.toNat ≠ 1 ∧ b.toNat ≠ 2 := by
  simp only [formatOf]
  split_ifs with hbc1 hbc2 hbc3
  · simp [hbc1]
  · simp [hbc2]
  · simp [hbc3]
  · exact iff_of_true rfl ⟨fun h => hbc1 (BitVec.eq_of_toNat_eq h), fun h => hbc2 (BitVec.eq_of_toNat_eq h),
      fun h => hbc3 (BitVec.eq_of_toNat_eq h)⟩

/-- A word that fails neither check 1 nor check 2 decodes, so one that does not decode fails one of them (R64). -/
theorem formatOf_eq_none_of_error {w : Word} {e : ErrorCode} (h : decode w = .error e)
    (hzero : (fieldsOf w).zero = 0) (hop : operationOf (fieldsOf w).op ≠ none) : formatOf (fieldsOf w).fmt = none := by
  obtain ⟨op, hop⟩ := Option.ne_none_iff_exists'.mp hop
  by_contra hfmt
  obtain ⟨fmt, hfmt⟩ := Option.ne_none_iff_exists'.mp hfmt
  obtain ⟨hcop, hcfmt⟩ := commandOf_eq_iff.mp (rfl : commandOf op fmt = commandOf op fmt)
  have hok : decode w = .ok (commandOf op fmt) :=
    decode_eq_ok_iff_fields.mpr ⟨hzero, hcop ▸ hop, hcfmt ▸ hfmt⟩
  rw [h] at hok
  cases hok

/-- Where the word does not decode, the first failing check is check 1 or 2, whose error the decoder gives (R102). -/
theorem firstFailure_of_error {c : Config} {l : Latches} {e : ErrorCode} (h : decode l.cmd = .error e) :
    firstFailure c l = some e := by
  rw [decode_error_eq h]
  by_cases hword : (l.cmd.extractLsb' 16 16).toNat ≠ 0 ∨ ((l.cmd.extractLsb' 0 8).toNat ≠ 2 ∧
      (l.cmd.extractLsb' 0 8).toNat ≠ 3 ∧ (l.cmd.extractLsb' 0 8).toNat ≠ 4)
  · simp only [firstFailure, if_pos hword]
  · obtain ⟨hzero, hop⟩ := not_or.mp hword
    have hfmt := formatOf_eq_none_iff.mp <| formatOf_eq_none_of_error h
      (BitVec.eq_of_toNat_eq (not_not.mp hzero)) (mt operationOf_eq_none_iff.mp hop)
    simp only [firstFailure, if_neg hword]
    exact if_pos hfmt

/-- The compressed size of an image without a negative dimension, over the integers (R100). -/
theorem cSize_cast {l : Latches} (fmt : Format) (hw : 0 ≤ l.width.toInt) (hh : 0 ≤ l.height.toInt) :
    ((l.width.toInt + 3) / 4) * ((l.height.toInt + 3) / 4) * (if (fmtField fmt).toNat = 0 then 8 else 16) =
      (cSize fmt l.imageWidth l.imageHeight : Int) := by
  have hbpb : (if (fmtField fmt).toNat = 0 then 8 else 16 : Int) = (bpb fmt : Int) := by cases fmt <;> rfl
  simp only [cSize, blockCount, ceil4, Latches.imageWidth, Latches.imageHeight, Latches.signedWidth,
    Latches.signedHeight, hbpb]
  push_cast
  rw [Int.toNat_of_nonneg hw, Int.toNat_of_nonneg hh]

/-- The pixel size of an image without a negative dimension, over the integers (R100). -/
theorem pSize_cast {l : Latches} (hw : 0 ≤ l.width.toInt) (hh : 0 ≤ l.height.toInt) :
    l.width.toInt * l.height.toInt * 4 = (pSize l.imageWidth l.imageHeight : Int) := by
  simp only [pSize, Latches.imageWidth, Latches.imageHeight, Latches.signedWidth, Latches.signedHeight]
  push_cast
  rw [Int.toNat_of_nonneg hw, Int.toNat_of_nonneg hh]

/-- The dimension check fails where a dimension is negative or a size the command needs exceeds `LEN_MAX` (R102). -/
theorem badDimensions_iff {c : Config} {op : Operation} {fmt : Format} {l : Latches} :
    badDimensions c op fmt l = true ↔ l.width.toInt < 0 ∨ l.height.toInt < 0 ∨
      c.lenMax < cSize fmt l.imageWidth l.imageHeight ∨
      (op ≠ .size ∧ c.lenMax < pSize l.imageWidth l.imageHeight) := by
  simp only [badDimensions, Bool.or_eq_true, Bool.and_eq_true, decide_eq_true_eq, or_assoc]
  rfl

theorem checkOperands_of_bad {c : Config} {op : Operation} {fmt : Format} {l : Latches}
    (h : badDimensions c op fmt l = true) : checkOperands c op fmt l = some .eDim := if_pos h

/-- The OP of a command is that of an operation, and its FMT that of a format: checks 1 and 2 pass (R61, R62). -/
theorem opField_legal (op : Operation) :
    ¬ ((opField op).toNat ≠ 2 ∧ (opField op).toNat ≠ 3 ∧ (opField op).toNat ≠ 4) := by
  cases op <;> decide

theorem fmtField_legal (fmt : Format) :
    ¬ ((fmtField fmt).toNat ≠ 0 ∧ (fmtField fmt).toNat ≠ 1 ∧ (fmtField fmt).toNat ≠ 2) := by
  cases fmt <;> decide

/-- Where the word decodes, the first failing check is check 3 or 4, on the operands (R102, R205). -/
theorem firstFailure_of_ok {c : Config} {l : Latches} {i : Instr} (h : decode l.cmd = .ok i) :
    firstFailure c l = checkOperands c i.op i.format l := by
  obtain ⟨hzero, hop, hfmt⟩ := decode_eq_ok_iff_fields.mp h
  have hzero : l.cmd.extractLsb' 16 16 = 0 := hzero
  have hop : l.cmd.extractLsb' 0 8 = opField i.op := operationOf_eq_some_iff.mp hop
  have hfmt : l.cmd.extractLsb' 8 8 = fmtField i.format := formatOf_eq_some_iff.mp hfmt
  simp only [firstFailure, hzero, hop, hfmt]
  rw [if_neg (not_or.mpr ⟨by decide, opField_legal i.op⟩), if_neg (fmtField_legal i.format)]
  by_cases hneg : l.width.toInt < 0 ∨ l.height.toInt < 0
  · rw [if_pos hneg, checkOperands_of_bad (badDimensions_iff.mpr (by tauto))]
  · obtain ⟨hw, hh⟩ := not_or.mp hneg
    rw [if_neg hneg, cSize_cast i.format (not_lt.mp hw) (not_lt.mp hh), pSize_cast (not_lt.mp hw) (not_lt.mp hh)]
    simp only [checkOperands, badDimensions_iff, hw, hh, false_or, ite_or]
    cases i.op <;> simp [opField, Latches.length] <;> rfl

/-- Settles O5: the decoder and the check of the operands give the errors of R102 in its order, and a command on accepted
operands ends with success. -/
theorem firstFailedCheckDecides : Obligations.FirstFailedCheckDecides := by
  intro s hb hturns
  rw [step_of_no_turn hb hturns]
  cases hdec : decode s.lat.cmd with
  | error e =>
    rw [firstFailure_of_error hdec, runCommand_of_error exec hdec]
    exact ⟨_, rfl, raiseError_endedInError e s, raiseError_sameInputs e s⟩
  | ok i =>
    rw [firstFailure_of_ok hdec, runCommand_of_ok exec hdec]
    cases hchk : checkOperands btcConfig i.op i.format s.lat with
    | some e => exact exec_of_rejected hchk
    | none =>
      obtain ⟨s', -, e⟩ := command_of_accepted ((checkOperands_eq_none_iff ..).mp hchk)
      rw [exec_eq, e]
      exact ⟨_, rfl, finish_busy _ s', finish_done _ s', finish_err _ s', finish_ecode _ s'⟩

/-! ### The operands of SIZE, ENC and DEC -/

theorem commandOf_op (op : Operation) (fmt : Format) : (commandOf op fmt).op = op :=
  (commandOf_eq_iff.mp rfl).1.symm

theorem commandOf_format (op : Operation) (fmt : Format) : (commandOf op fmt).format = fmt :=
  (commandOf_eq_iff.mp rfl).2.symm

/-- A command of given operation and format whose operands do not pass the checks. -/
theorem exec_commandOf_of_rejected {op : Operation} {fmt : Format} {s : State} {e : ErrorCode}
    (h : checkOperands btcConfig op fmt s.lat = some e) :
    ∃ t, exec (commandOf op fmt) s = .next t ∧ EndedInError e s t ∧ SameInputs s t :=
  exec_of_rejected (by rw [commandOf_op, commandOf_format, h])

/-- SIZE accepts every image without a negative dimension whose compressed size is within `LEN_MAX` (R102). -/
theorem accepted_size {c : Config} {fmt : Format} {l : Latches} (hw : 0 ≤ l.width.toInt) (hh : 0 ≤ l.height.toInt)
    (hsize : cSize fmt l.imageWidth l.imageHeight ≤ c.lenMax) : Accepted c .size fmt l where
  width := hw
  height := hh
  compressed := hsize
  pixels h := absurd rfl h
  encLength := nofun
  decLength := nofun

/-- SIZE on accepted operands is the successful end alone (R104). -/
theorem exec_size_of_accepted {fmt : Format} {s : State} (h : Accepted btcConfig .size fmt s.lat) :
    exec (commandOf .size fmt) s = .next (finish (cSize fmt s.lat.imageWidth s.lat.imageHeight) s) := by
  rw [exec_eq, command_of_size (commandOf_op .size fmt), commandOf_op, commandOf_format, checked_of_accepted _ h]
  rfl

theorem exec_size_completes {fmt : Format} {s : State} (hw : 0 ≤ s.lat.width.toInt) (hh : 0 ≤ s.lat.height.toInt)
    (hsize : cSize fmt s.lat.imageWidth s.lat.imageHeight ≤ 2 ^ 32 - 1) :
    ∃ t, exec (commandOf .size fmt) s = .next t ∧ EndedWith (cSize fmt s.lat.imageWidth s.lat.imageHeight) t ∧
      SameInputs s t ∧ t.outMem = s.outMem ∧ t.blk = s.blk ∧ t.tile = s.tile :=
  ⟨_, exec_size_of_accepted (accepted_size hw hh hsize), finish_endedWith (by omega) s, finish_sameInputs _ s,
    rfl, rfl, rfl⟩

/-- Settles O17: the products are the compressed sizes. -/
theorem sizeCommandsComplete : Obligations.SizeCommandsComplete := by
  intro s hw hh n
  exact ⟨exec_size_completes (fmt := .bc1) hw hh, exec_size_completes (fmt := .bc2) hw hh,
    exec_size_completes (fmt := .bc3) hw hh⟩

/-- A dimension that is negative, or a compressed size above `LEN_MAX`, ends a SIZE with `E_DIM` (R102). -/
theorem exec_size_eDim {fmt : Format} {s : State}
    (h : s.lat.width.toInt < 0 ∨ s.lat.height.toInt < 0 ∨
      2 ^ 32 - 1 < cSize fmt s.lat.imageWidth s.lat.imageHeight) :
    ∃ t, exec (commandOf .size fmt) s = .next t ∧ EndedInError .eDim s t ∧ SameInputs s t :=
  exec_commandOf_of_rejected <| checkOperands_of_bad <| badDimensions_iff.mpr <|
    h.imp_right <| Or.imp_right .inl

/-- Settles O18: the products are the compressed sizes. -/
theorem sizeCommandErrors : Obligations.SizeCommandErrors := by
  intro s n
  exact ⟨exec_size_eDim (fmt := .bc1), fun h => ⟨exec_size_eDim (fmt := .bc2) h, exec_size_eDim (fmt := .bc3) h⟩⟩

/-- The checks of SIZE and its result read the dimensions alone: `lat.SRC_LEN` is not read (R104). -/
theorem checkOperands_size_congr {c : Config} {fmt : Format} {l l' : Latches} (hw : l'.width = l.width)
    (hh : l'.height = l.height) : checkOperands c .size fmt l' = checkOperands c .size fmt l := by
  cases l
  cases l'
  cases hw
  cases hh
  rfl

theorem cSize_latches_congr {fmt : Format} {l l' : Latches} (hw : l'.width = l.width) (hh : l'.height = l.height) :
    cSize fmt l'.imageWidth l'.imageHeight = cSize fmt l.imageWidth l.imageHeight := by
  simp only [Latches.imageWidth, Latches.imageHeight, Latches.signedWidth, Latches.signedHeight, hw, hh]

/-- What a SIZE leaves: both memories, and, where it does not end in error, the compressed size in RESULT (R104). -/
theorem size_memories_result (fmt : Format) (s : State) :
    let t := command btcConfig (commandOf .size fmt) s
    (t.err = false → t.result.toNat = cSize fmt s.lat.imageWidth s.lat.imageHeight) ∧
      t.inMem = s.inMem ∧ t.outMem = s.outMem := by
  rw [command_of_size (commandOf_op .size fmt), commandOf_op, commandOf_format]
  rcases checked_cases btcConfig .size fmt (fun s => finish (resultOf .size fmt s.lat) s) s with
    ⟨e, -, h⟩ | ⟨ha, h⟩ <;> rw [h]
  · exact ⟨fun herr => absurd (herr.symm.trans (raiseError_err e s)) (by decide), rfl, rfl⟩
  · exact ⟨fun _ => (finish_endedWith (lt_of_le_of_lt ha.compressed (by decide)) s).result, rfl, rfl⟩

/-- Settles O19. -/
theorem sizeReadsOnlyDimensions : Obligations.SizeReadsOnlyDimensions := by
  intro fmt s s' hw hh
  obtain ⟨hresult, hin, hout⟩ := size_memories_result fmt s
  obtain ⟨-, hin', hout'⟩ := size_memories_result fmt s'
  obtain ⟨hst, hr⟩ := command_status_result_congr (c := btcConfig) (i := commandOf .size fmt) (s := s) (s' := s')
    (by simp only [commandOf_op, commandOf_format, checkOperands_size_congr hw.symm hh.symm])
    (by simp only [commandOf_op, commandOf_format, resultOf, cSize_latches_congr hw.symm hh.symm])
  exact ⟨_, _, exec_eq _ s, exec_eq _ s', hst, hr, hresult, hin, hout, hin', hout'⟩

/-- A dimension that is negative, or a size above `LEN_MAX`, ends an ENC or a DEC with `E_DIM` (R102). -/
theorem exec_eDim {op : Operation} {fmt : Format} {s : State} (hop : op ≠ .size)
    (h : s.lat.width.toInt < 0 ∨ s.lat.height.toInt < 0 ∨
      2 ^ 32 - 1 < cSize fmt s.lat.imageWidth s.lat.imageHeight ∨
      2 ^ 32 - 1 < pSize s.lat.imageWidth s.lat.imageHeight) :
    ∃ t, exec (commandOf op fmt) s = .next t ∧ EndedInError .eDim s t ∧ SameInputs s t :=
  exec_commandOf_of_rejected <| checkOperands_of_bad <| badDimensions_iff.mpr <|
    h.imp_right <| Or.imp_right <| Or.imp_right fun hp => ⟨hop, hp⟩

/-- Operands of an ENC or a DEC without a bad dimension pass check 3. -/
theorem badDimensions_eq_false_of_not {op : Operation} {fmt : Format} {l : Latches}
    (h : ¬ (l.width.toInt < 0 ∨ l.height.toInt < 0 ∨
      2 ^ 32 - 1 < cSize fmt l.imageWidth l.imageHeight ∨ 2 ^ 32 - 1 < pSize l.imageWidth l.imageHeight)) :
    badDimensions btcConfig op fmt l = false :=
  Bool.eq_false_iff.mpr fun hbad =>
    h <| (badDimensions_iff.mp hbad).imp_right <| Or.imp_right <| Or.imp_right And.right

/-- Check 4 of an ENC, where check 3 passes: a length other than the pixel size (R102). -/
theorem checkOperands_enc_length {c : Config} {fmt : Format} {l : Latches} (hdim : badDimensions c .enc fmt l = false)
    (hlen : l.srcLen.toNat ≠ pSize l.imageWidth l.imageHeight) : checkOperands c .enc fmt l = some .ePixlen := by
  simp only [checkOperands, hdim]
  exact if_neg hlen

/-- Check 4 of a DEC, where check 3 passes: a length other than the compressed size (R102). -/
theorem checkOperands_dec_length {c : Config} {fmt : Format} {l : Latches} (hdim : badDimensions c .dec fmt l = false)
    (hlen : l.srcLen.toNat ≠ cSize fmt l.imageWidth l.imageHeight) : checkOperands c .dec fmt l = some .eDatalen := by
  simp only [checkOperands, hdim]
  exact if_neg hlen

/-- Settles O23: check 3, then check 4. -/
theorem encCommandErrors : Obligations.EncCommandErrors := by
  intro fmt s w h tooLarge
  refine ⟨exec_eDim (by decide), fun hdim hlen => ?_⟩
  exact exec_commandOf_of_rejected (checkOperands_enc_length (badDimensions_eq_false_of_not hdim) hlen)

/-- Settles O29: check 3, then check 4. -/
theorem decCommandErrors : Obligations.DecCommandErrors := by
  intro fmt s w h compressed tooLarge
  refine ⟨exec_eDim (by decide), fun hdim hlen => ?_⟩
  exact exec_commandOf_of_rejected (checkOperands_dec_length (badDimensions_eq_false_of_not hdim) hlen)

end Sys2Proof.Machine
end

section
/-! ## The order of the blocks

No two blocks of a command write the same byte of OUT, and what a block writes depends on the latches, IN and the draw
counter alone, which no block changes: so every order of the blocks leaves the same OUT (R107, R108). -/

namespace Sys2Proof.Machine

open Sys2Proof

/-! ### Writes at different addresses -/

section
variable {a b x : Nat}

theorem write_cons_of_lt (h : a < x) (v u : Byte) (m : Memory) :
    Memory.write a v ((x, u) :: m) = (a, v) :: (x, u) :: m := if_pos h

theorem write_cons_self (a : Nat) (v u : Byte) (m : Memory) :
    Memory.write a v ((a, u) :: m) = (a, v) :: m := by simp [Memory.write]

theorem write_cons_of_gt (h : x < a) (v u : Byte) (m : Memory) :
    Memory.write a v ((x, u) :: m) = (x, u) :: Memory.write a v m := by
  simp [Memory.write, Nat.not_lt_of_gt h, h.ne']

theorem write_comm_of_lt (hab : a < b) (v w : Byte) (m : Memory) :
    Memory.write b w (Memory.write a v m) = Memory.write a v (Memory.write b w m) := by
  induction m with
  | nil => exact (write_cons_of_gt hab w v []).trans (write_cons_of_lt hab v w []).symm
  | cons cell m ih =>
    obtain ⟨x, u⟩ := cell
    rcases Nat.lt_trichotomy a x with hax | rfl | hxa
    · rw [write_cons_of_lt hax, write_cons_of_gt hab]
      rcases Nat.lt_trichotomy b x with hbx | rfl | hxb
      · rw [write_cons_of_lt hbx, write_cons_of_lt hab]
      · rw [write_cons_self, write_cons_of_lt hab]
      · rw [write_cons_of_gt hxb, write_cons_of_lt hax]
    · rw [write_cons_self, write_cons_of_gt hab, write_cons_of_gt hab, write_cons_self]
    · have hxb := hxa.trans hab
      rw [write_cons_of_gt hxa, write_cons_of_gt hxb, write_cons_of_gt hxb, write_cons_of_gt hxa, ih]

/-- Writes of bytes at two addresses may change places. -/
theorem write_comm (hab : a ≠ b) (v w : Byte) (m : Memory) :
    Memory.write b w (Memory.write a v m) = Memory.write a v (Memory.write b w m) := by
  rcases Nat.lt_or_gt_of_ne hab with h | h
  · exact write_comm_of_lt h v w m
  · exact (write_comm_of_lt h w v m).symm

end

/-- A write may change places with writes at other addresses. -/
theorem write_writeAll_comm {a : Nat} {v : Byte} {cells : List Host.Cell} (h : ∀ x ∈ cells, x.1 ≠ a) (m : Memory) :
    Memory.writeAll (Memory.write a v m) cells = Memory.write a v (Memory.writeAll m cells) := by
  induction cells generalizing m with
  | nil => rfl
  | cons d cells ih =>
    obtain ⟨hd, hcells⟩ := List.forall_mem_cons.mp h
    calc Memory.writeAll (Memory.write a v m) (d :: cells)
        = Memory.writeAll (Memory.write d.1 d.2 (Memory.write a v m)) cells := rfl
      _ = Memory.writeAll (Memory.write a v (Memory.write d.1 d.2 m)) cells := by rw [write_comm hd.symm]
      _ = Memory.write a v (Memory.writeAll m (d :: cells)) := ih hcells _

/-- Writes of two lists of cells that share no address may change places. -/
theorem writeAll_comm {cells cells' : List Host.Cell} (h : ∀ x ∈ cells, ∀ y ∈ cells', x.1 ≠ y.1) (m : Memory) :
    Memory.writeAll (Memory.writeAll m cells) cells' = Memory.writeAll (Memory.writeAll m cells') cells := by
  induction cells generalizing m with
  | nil => rfl
  | cons d cells ih =>
    obtain ⟨hd, hcells⟩ := List.forall_mem_cons.mp h
    calc Memory.writeAll (Memory.writeAll m (d :: cells)) cells'
        = Memory.writeAll (Memory.writeAll (Memory.write d.1 d.2 m) cells) cells' := rfl
      _ = Memory.writeAll (Memory.writeAll (Memory.write d.1 d.2 m) cells') cells := ih hcells _
      _ = Memory.writeAll (Memory.writeAll m cells') (d :: cells) := by
        rw [write_writeAll_comm fun y hy => (hd y hy).symm]
        rfl

/-! ### The addresses of different blocks -/

/-- The address of a byte of a pixel gives the pixel's coordinates back (R44). -/
theorem coordinates_of_addr {w x y a : Nat} (hx : x < w) (hlo : pixelAddr w x y ≤ a) (hhi : a < pixelAddr w x y + 4) :
    x = a / 4 % w ∧ y = a / 4 / w := by
  have hpixel : a / 4 = w * y + x := by
    unfold pixelAddr at hlo hhi
    rw [Nat.mul_comm w y]
    omega
  rw [hpixel, Nat.mul_add_mod, Nat.mod_eq_of_lt hx, Nat.mul_add_div (Nat.zero_lt_of_lt hx), Nat.div_eq_of_lt hx]
  exact ⟨rfl, rfl⟩

/-- A byte that DEC writes for a block tells the block: it lies in the image column and row of its pixel (R47, R50). -/
theorem block_of_dec_addr {fmt : Format} {l : Latches} {n a : Nat} (h : a ∈ outAddrs .dec fmt l n) :
    n = ceil4 l.imageWidth * (a / 4 / l.imageWidth / 4) + a / 4 % l.imageWidth / 4 := by
  obtain ⟨k, p, hp, hlo, hhi⟩ := mem_outAddrs_dec.mp h
  obtain ⟨hx, -, rfl⟩ := scatterAddr_eq_some.mp hp
  obtain ⟨ex, ey⟩ := coordinates_of_addr hx hlo hhi
  have hcol : blockX l n k / 4 = n % ceil4 l.imageWidth := by unfold blockX; omega
  have hrow : blockY l n k / 4 = n / ceil4 l.imageWidth := by unfold blockY; omega
  rw [← ex, ← ey, hcol, hrow, Nat.div_add_mod]

/-- No two blocks write the same byte of OUT (R49, R50). -/
theorem outAddrs_disjoint {op : Operation} {fmt : Format} {l : Latches} {n m a : Nat}
    (hn : a ∈ outAddrs op fmt l n) (hm : a ∈ outAddrs op fmt l m) : n = m := by
  cases op with
  | size => cases hn
  | enc =>
    obtain ⟨hnlo, hnhi⟩ := mem_outAddrs_enc.mp hn
    obtain ⟨hmlo, hmhi⟩ := mem_outAddrs_enc.mp hm
    obtain ⟨j, rfl⟩ := Nat.exists_eq_add_of_le hnlo
    exact (block_of_addr (by omega) hmlo hmhi).symm
  | dec => rw [block_of_dec_addr hn, block_of_dec_addr hm]

/-! ### The work on a block -/

/-- What a command does with one block: the body of R105 or R106; SIZE has no blocks. -/
def blockWork (c : Config) (i : Instr) : State → Nat → State :=
  match i.op with
  | .size => fun s _ => s
  | .enc => encOne c i.format
  | .dec => decOne i.format

/-- The cells of OUT that a command writes for one block (R49, R50). -/
def blockCells (c : Config) (i : Instr) : State → Nat → List Host.Cell :=
  match i.op with
  | .size => fun _ _ => []
  | .enc => encCells c i.format
  | .dec => decCells i.format

/-- A state with other turns to come; they are the model's own, not the BTC's (log entry 3). -/
def State.withTurns (s : State) (ts : List Turn) : State := { s with turns := ts }

@[simp] theorem withTurns_lat (s : State) (ts : List Turn) : (s.withTurns ts).lat = s.lat := rfl
@[simp] theorem withTurns_blk (s : State) (ts : List Turn) : (s.withTurns ts).blk = s.blk := rfl
@[simp] theorem withTurns_doneBlocks (s : State) (ts : List Turn) : (s.withTurns ts).doneBlocks = s.doneBlocks := rfl
@[simp] theorem finish_withTurns (r : Nat) (s : State) (ts : List Turn) :
    finish r (s.withTurns ts) = (finish r s).withTurns ts := rfl

section
variable {c : Config} {i : Instr}

theorem blockWork_of_enc (hop : i.op = .enc) : blockWork c i = encOne c i.format := by rw [blockWork, hop]

theorem blockWork_of_dec (hop : i.op = .dec) : blockWork c i = decOne i.format := by rw [blockWork, hop]

theorem blockCells_of_enc (hop : i.op = .enc) : blockCells c i = encCells c i.format := by rw [blockCells, hop]

theorem blockCells_of_dec (hop : i.op = .dec) : blockCells c i = decCells i.format := by rw [blockCells, hop]

/-- The work on a block writes its cells and counts it (R29, R107). -/
theorem blockWork_eq_advance (hop : i.op ≠ .size) (s : State) (n : Nat) :
    ∃ tile, blockWork c i s n = advance n (blockCells c i s n) tile s := by
  cases h : i.op with
  | size => exact absurd h hop
  | enc => rw [blockWork_of_enc h, blockCells_of_enc h]; exact ⟨_, rfl⟩
  | dec => rw [blockWork_of_dec h, blockCells_of_dec h]; exact ⟨_, rfl⟩

theorem blockCells_addrs (hop : i.op ≠ .size) (s : State) (n a : Nat) :
    (∃ x ∈ blockCells c i s n, x.1 = a) ↔ a ∈ outAddrs i.op i.format s.lat n := by
  cases h : i.op with
  | size => exact absurd h hop
  | enc => rw [blockCells_of_enc h]; exact encCells_addrs c i.format s n a
  | dec => rw [blockCells_of_dec h]; exact decCells_addrs i.format s n a

/-- What a block writes depends on what no block changes (R105, R106). -/
theorem blockCells_of_sameInputs {s t : State} (h : SameInputs s t) (n : Nat) :
    blockCells c i t n = blockCells c i s n := by
  cases hop : i.op with
  | size => rw [blockCells, hop]
  | enc => rw [blockCells_of_enc hop, encCells, encCells, encBytes_of_sameInputs h]
  | dec => rw [blockCells_of_dec hop]; simp only [decCells, h.lat, h.inMem, h.draws]

theorem blockWork_frame (s : State) (n : Nat) : BlockFrame s (blockWork c i s n) := by
  cases hop : i.op with
  | size => rw [blockWork, hop]; exact BlockFrame.refl s
  | enc => rw [blockWork_of_enc hop]; exact encOne_frame c i.format s n
  | dec => rw [blockWork_of_dec hop]; exact decOne_frame i.format s n

/-- The waiting turns take no part in the work on a block. -/
theorem blockWork_withTurns (s : State) (n : Nat) (ts : List Turn) :
    blockWork c i (s.withTurns ts) n = (blockWork c i s n).withTurns ts := by
  cases hop : i.op with
  | size => rw [blockWork, hop]
  | enc => rw [blockWork_of_enc hop]; rfl
  | dec => rw [blockWork_of_dec hop]; rfl

theorem blockWork_outMem (hop : i.op ≠ .size) (s : State) (n : Nat) :
    (blockWork c i s n).outMem = Memory.writeAll s.outMem (blockCells c i s n) := by
  obtain ⟨tile, e⟩ := blockWork_eq_advance (c := c) hop s n
  rw [e, advance_outMem]

theorem blockWork_blk (hop : i.op ≠ .size) (s : State) (n : Nat) : (blockWork c i s n).blk = s.blk + 1 := by
  obtain ⟨tile, e⟩ := blockWork_eq_advance (c := c) hop s n
  rw [e, advance_blk]

theorem mem_blockWork_doneBlocks (hop : i.op ≠ .size) (s : State) (n m : Nat) :
    m ∈ (blockWork c i s n).doneBlocks ↔ m = n ∨ m ∈ s.doneBlocks := by
  obtain ⟨tile, e⟩ := blockWork_eq_advance (c := c) hop s n
  rw [e, advance_doneBlocks, mem_insertBlock]

/-! ### The work on a list of blocks -/

theorem foldl_blockWork_blk (hop : i.op ≠ .size) (l : List Nat) (s : State) :
    (l.foldl (blockWork c i) s).blk = s.blk + l.length := by
  induction l generalizing s with
  | nil => rfl
  | cons n l ih => rw [List.foldl_cons, ih, blockWork_blk hop, List.length_cons]; omega

/-- The work on a list of blocks writes the cells of each, one block after the other. -/
theorem foldl_blockWork_outMem (hop : i.op ≠ .size) (l : List Nat) (s : State) :
    (l.foldl (blockWork c i) s).outMem = l.foldl (fun m n => Memory.writeAll m (blockCells c i s n)) s.outMem := by
  induction l generalizing s with
  | nil => rfl
  | cons n l ih =>
    have hcells : blockCells c i (blockWork c i s n) = blockCells c i s :=
      funext (blockCells_of_sameInputs (blockWork_frame s n).toSameInputs)
    rw [List.foldl_cons, ih, hcells, blockWork_outMem hop, List.foldl_cons]

/-- The order of the blocks does not show in OUT: no two blocks write the same byte (R107). -/
theorem foldl_blockWork_outMem_perm (hop : i.op ≠ .size) {l l' : List Nat} (hl : l.Perm l') (s : State) :
    (l.foldl (blockWork c i) s).outMem = (l'.foldl (blockWork c i) s).outMem := by
  rw [foldl_blockWork_outMem hop, foldl_blockWork_outMem hop]
  refine hl.foldl_eq' (fun n _ m _ mem => ?_) s.outMem
  by_cases hnm : n = m
  · rw [hnm]
  · refine writeAll_comm (fun x hx y hy hxy => hnm ?_) mem
    exact outAddrs_disjoint ((blockCells_addrs (c := c) hop s n x.1).mp ⟨x, hx, rfl⟩)
      ((blockCells_addrs (c := c) hop s m x.1).mp ⟨y, hy, hxy.symm⟩)

/-! ### Stepping block by block -/

/-- An ENC or a DEC run at once: the checks, all remaining blocks, the successful end (R103). -/
theorem command_of_blocks (hop : i.op ≠ .size) {s : State} (ha : Accepted c i.op i.format s.lat) :
    command c i s = finish (resultOf i.op i.format s.lat) (runBlocks (blockWork c i) s) := by
  cases h : i.op with
  | size => exact absurd h hop
  | enc => rw [command_of_enc h, checked_of_accepted _ ha, blockWork_of_enc h, h]
  | dec => rw [command_of_dec h, checked_of_accepted _ ha, blockWork_of_dec h, h]

/-- An ENC or a DEC run at once from the start does its blocks in the reference order (R107). -/
theorem command_of_fresh (hop : i.op ≠ .size) {s : State} (hs : s.doneBlocks = [])
    (ha : Accepted c i.op i.format s.lat) : command c i s =
      finish (resultOf i.op i.format s.lat) ((List.range s.lat.blocks).foldl (blockWork c i) s) := by
  rw [command_of_blocks hop ha, runBlocks, remaining_of_no_blocks hs]

/-- The machine's own ENC or DEC, run at once from the start. -/
theorem exec_of_fresh (hop : i.op ≠ .size) {s : State} (hs : s.doneBlocks = [])
    (ha : Accepted btcConfig i.op i.format s.lat) : exec i s =
      .next (finish (resultOf i.op i.format s.lat) ((List.range s.lat.blocks).foldl (blockWork btcConfig i) s)) := by
  rw [exec_eq, command_of_fresh hop hs ha]

/-- A block turn of an accepted ENC or DEC is a block step (R107). -/
theorem runBlock_of_blocks (hop : i.op ≠ .size) (run : Runner) (n : Nat) {s : State} (hi : decode s.lat.cmd = .ok i)
    (ha : Accepted c i.op i.format s.lat) :
    runBlock c run n s = .next (blockStep (blockWork c i) (resultOf i.op i.format s.lat) n s) := by
  simp only [runBlock, hi]
  cases h : i.op with
  | size => exact absurd h hop
  | enc => rw [h] at ha; rw [encBlockStep, checked_of_accepted _ ha, blockWork_of_enc h]
  | dec => rw [h] at ha; rw [decBlockStep, checked_of_accepted _ ha, blockWork_of_dec h]

/-- A block step on a block to do does its work, and ends the command if it was the last (R107). -/
theorem blockStep_of_available (hop : i.op ≠ .size) {s : State} {n : Nat} (r : Nat) (hn : n < s.lat.blocks)
    (hnew : n ∉ s.doneBlocks) : blockStep (blockWork c i) r n s =
      if s.lat.blocks ≤ s.blk + 1 then finish r (blockWork c i s n) else blockWork c i s n := by
  have hwork : (if n < s.lat.blocks ∧ n ∉ s.doneBlocks then blockWork c i s n else s) = blockWork c i s n :=
    if_pos ⟨hn, hnew⟩
  simp only [blockStep, hwork, (blockWork_frame s n).lat, blockWork_blk hop]

/-- A command without a block ends at any block step (R107). -/
theorem blockStep_of_no_blocks {s : State} (body : State → Nat → State) (r n : Nat) (h : s.lat.blocks = 0) :
    blockStep body r n s = finish r s := by
  simp [blockStep, h]

theorem blockStep_withTurns (r n : Nat) (s : State) (ts : List Turn) :
    blockStep (blockWork c i) r n (s.withTurns ts) = (blockStep (blockWork c i) r n s).withTurns ts := by
  simp only [blockStep, withTurns_lat, withTurns_doneBlocks, blockWork_withTurns, ← apply_ite (State.withTurns · ts),
    withTurns_blk, finish_withTurns]

end

/-- The machine with block turns waiting takes the first of them. -/
theorem step_withTurns_btcBlock {i : Instr} (hop : i.op ≠ .size) {s : State} (hb : s.busy = true)
    (hi : decode s.lat.cmd = .ok i) (ha : Accepted btcConfig i.op i.format s.lat) (n : Nat) (ts : List Turn) :
    step (s.withTurns (.btcBlock n :: ts)) =
      .next ((blockStep (blockWork btcConfig i) (resultOf i.op i.format s.lat) n s).withTurns ts) := by
  have hturn : step (s.withTurns (.btcBlock n :: ts)) = runBlock btcConfig exec n (s.withTurns ts) :=
    step_of_btcBlock hb rfl
  rw [hturn, runBlock_of_blocks hop exec n (s := s.withTurns ts) hi ha, blockStep_withTurns]
  rfl

/-- The blocks left to an accepted ENC or DEC, stepped one by one in the order of a list, end it as their work in that
order does (R107). -/
theorem runSteps_btcBlocks {i : Instr} (hop : i.op ≠ .size) (l : List Nat) (hne : l ≠ []) {s : State}
    (hb : s.busy = true) (hi : decode s.lat.cmd = .ok i) (ha : Accepted btcConfig i.op i.format s.lat)
    (hnodup : l.Nodup) (hl : ∀ n ∈ l, n < s.lat.blocks ∧ n ∉ s.doneBlocks)
    (hblk : s.lat.blocks = s.blk + l.length) :
    runSteps l.length (s.withTurns (l.map .btcBlock)) =
      .next ((finish (resultOf i.op i.format s.lat) (l.foldl (blockWork btcConfig i) s)).withTurns []) := by
  induction l generalizing s with
  | nil => exact absurd rfl hne
  | cons n l ih =>
    obtain ⟨hn, hnew⟩ := hl n (by simp)
    obtain ⟨hnl, hnodup⟩ := List.nodup_cons.mp hnodup
    rw [List.length_cons] at hblk
    simp only [List.length_cons, List.map_cons, List.foldl_cons, runSteps, step_withTurns_btcBlock hop hb hi ha,
      blockStep_of_available hop _ hn hnew]
    cases l with
    | nil => rw [if_pos (by simpa using hblk.le)]; rfl
    | cons m l =>
      have hframe := blockWork_frame (c := btcConfig) (i := i) s n
      rw [if_neg (by rw [List.length_cons] at hblk; omega)]
      rw [← hframe.lat] at hi ha ⊢
      refine ih (by simp) ((congrArg (·.getLsbD 0) hframe.status).trans hb) hi ha hnodup (fun k hk => ?_) ?_
      · obtain ⟨hk1, hk2⟩ := hl k (List.mem_cons_of_mem _ hk)
        rw [hframe.lat, mem_blockWork_doneBlocks hop]
        exact ⟨hk1, not_or.mpr ⟨fun e => hnl (e ▸ hk), hk2⟩⟩
      · rw [hframe.lat, blockWork_blk hop]
        omega

/-- A command without a block ends at its one block turn (R107). -/
theorem runSteps_btcBlock_of_no_blocks {i : Instr} (hop : i.op ≠ .size) {s : State} (hb : s.busy = true)
    (hi : decode s.lat.cmd = .ok i) (ha : Accepted btcConfig i.op i.format s.lat) (h : s.lat.blocks = 0) (n : Nat) :
    runSteps 1 (s.withTurns [.btcBlock n]) =
      .next ((finish (resultOf i.op i.format s.lat) s).withTurns []) := by
  simp only [runSteps, step_withTurns_btcBlock hop hb hi ha, blockStep_of_no_blocks _ _ _ h]

/-- Settles O33: each order of the blocks writes the same cells, and no two blocks the same byte, whether IN is defined or
not. -/
theorem blockOrderUnobservable : Obligations.BlockOrderUnobservable := by
  intro i s l hs hi hop ha hne hl
  have hrun := exec_of_fresh hop hs.noBlocks ha
  rcases hl with hperm | ⟨hzero, hlen⟩
  · have hsteps := runSteps_btcBlocks hop l hne hs.busy hi ha (hperm.nodup_iff.mpr List.nodup_range)
      (fun n hn => ⟨List.mem_range.mp (hperm.mem_iff.mp hn), by simp [hs.noBlocks]⟩)
      (by simp [hs.cursor, hperm.length_eq])
    have hframe := fun ns => foldl_frame (blockWork_frame (c := btcConfig) (i := i)) ns s
    have hblk : (l.foldl (blockWork btcConfig i) s).blk =
        ((List.range s.lat.blocks).foldl (blockWork btcConfig i) s).blk := by
      rw [foldl_blockWork_blk hop, foldl_blockWork_blk hop, hperm.length_eq]
    have hout := foldl_blockWork_outMem_perm (c := btcConfig) hop hperm s
    exact ⟨_, _, hsteps, hrun, rfl, rfl, hblk, (hframe l).inMem.trans (hframe _).inMem.symm, rfl,
      fun a => congrArg (fun m => (Memory.read a m).isSome) hout, fun _ => hout⟩
  · obtain ⟨n, rfl⟩ := List.length_eq_one_iff.mp hlen
    rw [hzero] at hrun
    exact ⟨_, _, runSteps_btcBlock_of_no_blocks hop hs.busy hi ha hzero n, hrun, rfl, rfl, rfl, rfl, rfl,
      fun _ => rfl, fun _ => rfl⟩

end Sys2Proof.Machine
end

section
/-! ## The length of the output

A fresh ENC on accepted operands defines exactly the bytes below its RESULT, so OUT holds that many bytes, and SIZE of the
same operands, which pass its checks too, gives the same number (R113). -/

namespace Sys2Proof.Machine

open Sys2Proof

/-! ### Counting defined bytes -/

/-- The addresses of a canonical memory rise strictly. -/
theorem addrs_rising_of_wf {m : Memory} (hm : Memory.wf m = true) : (m.map Prod.fst).Pairwise (· < ·) := by
  induction m with
  | nil => exact List.Pairwise.nil
  | cons cell m ih =>
    obtain ⟨htail, hlt⟩ := wf_cons.mp hm
    exact List.pairwise_cons.mpr ⟨List.forall_mem_map.mpr hlt, ih htail⟩

/-- In a canonical memory the listed addresses are the defined ones. -/
theorem mem_addrs_iff {m : Memory} (hm : Memory.wf m = true) (a : Nat) :
    a ∈ m.map Prod.fst ↔ (Memory.read a m).isSome = true := by
  constructor
  · intro h
    obtain ⟨⟨x, b⟩, hmem, rfl⟩ := List.mem_map.mp h
    simp [read_of_mem hm hmem]
  · intro h
    obtain ⟨b, hb⟩ := Option.isSome_iff_exists.mp h
    exact List.mem_map.mpr ⟨(a, b), mem_of_read hb, rfl⟩

/-- A canonical memory defined exactly below `N` holds `N` bytes. -/
theorem length_of_defined_below {m : Memory} {N : Nat} (hm : Memory.wf m = true)
    (h : ∀ a, (Memory.read a m).isSome = true ↔ a < N) : m.length = N := by
  have hnodup : (m.map Prod.fst).Nodup := (addrs_rising_of_wf hm).imp Nat.ne_of_lt
  have hperm : (m.map Prod.fst).Perm (List.range N) :=
    (List.perm_ext_iff_of_nodup hnodup List.nodup_range).mpr fun a => by
      rw [mem_addrs_iff hm, h, List.mem_range]
  simpa using hperm.length_eq

/-! ### What a whole command defines -/

section
variable {c : Config} {i : Instr}

/-- The work on a list of blocks defines their addresses besides what was defined before. -/
theorem foldl_blockWork_isSome (hop : i.op ≠ .size) (l : List Nat) (s : State) (a : Nat) :
    (Memory.read a (l.foldl (blockWork c i) s).outMem).isSome = true ↔
      (Memory.read a s.outMem).isSome = true ∨ ∃ n ∈ l, a ∈ outAddrs i.op i.format s.lat n := by
  induction l generalizing s with
  | nil => simp
  | cons n l ih =>
    rw [List.foldl_cons, ih, blockWork_outMem hop, read_writeAll_isSome, blockCells_addrs hop, (blockWork_frame s n).lat,
      List.exists_mem_cons_iff, or_assoc]

theorem foldl_blockWork_wf (hop : i.op ≠ .size) (l : List Nat) {s : State} (h : Memory.wf s.outMem = true) :
    Memory.wf (l.foldl (blockWork c i) s).outMem = true := by
  induction l generalizing s with
  | nil => exact h
  | cons n l ih => exact ih (by rw [blockWork_outMem hop]; exact writeAll_wf _ h)

/-- A fresh ENC or DEC on accepted operands defines exactly the bytes below its RESULT (R26, R203). -/
theorem command_of_fresh_isSome (hop : i.op ≠ .size) {s : State} (hs : s.Fresh) (ha : Accepted c i.op i.format s.lat)
    (a : Nat) :
    (Memory.read a (command c i s).outMem).isSome = true ↔ a < resultOf i.op i.format s.lat := by
  rw [command_of_fresh hop hs.noBlocks ha, finish_outMem, foldl_blockWork_isSome hop, hs.emptyOut,
    ← blocks_cover hop i.format s.lat a]
  simp [Memory.read]

theorem command_of_fresh_outMem_length (hop : i.op ≠ .size) {s : State} (hs : s.Fresh)
    (ha : Accepted c i.op i.format s.lat) : (command c i s).outMem.length = resultOf i.op i.format s.lat := by
  refine length_of_defined_below ?_ (command_of_fresh_isSome hop hs ha)
  rw [command_of_fresh hop hs.noBlocks ha, finish_outMem]
  exact foldl_blockWork_wf hop _ (hs.emptyOut ▸ rfl)

end

/-- A command that does not end in error was given accepted operands (R204). -/
theorem accepted_of_err_eq_false {c : Config} {i : Instr} {s : State} (h : (command c i s).err = false) :
    Accepted c i.op i.format s.lat := by
  rw [← checkOperands_eq_none_iff]
  cases hchk : checkOperands c i.op i.format s.lat with
  | none => rfl
  | some e =>
    rw [command_of_rejected hchk, raiseError_err] at h
    cases h

/-- Where an ENC succeeds, SIZE of the same operands succeeds with the same RESULT, the number of bytes ENC defined. -/
theorem size_of_enc {fmt : Format} {s : State} (hs : s.Fresh)
    (herr : (command btcConfig (commandOf .enc fmt) s).err = false) :
    let t := command btcConfig (commandOf .enc fmt) s
    let u := command btcConfig (commandOf .size fmt) s
    u.err = false ∧ t.result = u.result ∧
      (∀ a, (Memory.read a t.outMem).isSome = true ↔ a < u.result.toNat) ∧ t.outMem.length = u.result.toNat := by
  intro t u
  have hop : (commandOf .enc fmt).op ≠ .size := by rw [commandOf_op]; decide
  have ha := accepted_of_err_eq_false herr
  have hdefined := command_of_fresh_isSome hop hs ha
  have hlength := command_of_fresh_outMem_length hop hs ha
  have hresult : t.result = BitVec.ofNat 32 (resultOf (commandOf .enc fmt).op (commandOf .enc fmt).format s.lat) :=
    congrArg State.result (command_of_fresh hop hs.noBlocks ha)
  rw [commandOf_op, commandOf_format] at ha hdefined hlength hresult
  have hu : u = finish (cSize fmt s.lat.imageWidth s.lat.imageHeight) s :=
    Host.Outcome.next.inj <| (exec_eq _ s).symm.trans <|
      exec_size_of_accepted (accepted_size ha.width ha.height ha.compressed)
  have hended : EndedWith (cSize fmt s.lat.imageWidth s.lat.imageHeight) u :=
    hu ▸ finish_endedWith (lt_of_le_of_lt ha.compressed (by decide)) s
  rw [hended.result]
  exact ⟨hended.err, by rw [hresult, hu]; rfl, hdefined, hlength⟩

/-! ### A size that SIZE alone takes

An image of 32768 by 32768 pixels has 2^29 compressed bytes in BC1, and 2^32 bytes of pixels, one more than `LEN_MAX`. -/

section
variable {s : State}

theorem imageWidth_of_32768 {l : Latches} (hw : l.width = 0x8000) : l.imageWidth = 32768 := by
  rw [Latches.imageWidth, Latches.signedWidth, hw]
  decide

theorem imageHeight_of_32768 {l : Latches} (hh : l.height = 0x8000) : l.imageHeight = 32768 := by
  rw [Latches.imageHeight, Latches.signedHeight, hh]
  decide

theorem exec_sizeBc1_of_32768 (hw : s.lat.width = 0x8000) (hh : s.lat.height = 0x8000) :
    ∃ u, exec (commandOf .size .bc1) s = .next u ∧ u.err = false := by
  have hsize : cSize .bc1 s.lat.imageWidth s.lat.imageHeight ≤ 2 ^ 32 - 1 := by
    rw [imageWidth_of_32768 hw, imageHeight_of_32768 hh]
    decide
  obtain ⟨u, hu, hended, -⟩ := exec_size_completes (by rw [hw]; decide) (by rw [hh]; decide) hsize
  exact ⟨u, hu, hended.err⟩

theorem exec_encBc1_of_32768 (hw : s.lat.width = 0x8000) (hh : s.lat.height = 0x8000) :
    ∃ t, exec (commandOf .enc .bc1) s = .next t ∧ t.ecode = 3 := by
  have hpixels : 2 ^ 32 - 1 < pSize s.lat.imageWidth s.lat.imageHeight := by
    rw [imageWidth_of_32768 hw, imageHeight_of_32768 hh]
    decide
  obtain ⟨t, ht, hended, -⟩ :=
    exec_eDim (op := .enc) (fmt := .bc1) (s := s) (by decide) (.inr (.inr (.inr hpixels)))
  exact ⟨t, ht, hended.ecode⟩

end

/-- Settles O30: an ENC that succeeds defines the bytes SIZE counts, and an image of 32768 by 32768 pixels is one only SIZE
takes. -/
theorem sizeEqualsEncodedLength : Obligations.SizeEqualsEncodedLength := by
  refine ⟨fun fmt s hs => ⟨_, _, exec_eq _ s, exec_eq _ s, size_of_enc hs⟩, .bc1, 0x8000, 0x8000, fun len => ?_⟩
  exact ⟨fun s h => exec_sizeBc1_of_32768 (congrArg Latches.width h) (congrArg Latches.height h),
    fun s h => exec_encBc1_of_32768 (congrArg Latches.width h) (congrArg Latches.height h)⟩

end Sys2Proof.Machine
end

section
/-! ## The ENC commands of the machine

A whole ENC or DEC from the start: its successful end, its frame and the bytes it defines; and the blocks of ENC part by
part (R147, R150 to R152). -/

namespace Sys2Proof.Machine

open Sys2Proof

section
variable {c : Config} {i : Instr}

/-- The work on a list of blocks leaves every byte of OUT that none of them writes. -/
theorem read_foldl_blockWork_other (hop : i.op ≠ .size) (l : List Nat) (s : State) {a : Nat}
    (h : ∀ n ∈ l, a ∉ outAddrs i.op i.format s.lat n) :
    Memory.read a (l.foldl (blockWork c i) s).outMem = Memory.read a s.outMem := by
  induction l generalizing s with
  | nil => rfl
  | cons n l ih =>
    obtain ⟨hn, hl⟩ := List.forall_mem_cons.mp h
    rw [List.foldl_cons, ih _ (by rwa [(blockWork_frame s n).lat]), blockWork_outMem hop]
    exact read_writeAll_other fun x hx e => hn ((blockCells_addrs (c := c) hop s n a).mp ⟨x, hx, e⟩)

/-- The machine's ENC or DEC, run at once from the start on accepted operands: it ends with success, counts its blocks,
defines every byte below its RESULT and leaves the others (R28, R29, R203); besides, whatever else is shown of its end. -/
theorem exec_completes (hop : i.op ≠ .size) {s : State} (hs : s.doneBlocks = [])
    (ha : Accepted btcConfig i.op i.format s.lat) {Q : State → Prop} (hQ : Q (command btcConfig i s)) :
    ∃ t, exec i s = .next t ∧ EndedWith (resultOf i.op i.format s.lat) t ∧ SameInputs s t ∧
      t.blk = s.blk + s.lat.blocks ∧
      (∀ a, resultOf i.op i.format s.lat ≤ a → Memory.read a t.outMem = Memory.read a s.outMem) ∧
      (∀ a, a < resultOf i.op i.format s.lat → (Memory.read a t.outMem).isSome = true) ∧ Q t := by
  have hcover := blocks_cover hop i.format s.lat
  have hframe := foldl_frame (blockWork_frame (c := btcConfig) (i := i)) (List.range s.lat.blocks) s
  refine ⟨_, exec_eq i s, ?_⟩
  rw [command_of_fresh hop hs ha] at hQ ⊢
  refine ⟨finish_endedWith (lt_of_le_of_lt ha.resultOf_le (by decide)) _,
    hframe.toSameInputs.trans (finish_sameInputs _ _), ?_, fun a hle => ?_, fun a hlt => ?_, hQ⟩
  · rw [finish_blk, foldl_blockWork_blk hop, List.length_range]
  · rw [finish_outMem]
    refine read_foldl_blockWork_other hop _ s fun n hn hmem => Nat.not_lt_of_le hle ?_
    exact (hcover a).mp ⟨n, List.mem_range.mp hn, hmem⟩
  · rw [finish_outMem, foldl_blockWork_isSome hop]
    obtain ⟨n, hn, hmem⟩ := (hcover a).mpr hlt
    exact .inr ⟨n, List.mem_range.mpr hn, hmem⟩

theorem command_eq_encCommand (hop : i.op = .enc) (s : State) : command c i s = encCommand c i.format s := by
  rw [command, hop]

end

/-- The machine encodes with the reference searches under the default weights (R126, R128, R140). -/
theorem btcConfig_strategy : btcConfig.strategy = referenceQuantizer defaultWeights := rfl

theorem encBlock_btcConfig_bc1 (P : Tile) :
    encBlock btcConfig .bc1 P = colorBlockBytes (encColorBlock defaultWeights P true) := by
  rw [encBlock, btcConfig_strategy, referenceQuantizer]

theorem encBlock_btcConfig_bc2 (P : Tile) : encBlock btcConfig .bc2 P =
    alpha4Bytes (encAlpha4 P) ++ colorBlockBytes (encColorBlock defaultWeights P false) := by
  rw [encBlock, btcConfig_strategy, referenceQuantizer]

theorem encBlock_btcConfig_bc3 (P : Tile) : encBlock btcConfig .bc3 P =
    alphaBlockBytes (encAlpha3 (alphasOf P)) ++ colorBlockBytes (encColorBlock defaultWeights P false) := by
  rw [encBlock, btcConfig_strategy, referenceQuantizer]

/-- A 16-byte block of ENC that is an alpha part and a colour part stands in OUT part by part (R147). -/
theorem read_encCommand_parts {c : Config} {fmt : Format} {s : State} {n j : Nat} {P : Tile} {alpha color : List Byte}
    (hfresh : s.doneBlocks = []) (h : Accepted c .enc fmt s.lat) (hn : n < s.lat.blocks)
    (hP : gatherTile s.lat s.inMem n = some P) (hbpb : bpb fmt = 16) (hblock : encBlock c fmt P = alpha ++ color)
    (halpha : alpha.length = 8) (hj : j < 8) :
    Memory.read (16 * n + j) (encCommand c fmt s).outMem = alpha[j]? ∧
      Memory.read (16 * n + 8 + j) (encCommand c fmt s).outMem = color[j]? := by
  have hread : ∀ m, m < 16 →
      Memory.read (16 * n + m) (encCommand c fmt s).outMem = (alpha ++ color)[m]? := fun m hm => by
    rw [← hblock, ← read_encCommand hfresh h hn hP (hbpb ▸ hm), hbpb, Nat.mul_comm]
  constructor
  · rw [hread j (by omega), List.getElem?_append_left (by omega)]
  · rw [Nat.add_assoc, hread (8 + j) (by omega), List.getElem?_append_right (by omega), halpha,
      Nat.add_sub_cancel_left]

/-- Settles O20: the blocks of BC1 are 8 bytes apart. -/
theorem encBc1Completes : Obligations.EncBc1Completes := by
  intro s hs ha
  refine exec_completes (i := .encBc1) (by decide) hs ha ?_
  intro n hn P hP j hj
  rw [command_eq_encCommand rfl, Nat.mul_comm, ← encBlock_btcConfig_bc1]
  exact read_encCommand hs ha hn hP hj

/-- Settles O21: the alpha part of a BC2 block is the packed 4-bit alphas. -/
theorem encBc2Completes : Obligations.EncBc2Completes := by
  intro s hs ha
  refine exec_completes (i := .encBc2) (by decide) hs ha ?_
  intro n hn P hP j hj
  rw [command_eq_encCommand rfl]
  exact read_encCommand_parts hs ha hn hP rfl (encBlock_btcConfig_bc2 P) (alpha4Bytes_length _) hj

/-- Settles O22: the alpha part of a BC3 block is the alpha block of the search. -/
theorem encBc3Completes : Obligations.EncBc3Completes := by
  intro s hs ha
  refine exec_completes (i := .encBc3) (by decide) hs ha ?_
  intro n hn P hP j hj
  rw [command_eq_encCommand rfl]
  exact read_encCommand_parts hs ha hn hP rfl (encBlock_btcConfig_bc3 P) (alphaBlockBytes_length _) hj

end Sys2Proof.Machine
end

section
/-! ## The encoder's searches

Packing an endpoint and the 4-bit alpha against their decoding (R123, R135); the metric written out (R124 to R126); the
first least candidate of the two searches (R128, R140); and what they give for special tiles (R86, R132, R134, R143). -/

namespace Sys2Proof.Machine

open Sys2Proof

/-! ### Quantised values -/

theorem pack565_toNat (p : Pixel) : (pack565 p).toNat = q5 p.r * 2048 + q6 p.g * 32 + q5 p.b := by
  obtain ⟨hr, -⟩ := expand5_q5_within p.r
  obtain ⟨hg, -⟩ := expand6_q6_within p.g
  obtain ⟨hb, -⟩ := expand5_q5_within p.b
  exact Nat.mod_eq_of_lt (by omega)

/-- The fields of a packed colour are the quantised channels (R67, R123). -/
theorem pack565_fields (p : Pixel) : ((pack565 p).extractLsb' 11 5).toNat = q5 p.r ∧
    ((pack565 p).extractLsb' 5 6).toNat = q6 p.g ∧ ((pack565 p).extractLsb' 0 5).toNat = q5 p.b := by
  obtain ⟨hr, -⟩ := expand5_q5_within p.r
  obtain ⟨hg, -⟩ := expand6_q6_within p.g
  obtain ⟨hb, -⟩ := expand5_q5_within p.b
  simp only [BitVec.extractLsb'_toNat, Nat.shiftRight_eq_div_pow, pack565_toNat]
  omega

/-- Settles O45: each channel is quantised and expanded on its own. -/
theorem packUnpackWithinStep : Obligations.PackUnpackWithinStep := by
  intro p u
  obtain ⟨hr, hg, hb⟩ := unpack565_toNat (pack565 p)
  obtain ⟨fr, fg, fb⟩ := pack565_fields p
  rw [hr, hg, hb, fr, fg, fb]
  exact ⟨(expand5_q5_within p.r).2, (expand6_q6_within p.g).2, (expand5_q5_within p.b).2⟩

theorem quantAlpha4_toNat (a : Byte) : (quantAlpha4 a).toNat = (a.toNat + 8) / 17 :=
  Nat.mod_eq_of_lt (by have := a.isLt; omega)

theorem alpha4Value_encAlpha4_toNat (P : Tile) (k : Fin 16) :
    (alpha4Value (encAlpha4 P) k).toNat = 17 * ((P[k].a.toNat + 8) / 17) := by
  rw [alpha4Value, alpha4At_encAlpha4, quantAlpha4_toNat]
  exact Nat.mod_eq_of_lt (by have := P[k].a.isLt; omega)

/-- Settles O54: rounding to the nearest multiple of 17, ties impossible since 17 is odd. -/
theorem alpha4RoundTrip : Obligations.Alpha4RoundTrip := by
  intro P k d
  have hd : d = 17 * ((P[k].a.toNat + 8) / 17) := alpha4Value_encAlpha4_toNat P k
  refine ⟨by rw [alpha4At_encAlpha4, quantAlpha4_toNat], hd, by omega, by omega, fun n hn => ?_⟩
  omega

/-! ### The metric -/

theorem sqDiff_cast (x y : Byte) : (sqDiff x y : Int) = ((x.toNat : Int) - y.toNat) ^ 2 := by
  unfold sqDiff
  rcases Nat.le_total x.toNat y.toNat with h | h
  · rw [Nat.sub_eq_zero_of_le h]
    push_cast [h]
    ring
  · rw [Nat.sub_eq_zero_of_le h]
    push_cast [h]
    ring

theorem sqDiff_eq_zero_iff {x y : Byte} : sqDiff x y = 0 ↔ x = y := by
  rw [sqDiff, pow_eq_zero_iff two_ne_zero, ← BitVec.toNat_inj]
  omega

theorem transparent_iff (p : Pixel) : transparent p = true ↔ p.a = 0 := beq_iff_eq

/-- A BC1 tile is punched through when some pixel of it is transparent (R124). -/
theorem punch_iff (P : Tile) (bc1 : Bool) : punch P bc1 = true ↔ bc1 = true ∧ ∃ k : Fin 16, P[k].a = 0 := by
  simp [punch, mem_tileIndices, transparent_iff]

theorem tileIndices_rising : tileIndices.Pairwise (· < ·) := List.pairwise_lt_finRange 16

theorem searchSet_rising (P : Tile) (bc1 : Bool) : (searchSet P bc1).Pairwise (· < ·) := by
  unfold searchSet
  split
  · exact tileIndices_rising.filter _
  · exact tileIndices_rising

/-- `O` is every pixel, or every opaque one where the tile is punched through (R125). -/
theorem mem_searchSet_iff (P : Tile) (bc1 : Bool) (k : Fin 16) :
    k ∈ searchSet P bc1 ↔ (punch P bc1 = true → P[k].a ≠ 0) := by
  rw [mem_searchSet, Bool.and_eq_false_imp, ← Bool.not_eq_true, transparent_iff]

/-- Settles O47: the block gives back the indices it was packed from. -/
theorem fitErrorIsBlockError : Obligations.FitErrorIsBlockError := by
  refine ⟨sqDiff_cast, fun w p q => ?_, punch_iff, fun P bc1 => ⟨searchSet_rising P bc1, mem_searchSet_iff P bc1⟩,
    fun w P bc1 c0 c1 => ⟨rfl, (colErr_colorFit w P bc1 c0 c1).symm⟩, fun A a0 a1 => (alphaErr_alphaFit A a0 a1).symm⟩
  simp only [dist, Nat.cast_add, Nat.cast_mul, sqDiff_cast]

/-! ### The first least candidate -/

/-- A first element that costs no more than any other is the result. -/
theorem firstLeast_eq_head {α : Type} {cost : α → Nat} {x : α} {xs : List α} (h : ∀ y ∈ xs, cost x ≤ cost y) :
    firstLeast cost x xs = x := by
  induction xs with
  | nil => rfl
  | cons y ys ih =>
    obtain ⟨hy, hys⟩ := List.forall_mem_cons.mp h
    rw [firstLeast, if_neg (Nat.not_lt_of_le hy), ih hys]

/-- Meeting the running best again changes nothing. -/
theorem firstLeast_cons_self {α : Type} (cost : α → Nat) (x : α) (xs : List α) :
    firstLeast cost x (x :: xs) = firstLeast cost x xs := by
  rw [firstLeast, if_neg (Nat.lt_irrefl _)]

theorem firstLeast_map {α β : Type} (cost : β → Nat) (f : α → β) (x : α) (xs : List α) :
    firstLeast cost (f x) (xs.map f) = f (firstLeast (fun y => cost (f y)) x xs) := by
  induction xs generalizing x with
  | nil => rfl
  | cons y ys ih =>
    simp only [List.map_cons, firstLeast, ih]
    split <;> rfl

/-- In a list that is in the order `r`, every element before the result costs more. -/
theorem firstLeast_lt_of_before {α : Type} {r : α → α → Prop} (hasymm : ∀ a b, r a b → ¬ r b a) {cost : α → Nat} {x y : α}
    {xs : List α} (hr : (x :: xs).Pairwise r) (hy : y ∈ x :: xs) (hlt : r y (firstLeast cost x xs)) :
    cost (firstLeast cost x xs) < cost y := by
  obtain ⟨before, after, hsplit, hbefore⟩ := firstLeast_first cost x xs
  generalize firstLeast cost x xs = best at *
  rw [hsplit] at hr hy
  obtain ⟨-, hafter, -⟩ := List.pairwise_append.mp hr
  rcases List.mem_append.mp hy with hy | hy
  · exact hbefore y hy
  · rcases List.mem_cons.mp hy with rfl | hy
    · exact absurd hlt (hasymm _ _ hlt)
    · exact absurd hlt (hasymm _ _ ((List.pairwise_cons.mp hafter).1 y hy))

/-! ### The pairs of the searches -/

/-- A pair comes before another in the searches: by its first index, then by its second (R128, R140). -/
def Precedes (p q : Fin 16 × Fin 16) : Prop := p.1 < q.1 ∨ (p.1 = q.1 ∧ p.2 < q.2)

theorem Precedes.asymm (p q : Fin 16 × Fin 16) (h : Precedes p q) : ¬ Precedes q p := by
  unfold Precedes at *
  omega

/-- Pairs listed by rising first index, and for each by rising second index, are in the order of the searches. -/
theorem pairs_rising {O : List (Fin 16)} {L : Fin 16 → List (Fin 16)} (hO : O.Pairwise (· < ·))
    (hL : ∀ i, (L i).Pairwise (· < ·)) : (O.flatMap fun i => (L i).map fun j => (i, j)).Pairwise Precedes := by
  refine List.pairwise_flatMap.mpr ⟨fun i _ => ?_, hO.imp fun hlt p hp q hq => ?_⟩
  · exact List.pairwise_map.mpr ((hL i).imp fun h => .inr ⟨rfl, h⟩)
  · obtain ⟨_, -, rfl⟩ := List.mem_map.mp hp
    obtain ⟨_, -, rfl⟩ := List.mem_map.mp hq
    exact .inl hlt

theorem searchPairs_rising {O : List (Fin 16)} (hO : O.Pairwise (· < ·)) : (searchPairs O).Pairwise Precedes :=
  pairs_rising hO fun _ => hO.filter _

/-- A search over pairs in their order takes a pair of least cost, and each pair before it costs more. -/
theorem firstLeast_pair {β : Type} (cost : β → Nat) (f : Fin 16 × Fin 16 → β) {x : Fin 16 × Fin 16}
    {xs : List (Fin 16 × Fin 16)} (h : (x :: xs).Pairwise Precedes) :
    ∃ p ∈ x :: xs, firstLeast cost (f x) (xs.map f) = f p ∧
      ∀ q ∈ x :: xs, cost (f p) ≤ cost (f q) ∧ (Precedes q p → cost (f p) < cost (f q)) := by
  refine ⟨_, List.mem_cons.mpr (firstLeast_mem (fun q => cost (f q)) x xs), firstLeast_map cost f x xs,
    fun q hq => ⟨?_, firstLeast_lt_of_before Precedes.asymm h hq⟩⟩
  obtain ⟨hhead, htail⟩ := firstLeast_le (fun q => cost (f q)) x xs
  rcases List.mem_cons.mp hq with rfl | hq
  · exact hhead
  · exact htail q hq

/-- Settles O48: the pairs of `O` are tried in the order of their indices. -/
theorem colorSearchTakesFirstLeast : Obligations.ColorSearchTakesFirstLeast := by
  intro w P bc1 hne fit
  obtain ⟨k, hk⟩ := List.exists_mem_of_ne_nil _ hne
  have hrising := searchPairs_rising (searchSet_rising P bc1)
  have hmem : ∀ i j, (i, j) ∈ searchPairs (searchSet P bc1) ↔ _ := fun i j => mem_searchPairs
  have hkk := (hmem k k).mpr ⟨hk, hk, le_refl k⟩
  simp only [encColorBlock, colorCandidates]
  cases hpairs : searchPairs (searchSet P bc1) with
  | nil => rw [hpairs] at hkk; cases hkk
  | cons x xs =>
    rw [hpairs] at hrising hmem
    obtain ⟨⟨i, j⟩, hij, hbest, hleast⟩ := firstLeast_pair (·.err) (fun ij => fit ij.1 ij.2) hrising
    obtain ⟨hi, hj, hle⟩ := (hmem i j).mp hij
    refine ⟨i, j, hi, hj, hle, congrArg ColorFit.block hbest, fun i' j' hi' hj' hle' => ?_⟩
    exact hleast (i', j') ((hmem i' j').mpr ⟨hi', hj', hle'⟩)

/-- The 256 ordered pairs of tile indices, in the order of the alpha search (R140). -/
def alphaPairs : List (Fin 16 × Fin 16) := tileIndices.flatMap fun i => tileIndices.map fun j => (i, j)

theorem mem_alphaPairs (i j : Fin 16) : (i, j) ∈ alphaPairs := by
  simp [alphaPairs, mem_tileIndices]

theorem alphaPairs_rising : alphaPairs.Pairwise Precedes := pairs_rising tileIndices_rising fun _ => tileIndices_rising

theorem alphaCandidates_eq_map (A : Alphas) : alphaCandidates A = alphaPairs.map fun ij => alphaFit A A[ij.1] A[ij.2] := by
  simp [alphaCandidates, alphaPairs, List.map_flatMap, Function.comp_def]

theorem alphaPairs_head : ∃ pairs, alphaPairs = (0, 0) :: pairs := ⟨_, rfl⟩

/-- Settles O49: the pair (0, 0) the search starts from is the first of the list. -/
theorem alphaSearchTakesFirstLeast : Obligations.AlphaSearchTakesFirstLeast := by
  intro A
  obtain ⟨pairs, hpairs⟩ := alphaPairs_head
  obtain ⟨⟨i, j⟩, -, hbest, hleast⟩ := firstLeast_pair (·.err) (fun ij => alphaFit A A[ij.1] A[ij.2])
    (hpairs ▸ alphaPairs_rising)
  refine ⟨i, j, ?_, fun i' j' => hleast (i', j') (hpairs ▸ mem_alphaPairs i' j')⟩
  rw [encAlpha3, alphaCandidates_eq_map, hpairs, List.map_cons]
  exact congrArg AlphaFit.block ((firstLeast_cons_self ..).trans hbest)

/-! ### Tiles of one kind -/

/-- With nothing to search both endpoints are 0 and every index 3 (R132). -/
theorem encColorBlock_of_nil (w : Weights) {P : Tile} {bc1 : Bool} (h : searchSet P bc1 = []) :
    encColorBlock w P bc1 = { c0 := 0, c1 := 0, cw := 0xFFFFFFFF } := by
  simp [encColorBlock, colorCandidates, searchPairs, h]

theorem searchSet_eq_nil_of_transparent {P : Tile} (h : ∀ k : Fin 16, P[k].a = 0) : searchSet P true = [] :=
  List.eq_nil_iff_forall_not_mem.mpr fun k hk =>
    (mem_searchSet_iff P true k).mp hk ((punch_iff P true).mpr ⟨rfl, 0, h 0⟩) (h k)

/-- Settles O50: nothing is searched, and the block decodes in 3-colour mode. -/
theorem allTransparentTile : Obligations.AllTransparentTile := by
  intro w P h
  rw [encColorBlock_of_nil w (searchSet_eq_nil_of_transparent h)]
  exact ⟨rfl, rfl, by decide, by decide, by decide⟩

/-- Equal endpoints give one colour at every index the mode allows (R71, R72, R73). -/
theorem colorAt_palette_self (c : Half) (bc1 : Bool) {n : BitVec 2} (hn : threeColor c c bc1 = true → n ≠ 3) :
    colorAt (colorPalette c c bc1) n = unpack565 c := by
  have hhalf := mixColor_self (u := 1) (v := 1) rfl (by omega) (unpack565_a c)
  have hthird := mixColor_self (u := 2) (v := 1) rfl (by omega) (unpack565_a c)
  have htwothirds := mixColor_self (u := 1) (v := 2) rfl (by omega) (unpack565_a c)
  have hindex : ∀ n : BitVec 2, n = 0 ∨ n = 1 ∨ n = 2 ∨ n = 3 := by decide
  unfold colorPalette
  cases hmode : threeColor c c bc1 with
  | true =>
    rcases hindex n with rfl | rfl | rfl | rfl
    · rfl
    · rfl
    · exact hhalf
    · exact absurd rfl (hn hmode)
  | false =>
    rcases hindex n with rfl | rfl | rfl | rfl
    · rfl
    · rfl
    · exact hthird
    · exact htwothirds

/-- Among equal colours the first index is taken (R130). -/
theorem fitIndex_self (w : Weights) {P : Tile} {bc1 : Bool} (c : Half) {k : Fin 16} (hk : k ∈ searchSet P bc1) :
    fitIndex w P bc1 c c k = 0 := by
  rw [fitIndex_of_mem hk]
  refine firstLeast_eq_head fun n hn => le_of_eq ?_
  rw [colorAt_palette_self c bc1 (mem_laterIndices.mp hn).2, colorAt_palette_self c bc1 fun _ => by decide]

/-- Packing does not read alpha (R123). -/
theorem pack565_congr {p q : Pixel} (hr : p.r = q.r) (hg : p.g = q.g) (hb : p.b = q.b) : pack565 p = pack565 q := by
  rw [pack565, pack565, hr, hg, hb]

/-- Settles O51: every pair of the search has the two endpoints `Pack565(v)`. -/
theorem oneColourTile : Obligations.OneColourTile := by
  intro w P bc1 v hne hv
  have hpack : ∀ k ∈ searchSet P bc1, pack565 P[k] = pack565 v := fun k hk =>
    let ⟨hr, hg, hb⟩ := hv k hk
    pack565_congr hr hg hb
  obtain ⟨i, j, hi, hj, -, hblock, -⟩ := colorSearchTakesFirstLeast w P bc1 hne
  simp only [hpack i hi, hpack j hj, orient_self] at hblock
  rw [hblock]
  refine ⟨rfl, rfl, fun k hk => ?_⟩
  rw [colorIndex_colorFit, colorPixel_colorFit, fitIndex_self w _ hk]
  exact ⟨rfl, colorAt_palette_self _ bc1 fun _ => by decide⟩

/-! ### Alphas decoded exactly -/

theorem alphaAt_zero (a0 a1 : Byte) : alphaAt (alphaPalette a0 a1) 0 = a0 := by
  unfold alphaPalette; split <;> rfl

theorem alphaAt_one (a0 a1 : Byte) : alphaAt (alphaPalette a0 a1) 1 = a1 := by
  unfold alphaPalette; split <;> rfl

/-- The 6-value mode has the constants 0 and 255 (R80). -/
theorem alphaAt_constants {a0 a1 : Byte} (h : a0 ≤ a1) :
    alphaAt (alphaPalette a0 a1) 6 = 0 ∧ alphaAt (alphaPalette a0 a1) 7 = 255 := by
  rw [alphaPalette, if_neg (BitVec.not_lt.mpr h)]
  exact ⟨rfl, rfl⟩

/-- An alpha equal to the first endpoint takes index 0 (R141). -/
theorem fitAlphaIndex_of_eq (a a1 : Byte) : fitAlphaIndex (alphaPalette a a1) a = 0 :=
  firstLeast_eq_head fun n _ => by rw [alphaAt_zero, sqDiff_eq_zero_iff.mpr rfl]; exact Nat.zero_le _

theorem packFields_zero {w : Nat} : packFields (fun _ => (0 : BitVec w)) = 0 := by simp [packFields]

theorem alphaBlockBytes_index_zero (a0 a1 : Byte) :
    alphaBlockBytes (packAlphaBlock a0 a1 fun _ => 0) = [a0, a1, 0, 0, 0, 0, 0, 0] := by
  rw [packAlphaBlock, packFields_zero]
  simp [alphaBlockBytes, leBytes]

/-- Settles O52: every pair of the search has both endpoints `a`, and each alpha is entry 0. -/
theorem oneAlphaTile : Obligations.OneAlphaTile := by
  intro A a hA
  obtain ⟨i, j, hblock, -⟩ := alphaSearchTakesFirstLeast A
  have hfit : encAlpha3 A = packAlphaBlock a a fun _ => 0 := by
    rw [hblock, hA i, hA j, alphaFit]
    simp only [hA, fitAlphaIndex_of_eq]
  have hindex : ∀ k, alphaIndex (encAlpha3 A) k = 0 := fun k => by rw [hfit, alphaIndex_packAlphaBlock]
  refine ⟨hfit ▸ alphaBlockBytes_index_zero a a, fun k => ⟨hindex k, ?_⟩⟩
  rw [alphaValue, hindex, hfit]
  exact alphaAt_zero a a

/-- An alpha candidate has no error exactly when it decodes to the tile (R141). -/
theorem alphaFit_err_eq_zero_iff {A : Alphas} {a0 a1 : Byte} :
    (alphaFit A a0 a1).err = 0 ↔ ∀ k : Fin 16, alphaValue (alphaFit A a0 a1).block k = A[k] := by
  rw [← alphaErr_alphaFit, alphaErr]
  simp only [List.sum_eq_zero_iff_forall_eq_nat, List.forall_mem_map, sqDiff_eq_zero_iff]
  exact ⟨fun h k => (h k (mem_tileIndices k)).symm, fun h k _ => (h k).symm⟩

/-- An alpha that is an entry of a candidate's palette decodes exactly (R141). -/
theorem alphaValue_alphaFit_of_palette {A : Alphas} {a0 a1 : Byte} {k : Fin 16}
    (h : ∃ n, alphaAt (alphaPalette a0 a1) n = A[k]) : alphaValue (alphaFit A a0 a1).block k = A[k] := by
  obtain ⟨n, hn⟩ := h
  have hle := fitAlphaIndex_le (alphaPalette a0 a1) A[k] n
  rw [hn, sqDiff_eq_zero_iff.mpr rfl, Nat.le_zero, sqDiff_eq_zero_iff] at hle
  rw [alphaValue_alphaFit, ← hle]

/-- If some pair of the tile's alphas has every alpha in its palette, the tile decodes exactly (R140). -/
theorem alphaValue_encAlpha3_of_palette {A : Alphas} {i j : Fin 16}
    (h : ∀ k : Fin 16, ∃ n, alphaAt (alphaPalette A[i] A[j]) n = A[k]) (k : Fin 16) :
    alphaValue (encAlpha3 A) k = A[k] := by
  obtain ⟨a0, a1, hblock, hle⟩ := encAlpha3_cases A
  have hpair : (alphaFit A A[i] A[j]).err = 0 :=
    alphaFit_err_eq_zero_iff.mpr fun k => alphaValue_alphaFit_of_palette (h k)
  rw [hblock]
  exact alphaFit_err_eq_zero_iff.mp (Nat.eq_zero_of_le_zero (hpair ▸ hle i j)) k

/-- The 6-value palette of two endpoints holds both, and 0 and 255 (R80). -/
theorem exists_alphaAt_of_le {a0 a1 a : Byte} (hle : a0 ≤ a1) (ha : a = a0 ∨ a = a1 ∨ a = 0 ∨ a = 255) :
    ∃ n, alphaAt (alphaPalette a0 a1) n = a := by
  obtain ⟨hzero, hmax⟩ := alphaAt_constants hle
  rcases ha with rfl | rfl | rfl | rfl
  · exact ⟨0, alphaAt_zero ..⟩
  · exact ⟨1, alphaAt_one ..⟩
  · exact ⟨6, hzero⟩
  · exact ⟨7, hmax⟩

/-- Settles O53: the pair with the smaller alpha first has every alpha in its palette. -/
theorem twoAlphasExact : Obligations.TwoAlphasExact := by
  intro A i j hA
  rcases BitVec.le_total A[i] A[j] with hle | hle
  · exact alphaValue_encAlpha3_of_palette fun k => exists_alphaAt_of_le hle (hA k)
  · exact alphaValue_encAlpha3_of_palette fun k => exists_alphaAt_of_le hle (by have := hA k; tauto)

/-! ### The emitted colour blocks -/

/-- Where no pixel is punched through the larger endpoint comes first (R129). -/
theorem encColorBlock_endpoints_of_opaque (w : Weights) {P : Tile} {bc1 : Bool} (hp : punch P bc1 = false) :
    (encColorBlock w P bc1).c1 ≤ (encColorBlock w P bc1).c0 := by
  obtain ⟨e0, e1, e, -⟩ := encColorBlock_of_mem (w := w) (show 0 ∈ searchSet P bc1 by simp [mem_searchSet, hp])
  rw [e, hp]
  exact orient_opaque e0 e1

/-- Settles O55: the order of the endpoints and Q-mode. -/
theorem encoderEmitsSubset : Obligations.EncoderEmitsSubset := by
  intro w P
  refine ⟨?_, encColorBlock_endpoints_of_opaque w rfl⟩
  cases hp : punch P true with
  | true =>
    obtain ⟨hle, hthree⟩ := encColorBlock_punch w hp
    exact .inr (.inr ⟨rfl, hle, fun k => (hthree k).trans (transparent_iff P[k])⟩)
  | false =>
    have hle := encColorBlock_endpoints_of_opaque w hp
    by_cases hlt : (encColorBlock w P true).c1 < (encColorBlock w P true).c0
    · exact .inl ⟨rfl, hlt⟩
    · refine .inr (.inl ⟨rfl, BitVec.le_antisymm (BitVec.not_lt.mp hlt) hle, ?_⟩)
      exact (encColorBlock_opaque w hp).resolve_left hlt

end Sys2Proof.Machine
end

section
/-! ## The decoded pixels and the DEC commands

The colour and the alpha of a decoded pixel written out entry by entry (R71, R72, R76, R80, R161 to R163); and where DEC
puts each pixel of the image: no two pixels share a byte of OUT, so each keeps what its block decoded (R50, R106, R180 to
R183). -/

namespace Sys2Proof.Machine

open Sys2Proof

/-! ### The pixels of a decoded block -/

theorem decBc1_getElem (bs : List Byte) (k : Fin 16) :
    (decBc1 bs)[k] = colorPixel (colorBlockOfBytes bs) true k := by
  simp [decBc1]

theorem decBc2_getElem (bs : List Byte) (k : Fin 16) : (decBc2 bs)[k] =
    { colorPixel (colorBlockOfBytes (bs.drop 8)) false k with a := alpha4Value (alpha4OfBytes bs) k } := by
  simp [decBc2]

theorem decBc3_getElem (bs : List Byte) (k : Fin 16) : (decBc3 bs)[k] =
    { colorPixel (colorBlockOfBytes (bs.drop 8)) false k with a := alphaValue (alphaBlockOfBytes bs) k } := by
  simp [decBc3]

/-! ### The colour of a pixel -/

/-- The channels of an interpolated colour are exact (R71, R72). -/
theorem mixColor_toNat {u v d : Nat} (h : u + v = d) (hd : 0 < d) (p q : Pixel) :
    (mixColor u v d p q).r.toNat = (u * p.r.toNat + v * q.r.toNat) / d ∧
      (mixColor u v d p q).g.toNat = (u * p.g.toNat + v * q.g.toNat) / d ∧
      (mixColor u v d p q).b.toNat = (u * p.b.toNat + v * q.b.toNat) / d :=
  ⟨mix_toNat h hd _ _, mix_toNat h hd _ _, mix_toNat h hd _ _⟩

theorem colorIndex_cases (b : ColorBlock) (k : Fin 16) :
    colorIndex b k = 0 ∨ colorIndex b k = 1 ∨ colorIndex b k = 2 ∨ colorIndex b k = 3 := by
  have hindex : ∀ n : BitVec 2, n = 0 ∨ n = 1 ∨ n = 2 ∨ n = 3 := by decide
  exact hindex _

/-- A BC1 block with `c0 > c1` is read in 4-colour mode (R70). -/
theorem colorPalette_true_of_lt {c0 c1 : Half} (h : c1 < c0) : colorPalette c0 c1 true = colorPalette c0 c1 false := by
  have hmode : threeColor c0 c1 true = false := by simpa [threeColor] using h
  rw [colorPalette_false, colorPalette, hmode]
  rfl

/-- The palette of the 3-colour mode: the endpoints, their midpoint, transparent black (R72). -/
theorem colorPalette_true_of_le {c0 c1 : Half} (h : c0 ≤ c1) : colorPalette c0 c1 true =
    #v[unpack565 c0, unpack565 c1, mixColor 1 1 2 (unpack565 c0) (unpack565 c1), { r := 0, g := 0, b := 0, a := 0 }] := by
  have hmode : threeColor c0 c1 true = true := by simpa [threeColor] using h
  rw [colorPalette, hmode]
  rfl

section
variable {b : ColorBlock} {k : Fin 16}

theorem colorPixel_true_of_lt (h : b.c1 < b.c0) : colorPixel b true k = colorPixel b false k := by
  rw [colorPixel, colorPixel, colorPalette_true_of_lt h]

/-- In either mode the indices 0 and 1 name the endpoints (R71, R72). -/
theorem colorPixel_of_index_zero (bc1 : Bool) (h : colorIndex b k = 0) : colorPixel b bc1 k = unpack565 b.c0 := by
  rw [colorPixel, h, colorPalette]
  split <;> rfl

theorem colorPixel_of_index_one (bc1 : Bool) (h : colorIndex b k = 1) : colorPixel b bc1 k = unpack565 b.c1 := by
  rw [colorPixel, h, colorPalette]
  split <;> rfl

theorem colorPixel_false_of_index_two (h : colorIndex b k = 2) :
    colorPixel b false k = mixColor 2 1 3 (unpack565 b.c0) (unpack565 b.c1) := by
  rw [colorPixel, h, colorPalette_false]
  rfl

theorem colorPixel_false_of_index_three (h : colorIndex b k = 3) :
    colorPixel b false k = mixColor 1 2 3 (unpack565 b.c0) (unpack565 b.c1) := by
  rw [colorPixel, h, colorPalette_false]
  rfl

theorem colorPixel_true_of_index_two (hle : b.c0 ≤ b.c1) (h : colorIndex b k = 2) :
    colorPixel b true k = mixColor 1 1 2 (unpack565 b.c0) (unpack565 b.c1) := by
  rw [colorPixel, h, colorPalette_true_of_le hle]
  rfl

theorem colorPixel_true_of_index_three (hle : b.c0 ≤ b.c1) (h : colorIndex b k = 3) :
    colorPixel b true k = { r := 0, g := 0, b := 0, a := 0 } := by
  rw [colorPixel, h, colorPalette_true_of_le hle]
  rfl

/-- Every pixel of the 4-colour mode is opaque (R71). -/
theorem colorPixel_false_a : (colorPixel b false k).a = 255 := by
  rcases colorIndex_cases b k with h | h | h | h
  · rw [colorPixel_of_index_zero _ h]; rfl
  · rw [colorPixel_of_index_one _ h]; rfl
  · rw [colorPixel_false_of_index_two h]; rfl
  · rw [colorPixel_false_of_index_three h]; rfl

/-- A pixel of a BC1 block is opaque but at index 3 of the 3-colour mode (R72, R161). -/
theorem colorPixel_true_a (hmode : ¬ (b.c0 ≤ b.c1 ∧ colorIndex b k = 3)) : (colorPixel b true k).a = 255 := by
  by_cases hle : b.c0 ≤ b.c1
  · rcases colorIndex_cases b k with h | h | h | h
    · rw [colorPixel_of_index_zero _ h]; rfl
    · rw [colorPixel_of_index_one _ h]; rfl
    · rw [colorPixel_true_of_index_two hle h]; rfl
    · exact absurd ⟨hle, h⟩ hmode
  · rw [colorPixel_true_of_lt (BitVec.not_le.mp hle), colorPixel_false_a]

theorem colorPixel_true_a_eq_zero_iff : (colorPixel b true k).a = 0 ↔ b.c0 ≤ b.c1 ∧ colorIndex b k = 3 := by
  constructor
  · intro ha
    by_contra hmode
    rw [colorPixel_true_a hmode] at ha
    exact absurd ha (by decide)
  · rintro ⟨hle, h⟩
    rw [colorPixel_true_of_index_three hle h]

/-- At index 2 of the 4-colour mode the channels lie a third of the way from `c0` to `c1`, truncated (R71). -/
theorem colorPixel_false_two_toNat (h : colorIndex b k = 2) :
    (colorPixel b false k).r.toNat = (2 * (unpack565 b.c0).r.toNat + (unpack565 b.c1).r.toNat) / 3 ∧
      (colorPixel b false k).g.toNat = (2 * (unpack565 b.c0).g.toNat + (unpack565 b.c1).g.toNat) / 3 ∧
      (colorPixel b false k).b.toNat = (2 * (unpack565 b.c0).b.toNat + (unpack565 b.c1).b.toNat) / 3 := by
  have hmix := mixColor_toNat (u := 2) (v := 1) rfl (by omega) (unpack565 b.c0) (unpack565 b.c1)
  rw [colorPixel_false_of_index_two h]
  simpa only [one_mul] using hmix

/-- At index 3 of the 4-colour mode they lie two thirds of the way (R71). -/
theorem colorPixel_false_three_toNat (h : colorIndex b k = 3) :
    (colorPixel b false k).r.toNat = ((unpack565 b.c0).r.toNat + 2 * (unpack565 b.c1).r.toNat) / 3 ∧
      (colorPixel b false k).g.toNat = ((unpack565 b.c0).g.toNat + 2 * (unpack565 b.c1).g.toNat) / 3 ∧
      (colorPixel b false k).b.toNat = ((unpack565 b.c0).b.toNat + 2 * (unpack565 b.c1).b.toNat) / 3 := by
  have hmix := mixColor_toNat (u := 1) (v := 2) rfl (by omega) (unpack565 b.c0) (unpack565 b.c1)
  rw [colorPixel_false_of_index_three h]
  simpa only [one_mul] using hmix

/-- At index 2 of the 3-colour mode they are the truncated midpoint (R72). -/
theorem colorPixel_true_two_toNat (hle : b.c0 ≤ b.c1) (h : colorIndex b k = 2) :
    (colorPixel b true k).r.toNat = ((unpack565 b.c0).r.toNat + (unpack565 b.c1).r.toNat) / 2 ∧
      (colorPixel b true k).g.toNat = ((unpack565 b.c0).g.toNat + (unpack565 b.c1).g.toNat) / 2 ∧
      (colorPixel b true k).b.toNat = ((unpack565 b.c0).b.toNat + (unpack565 b.c1).b.toNat) / 2 := by
  have hmix := mixColor_toNat (u := 1) (v := 1) rfl (by omega) (unpack565 b.c0) (unpack565 b.c1)
  rw [colorPixel_true_of_index_two hle h]
  simpa only [one_mul] using hmix

end

/-- Settles O39: the two modes of the palette; index 3 of the 3-colour mode alone is not opaque. -/
theorem decodedBc1Pixel : Obligations.DecodedBc1Pixel := by
  intro bs k
  simp only [decBc1_getElem]
  refine ⟨rfl, ?_, colorPixel_true_a_eq_zero_iff, fun h => ?_, fun h => ?_, fun hlt => ?_, fun hle => ⟨fun h => ?_, ?_⟩⟩
  · by_cases hmode : (colorBlockOfBytes bs).c0 ≤ (colorBlockOfBytes bs).c1 ∧ colorIndex (colorBlockOfBytes bs) k = 3
    · exact .inr (colorPixel_true_of_index_three hmode.1 hmode.2)
    · exact .inl (colorPixel_true_a hmode)
  · simp only [colorPixel_of_index_zero _ h, unpack565_a, and_self]
  · simp only [colorPixel_of_index_one _ h, unpack565_a, and_self]
  · simp only [colorPixel_true_of_lt hlt, colorPixel_false_a, and_true]
    exact ⟨colorPixel_false_two_toNat, colorPixel_false_three_toNat⟩
  · simp only [colorPixel_true_a (b := colorBlockOfBytes bs) (k := k) (by simp [h]), and_true]
    exact colorPixel_true_two_toNat hle h
  · exact colorPixel_true_of_index_three hle

/-! ### The alpha of a pixel -/

/-- A 4-bit alpha times 17 fits a byte (R76). -/
theorem alpha4Value_toNat (aw : BitVec 64) (k : Fin 16) :
    (alpha4Value aw k).toNat = 17 * (aw.extractLsb' (4 * k.val) 4).toNat := by
  have hlt := (aw.extractLsb' (4 * k.val) 4).isLt
  exact Nat.mod_eq_of_lt (by omega)

/-- Settles O40: BC2 reads its colour in 4-colour mode, without looking at the order of the endpoints. -/
theorem decodedBc2Pixel : Obligations.DecodedBc2Pixel := by
  intro bs k
  simp only [decBc2_getElem]
  refine ⟨alpha4Value_toNat _ k, fun h => ?_, fun h => ?_, colorPixel_false_two_toNat, colorPixel_false_three_toNat⟩
  · simp only [colorPixel_of_index_zero _ h, and_self]
  · simp only [colorPixel_of_index_one _ h, and_self]

theorem ofNat_leNat_singleton (x : Byte) : BitVec.ofNat 8 (leNat [x]) = x := by simp [leNat]

/-- The endpoints of a BC3 alpha block are its first two bytes (R79). -/
theorem alphaBlockOfBytes_a0 {bs : List Byte} {x : Byte} (h : bs[0]? = some x) : (alphaBlockOfBytes bs).a0 = x := by
  match bs, h with
  | _ :: _, rfl => exact ofNat_leNat_singleton x

theorem alphaBlockOfBytes_a1 {bs : List Byte} {x : Byte} (h : bs[1]? = some x) : (alphaBlockOfBytes bs).a1 = x := by
  match bs, h with
  | _ :: _ :: _, rfl => exact ofNat_leNat_singleton x

/-- Where `a0 > a1` the entries from 2 on divide the way from `a0` to `a1` into seven (R80). -/
theorem alphaPalette_toNat_of_lt {a0 a1 : Byte} (h : a1 < a0) (i : Fin 8) (hi : 2 ≤ i.val) :
    (alphaPalette a0 a1)[i].toNat = ((8 - i.val) * a0.toNat + (i.val - 1) * a1.toNat) / 7 := by
  have hentry : (alphaPalette a0 a1)[i] = mix (8 - i.val) (i.val - 1) 7 a0 a1 := by
    rw [alphaPalette, if_pos h]
    fin_cases i
    · exact absurd hi (by decide)
    · exact absurd hi (by decide)
    all_goals rfl
  rw [hentry, mix_toNat (by omega) (by omega)]

/-- Elsewhere those from 2 to 5 divide it into five (R80). -/
theorem alphaPalette_toNat_of_le {a0 a1 : Byte} (h : a0 ≤ a1) (i : Fin 8) (hi : 2 ≤ i.val) (hi5 : i.val ≤ 5) :
    (alphaPalette a0 a1)[i].toNat = ((6 - i.val) * a0.toNat + (i.val - 1) * a1.toNat) / 5 := by
  have hentry : (alphaPalette a0 a1)[i] = mix (6 - i.val) (i.val - 1) 5 a0 a1 := by
    rw [alphaPalette, if_neg (BitVec.not_lt.mpr h)]
    fin_cases i
    · exact absurd hi (by decide)
    · exact absurd hi (by decide)
    · rfl
    · rfl
    · rfl
    · rfl
    · exact absurd hi5 (by decide)
    · exact absurd hi5 (by decide)
  rw [hentry, mix_toNat (by omega) (by omega)]

/-- Settles O41: BC3 reads its colour as BC2 does, and its alpha from the palette of the first two bytes. -/
theorem decodedBc3Pixel : Obligations.DecodedBc3Pixel := by
  refine ⟨fun bs k => ?_, fun b k => rfl, fun a0 a1 => ?_⟩
  · simp only [decBc3_getElem]
    refine ⟨fun _ => alphaBlockOfBytes_a0, fun _ => alphaBlockOfBytes_a1, rfl, fun h => ?_, fun h => ?_,
      colorPixel_false_two_toNat, colorPixel_false_three_toNat⟩
    · simp only [colorPixel_of_index_zero _ h, and_self]
    · simp only [colorPixel_of_index_one _ h, and_self]
  · exact ⟨alphaAt_zero a0 a1, alphaAt_one a0 a1, alphaPalette_toNat_of_lt,
      fun h => ⟨alphaPalette_toNat_of_le h, alphaAt_constants h⟩⟩

/-! ### The bytes DEC writes -/

/-- A cell of bytes at consecutive addresses holds the byte of its address. -/
theorem mem_cellsAt_iff {a : Nat} {bs : List Byte} {x : Host.Cell} :
    x ∈ cellsAt a bs ↔ a ≤ x.1 ∧ bs[x.1 - a]? = some x.2 := by
  induction bs generalizing a with
  | nil => simp [cellsAt]
  | cons b bs ih =>
    obtain ⟨p, v⟩ := x
    rw [cellsAt, List.mem_cons, ih, Prod.mk.injEq]
    rcases Nat.lt_trichotomy a p with hlt | rfl | hgt
    · have hindex : p - a = (p - (a + 1)) + 1 := by omega
      rw [hindex, List.getElem?_cons_succ]
      simp [hlt.ne', hlt, hlt.le]
    · simp [eq_comm]
    · simp [hgt.ne, Nat.not_le_of_gt hgt, Nat.not_le_of_gt (Nat.lt_succ_of_lt hgt)]

/-- Where every cell of an address that is written holds the same byte, the address reads as that byte. -/
theorem read_writeAll_of_forall {m : Memory} {cells : List Host.Cell} {a : Nat} {v : Byte}
    (hmem : ∃ x ∈ cells, x.1 = a) (hval : ∀ x ∈ cells, x.1 = a → x.2 = v) :
    Memory.read a (Memory.writeAll m cells) = some v := by
  induction cells generalizing m with
  | nil => simp at hmem
  | cons d cells ih =>
    obtain ⟨hd, hcells⟩ := List.forall_mem_cons.mp hval
    change Memory.read a (Memory.writeAll (Memory.write d.1 d.2 m) cells) = some v
    by_cases hlater : ∃ x ∈ cells, x.1 = a
    · exact ih hlater hcells
    · have hda : d.1 = a := by
        obtain ⟨x, hx, hxa⟩ := hmem
        rcases List.mem_cons.mp hx with rfl | hx
        · exact hxa
        · exact absurd ⟨x, hx, hxa⟩ hlater
      rw [read_writeAll_other fun x hx hxa => hlater ⟨x, hx, hxa⟩, hda, read_write_same, hd hda]

/-- The four bytes DEC writes at an address for a pixel of a block: those decoded, or free ones (R42, R50, R106). -/
def scatteredBytes (fmt : Format) (s : State) (n : Nat) (k : Fin 16) (a : Nat) : List Byte :=
  if pixelDefined fmt s.inMem n k then pixelBytes (decBlock fmt (blockIn fmt s.inMem n))[k] else freeBytes s.draws a 4

theorem scatteredBytes_of_defined {fmt : Format} {s : State} {n : Nat} {k : Fin 16} (a : Nat)
    (h : pixelDefined fmt s.inMem n k = true) :
    scatteredBytes fmt s n k a = pixelBytes (decBlock fmt (blockIn fmt s.inMem n))[k] := if_pos h

/-- DEC writes for a block the bytes of each pixel that is not clipped, at the pixel's address (R50, R106). -/
theorem mem_decCells_iff {fmt : Format} {s : State} {n : Nat} {x : Host.Cell} :
    x ∈ decCells fmt s n ↔ ∃ k a, scatterAddr s.lat n k = some a ∧ x ∈ cellsAt a (scatteredBytes fmt s n k a) := by
  simp only [decCells, List.mem_flatMap, mem_tileIndices, true_and]
  refine exists_congr fun k => ?_
  cases scatterAddr s.lat n k with
  | none => simp
  | some a => simp [scatteredBytes]

/-! ### The place of each pixel -/

/-- A byte of OUT belongs to one pixel of one block at most (R44, R50). -/
theorem pixel_of_addr {l : Latches} {n n' : Nat} {k k' : Fin 16} {p p' a : Nat} (h : scatterAddr l n k = some p)
    (h' : scatterAddr l n' k' = some p') (hlo : p ≤ a) (hhi : a < p + 4) (hlo' : p' ≤ a) (hhi' : a < p' + 4) :
    n = n' ∧ k = k' := by
  have hn : n = n' := outAddrs_disjoint (fmt := .bc1) (mem_outAddrs_dec.mpr ⟨k, p, h, hlo, hhi⟩)
    (mem_outAddrs_dec.mpr ⟨k', p', h', hlo', hhi'⟩)
  subst hn
  obtain ⟨hx, -, rfl⟩ := scatterAddr_eq_some.mp h
  obtain ⟨hx', -, rfl⟩ := scatterAddr_eq_some.mp h'
  obtain ⟨ex, ey⟩ := coordinates_of_addr hx hlo hhi
  obtain ⟨ex', ey'⟩ := coordinates_of_addr hx' hlo' hhi'
  have hcol : blockX l n k = blockX l n k' := ex.trans ex'.symm
  have hrow : blockY l n k = blockY l n k' := ey.trans ey'.symm
  unfold blockX at hcol
  unfold blockY at hrow
  exact ⟨rfl, Fin.ext (by omega)⟩

/-- Pixel `(x, y)` of the image is pixel `4*(y mod 4) + (x mod 4)` of block `(x div 4, y div 4)` (R47, R50, R183). -/
theorem scatterAddr_of_pixel {l : Latches} {x y : Nat} {k : Fin 16} (hx : x < l.imageWidth) (hy : y < l.imageHeight)
    (hk : k.val = 4 * (y % 4) + x % 4) :
    y / 4 * ceil4 l.imageWidth + x / 4 < l.blocks ∧
      scatterAddr l (y / 4 * ceil4 l.imageWidth + x / 4) k = some (pixelAddr l.imageWidth x y) := by
  obtain ⟨n, hn, k', ex, ey⟩ := exists_block_of_pixel hx hy
  have hcol : n % ceil4 l.imageWidth = x / 4 := by unfold blockX at ex; omega
  have hrow : n / ceil4 l.imageWidth = y / 4 := by unfold blockY at ey; omega
  have hblock : y / 4 * ceil4 l.imageWidth + x / 4 = n := by rw [← hcol, ← hrow, Nat.div_add_mod']
  have hpixel : k = k' := Fin.ext (by unfold blockX at ex; unfold blockY at ey; omega)
  rw [hblock, hpixel]
  exact ⟨hn, scatterAddr_eq_some.mpr ⟨ex ▸ hx, ey ▸ hy, by rw [ex, ey]⟩⟩

/-! ### The decoded image -/

section
variable {c : Config} {i : Instr} {s : State}

/-- A fresh ENC or DEC on accepted operands writes the cells of its blocks, one block after the other (R103). -/
theorem command_of_fresh_outMem (hop : i.op ≠ .size) (hs : s.doneBlocks = []) (ha : Accepted c i.op i.format s.lat) :
    (command c i s).outMem =
      Memory.writeAll s.outMem ((List.range s.lat.blocks).flatMap (blockCells c i s)) := by
  rw [command_of_fresh hop hs ha, finish_outMem, foldl_blockWork_outMem hop]
  exact List.foldl_flatMap.symm

/-- After a fresh DEC each pixel that is not clipped reads as its block decoded it, if the bytes it is made from are
defined (R50, R106): of all the cells written, those of its bytes are the pixel's own. -/
theorem read_command_of_dec (hop : i.op = .dec) (hs : s.doneBlocks = []) (ha : Accepted c i.op i.format s.lat)
    {n : Nat} {k : Fin 16} {p j : Nat} (hn : n < s.lat.blocks) (hp : scatterAddr s.lat n k = some p)
    (hdef : pixelDefined i.format s.inMem n k = true) (hj : j < 4) :
    Memory.read (p + j) (command c i s).outMem =
      (pixelBytes (decBlock i.format (blockIn i.format s.inMem n))[k])[j]? := by
  have hbytes := scatteredBytes_of_defined p hdef
  obtain ⟨v, hv⟩ : ∃ v, (scatteredBytes i.format s n k p)[j]? = some v :=
    ⟨_, List.getElem?_eq_getElem (by rw [hbytes]; exact hj)⟩
  rw [command_of_fresh_outMem (by rw [hop]; decide) hs ha, blockCells_of_dec hop, ← hbytes, hv]
  refine read_writeAll_of_forall ⟨(p + j, v), ?_, rfl⟩ fun x hx hxa => ?_
  · refine List.mem_flatMap.mpr ⟨n, List.mem_range.mpr hn, mem_decCells_iff.mpr ⟨k, p, hp, ?_⟩⟩
    exact mem_cellsAt_iff.mpr ⟨Nat.le_add_right p j, by rwa [Nat.add_sub_cancel_left]⟩
  · obtain ⟨n', -, hx⟩ := List.mem_flatMap.mp hx
    obtain ⟨k', p', hp', hx⟩ := mem_decCells_iff.mp hx
    have hrange : p' ≤ x.1 ∧ x.1 < p' + 4 := by
      have hlen : (scatteredBytes i.format s n' k' p').length = 4 := by unfold scatteredBytes; split <;> simp
      exact hlen ▸ mem_cellsAt hx
    obtain ⟨rfl, rfl⟩ := pixel_of_addr hp hp' (a := x.1) (by omega) (by omega) hrange.1 hrange.2
    obtain rfl : p = p' := Option.some.inj (hp.symm.trans hp')
    have hbyte := (mem_cellsAt_iff.mp hx).2
    rw [hxa, Nat.add_sub_cancel_left, hv] at hbyte
    exact (Option.some.inj hbyte).symm

/-- The image a fresh DEC leaves, by the coordinates of its pixels (R183). -/
theorem read_command_of_dec_pixel (hop : i.op = .dec) (hs : s.doneBlocks = []) (ha : Accepted c i.op i.format s.lat)
    (x y : Nat) (hx : x < s.lat.imageWidth) (hy : y < s.lat.imageHeight) (k : Fin 16)
    (hk : k.val = 4 * (y % 4) + x % 4) :
    let n := y / 4 * ceil4 s.lat.imageWidth + x / 4
    pixelDefined i.format s.inMem n k = true → ∀ j, j < 4 →
      Memory.read (4 * (y * s.lat.imageWidth + x) + j) (command c i s).outMem =
        (pixelBytes (decBlock i.format (blockIn i.format s.inMem n))[k])[j]? := by
  obtain ⟨hn, hp⟩ := scatterAddr_of_pixel hx hy hk
  exact fun hdef j hj => read_command_of_dec hop hs ha hn hp hdef hj

end

/-- Settles O26: DEC.BC1 completes as every ENC and DEC does, and leaves the decoded image (R180). -/
theorem decBc1Completes : Obligations.DecBc1Completes := fun s hs ha =>
  exec_completes (i := .decBc1) (by decide) hs ha (read_command_of_dec_pixel (i := .decBc1) rfl hs ha)

/-- Settles O27, as O26 with the pixels of `DecBC2` (R181). -/
theorem decBc2Completes : Obligations.DecBc2Completes := fun s hs ha =>
  exec_completes (i := .decBc2) (by decide) hs ha (read_command_of_dec_pixel (i := .decBc2) rfl hs ha)

/-- Settles O28, as O26 with the pixels of `DecBC3` (R182). -/
theorem decBc3Completes : Obligations.DecBc3Completes := fun s hs ha =>
  exec_completes (i := .decBc3) (by decide) hs ha (read_command_of_dec_pixel (i := .decBc3) rfl hs ha)

end Sys2Proof.Machine
end

section
/-! ## The idle BTC

The BTC takes a step of its own only while BUSY; idle and with no host move waiting it stays as it is (R214). -/

namespace Sys2Proof.Machine

open Sys2Proof

/-- Settles O6: of all a step can do, only idleness needs neither a waiting turn nor BUSY. -/
theorem idleWaits : Obligations.IdleWaits := by
  intro s hidle hnone
  rcases step_cases s with ⟨-, -, hstay⟩ | ⟨-, hbusy, -⟩ | ⟨ts, hturn⟩
  · exact hstay
  · exact absurd (hidle.symm.trans hbusy) (by decide)
  · simp [hnone] at hturn

end Sys2Proof.Machine
end

section
/-! ## Host writes while BUSY

A register write and a write of IN both test BUSY before anything else, so neither reaches the state while the BTC works
(R234). -/

namespace Sys2Proof.Machine

open Sys2Proof

theorem writeRegister_of_busy (r : Reg) (v : Word) {s : State} (hbusy : s.busy = true) : writeRegister r v s = s :=
  if_pos hbusy

theorem writeInput_of_busy (a : Nat) (b : Byte) {s : State} (hbusy : s.busy = true) : writeInput a b s = s :=
  if_pos hbusy

/-- Settles O11: taking the turn off leaves BUSY as it is, and a write to a busy BTC does nothing more. -/
theorem writesWhileBusyIgnored : Obligations.WritesWhileBusyIgnored := by
  intro s ts hbusy
  have hbusyAfterTurn : State.busy { s with turns := ts } = true := hbusy
  constructor
  · intro offset v r hr h
    rw [step_of_writeReg hr h, writeRegister_of_busy r v hbusyAfterTurn]
  · intro a b ha h
    rw [step_of_writeIn ha h, writeInput_of_busy a b hbusyAfterTurn]

end Sys2Proof.Machine
end
